-- ==== Sys2Proof/Word.lean ====
section
/-! DEFINITION. Word.lean: the word types of the command encoding (spec/00_scope.md R8, spec/30_encoding.md R73). -/

namespace Sys2Proof

/-- A byte, a natural number 0..255 (R8). -/
abbrev Byte := BitVec 8

/-- A `u32` command field: unsigned, 32 bits (R73). -/
abbrev Word32 := BitVec 32

end Sys2Proof
end

