-- ==== Sys2Proof/Syntax.lean ====
section
/-! DEFINITION. Syntax.lean: the eleven commands of spec/opcode_table.json (spec/30_encoding.md R74, R75, R79). -/

namespace Sys2Proof

/-- A color operand: one byte per red, green and blue channel, no white component (R110). -/
structure Color where
  r : Byte
  g : Byte
  b : Byte
deriving DecidableEq, Repr, Inhabited

/-- The commands, one constructor per row of the opcode table.  Every operand is carried in the command
itself (R21); `s` is a strip id and `v` a variant id (R74). -/
inductive Instr where
  /-- 0x01, format FV (R95). -/
  | compile (v : Byte)
  /-- 0x02, format FI (R161); `white` is the decoded `has_white` byte. -/
  | init (s v : Byte) (length : Word32) (white : Bool)
  /-- 0x03, format FP (R114). -/
  | setPixel (s : Byte) (index : Word32) (color : Color)
  /-- 0x04, format FM (R115); the field `len` is the length of `colors`. -/
  | setPixels (s : Byte) (start : Word32) (colors : List Color)
  /-- 0x05, format FF (R116). -/
  | fill (s : Byte) (start len : Word32) (color : Color)
  /-- 0x06, format FS (R167). -/
  | flush (s : Byte)
  /-- 0x07, format FS (R163). -/
  | busy (s : Byte)
  /-- 0x08, format FT (R165). -/
  | wait (s : Byte) (timeout : Word32)
  /-- 0x09, format FS (R168). -/
  | free (s : Byte)
  /-- 0x0A, format FS (R143). -/
  | encReset (s : Byte)
  /-- 0x0B, format FE, channel port only (R140); `space` is the field `free`. -/
  | encode (s : Byte) (space : Word32)
deriving DecidableEq, Repr

/-- The two ports commands arrive on (R79, R80). -/
inductive Port where
  | host
  | channel
deriving DecidableEq, Repr

end Sys2Proof
end

