-- ==== Sys2Proof/Config.lean ====
section
/-! DEFINITION. Config.lean: the data model's value types (spec/10_state.md R24 to R36, spec/40_symbol_compiler.md
R90), the parameters of spec/00_scope.md R6, and the free values. -/

namespace Sys2Proof

/-- The level of a half-period: `high` = 1, `low` = 0 (R10). -/
inductive Level where
  | low
  | high
deriving DecidableEq, Repr, Inhabited

/-- A pulse symbol: drive `level0` for `duration0` ticks, then `level1` for `duration1` ticks (R10, R70). -/
structure PulseSymbol where
  level0 : Level
  duration0 : Nat
  level1 : Level
  duration1 : Nat
deriving DecidableEq, Repr, Inhabited

/-- The per-variant order of the channel bytes (R90, R111). -/
inductive ColorOrder where
  | grb
  | rgb
deriving DecidableEq, Repr, Inhabited

/-- A timing profile: durations in nanoseconds and the color order (R90). -/
structure TimingProfile where
  t0High : Nat
  t0Low : Nat
  t1High : Nat
  t1Low : Nat
  tReset : Nat
  colorOrder : ColorOrder
deriving DecidableEq, Repr

/-- A compiled symbol set, an entry of `st.sym` (R24). -/
structure SymbolSet where
  bit0 : PulseSymbol
  bit1 : PulseSymbol
  reset : PulseSymbol
  order : ColorOrder
deriving DecidableEq, Repr, Inhabited

/-- The two states of the encoder's state machine (R30, R139); `SendData` = 0, `SendReset` = 1. -/
inductive Phase where
  | sendData
  | sendReset
deriving DecidableEq, Repr, Inhabited

/-- The configuration fields of a strip, written by INIT (R27). -/
structure StripConf where
  variant : Byte
  pixels : Nat
  white : Bool
  syms : SymbolSet
deriving DecidableEq, Repr, Inhabited

/-- The encoder session registers of a strip: phase, data cursor and reset cursor (R30 to R32). -/
structure Encoder where
  phase : Phase
  dbyte : Nat
  dbit : Fin 8
  rcount : Fin 2
deriving DecidableEq, Repr, Inhabited

/-- Which rounding the configuration's `ROUND` is (R6, R93): the reference one, or one the spec leaves open. -/
inductive Rounding where
  /-- `ROUND_HALF_UP(x) = floor(x + 1/2)`, the reference value of R6. -/
  | halfUp
  /-- Any `ROUND` that R6 allows: given by `Config.externalThreshold`, a free value. -/
  | external
deriving DecidableEq, Repr

/-- Which function the configuration's `LUMA` is (R6, R112): the test-only one, or an opaque one. -/
inductive LumaFunction where
  /-- `LUMA_test(r,g,b) = min(r,g,b)`, the reference value of R6. -/
  | minimum
  /-- Any function of the three bytes: `Config.externalLuma`, a free value. -/
  | external
deriving DecidableEq, Repr

/-- What an environment oracle (`ALLOC`, `CHAN` of R6) may do. -/
inductive Oracle where
  /-- It never refuses an allocation and never reports a channel fault: the reference value of R6. -/
  | never
  /-- It may refuse or report a fault at every call: each outcome is drawn. -/
  | external
deriving DecidableEq, Repr

/-- The named parameters of the implementation (R6), as plain data. -/
structure Config where
  /-- `RESOLUTION_HZ`, ticks per second. -/
  resolutionHz : Nat
  /-- `VARIANTS`, a finite map from variant id (0..255) to a profile, by rising id. -/
  variants : List (Nat × TimingProfile)
  /-- `ROUND`. -/
  rounding : Rounding
  /-- `DUR_WIDTH`, bits in one duration field. -/
  durWidth : Nat
  /-- `LUMA`. -/
  luma : LumaFunction
  /-- `SLOT_CAP`, symbols in the hardware symbol slot. -/
  slotCap : Nat
  /-- `FLUSH_TIMEOUT`, only read as zero or positive. -/
  flushTimeout : Nat
  /-- `MAX_STRIPS`, the number of strip ids. -/
  maxStrips : Nat
  /-- `ALLOC`. -/
  alloc : Oracle
  /-- `CHAN`. -/
  chan : Oracle
deriving DecidableEq, Repr

/-- FREE VALUE (log 4): the natural number behind the `n`-th draw of the environment (R8 `draw`, R9 `either`). -/
opaque Config.freeChoice : Nat → Nat

/-- FREE VALUE (log 3): an opaque `LUMA` (R112: nothing is assumed of it). -/
opaque Config.externalLuma : Byte → Byte → Byte → Byte

/-- FREE VALUE (log 2): where, between two consecutive naturals `q` and `q + 1`, an open `ROUND` begins to round
up, in billionths. -/
opaque Config.externalThreshold : Nat → Nat

/-- FREE VALUE (log 14): the configuration fields of a strip after FREE, which R38 leaves unspecified. -/
opaque Config.freeStripConf : Nat → StripConf

/-- FREE VALUE (log 14): the encoder fields after ENC_DEL, which R144 leaves unspecified. -/
opaque Config.freeEncoder : Nat → Encoder

/-- `P_doc`, the reference profile (R92). -/
def Config.profileDoc : TimingProfile where
  t0High := 400
  t0Low := 1000
  t1High := 1000
  t1Low := 400
  tReset := 5000
  colorOrder := .grb

/-- The reference configuration of spec/95_test_vectors.md section 0; `flushTimeout` is any positive bound
(log 1). -/
def Config.reference : Config where
  resolutionHz := 10000000
  variants :=
    [(0, Config.profileDoc),
     (1, { Config.profileDoc with colorOrder := .rgb }),
     (2, { Config.profileDoc with tReset := 50000 })]
  rounding := .halfUp
  durWidth := 15
  luma := .minimum
  slotCap := 64
  flushTimeout := 1
  maxStrips := 2
  alloc := .never
  chan := .never

end Sys2Proof
end

