-- ==== Sys2Proof/WellFormed.lean ====
section
/-! DEFINITION. WellFormed.lean: which commands have an encoding, and which configurations R6 allows. -/

namespace Sys2Proof

/-- A strip id must be below `MAX_STRIPS` (R74, R80). -/
def stripIdOk (maxStrips : Nat) (s : Byte) : Bool := decide (s.toNat < maxStrips)

/-- The command has an encoding the decoder accepts: its strip id is in range, and a SET_PIXELS list fits the
`u32` field `len` (R74, R76, R77). -/
def Instr.wf (maxStrips : Nat) : Instr → Bool
  | .compile _ => true
  | .init s _ _ _ => stripIdOk maxStrips s
  | .setPixel s _ _ => stripIdOk maxStrips s
  | .setPixels s _ colors => stripIdOk maxStrips s && decide (colors.length < 4294967296)
  | .fill s _ _ _ => stripIdOk maxStrips s
  | .flush s => stripIdOk maxStrips s
  | .busy s => stripIdOk maxStrips s
  | .wait s _ => stripIdOk maxStrips s
  | .free s => stripIdOk maxStrips s
  | .encReset s => stripIdOk maxStrips s
  | .encode s _ => stripIdOk maxStrips s

/-- The constraints R6 puts on the parameters: positive numbers, at most 256 strips, and `VARIANTS` a finite map
(rising ids, each 0..255). -/
def Config.wf (c : Config) : Bool :=
  decide (0 < c.resolutionHz) && decide (0 < c.durWidth) && decide (0 < c.slotCap) && decide (0 < c.flushTimeout)
    && decide (1 ≤ c.maxStrips ∧ c.maxStrips ≤ 256)
    && decide ((c.variants.map Prod.fst).Pairwise (· < ·)) && c.variants.all (fun e => decide (e.1 < 256))

end Sys2Proof
end

