-- ==== Sys2Proof/Decode.lean ====
section
/-! DEFINITION. Decode.lean: the command decoder and encoder (spec/30_encoding.md R73 to R81). -/

namespace Sys2Proof

/-- Why the decoder refuses an input (R80). -/
inductive DecodeError where
  /-- An encoding the decoder rejects: opcode, strip id, `has_white`, truncation. -/
  | illegal
  /-- ENCODE arriving on the host port. -/
  | encodeFromHost
deriving DecidableEq, Repr

/-- A little-endian `u32`: the byte at the lower offset is the less significant (R73). -/
def readU32 (b0 b1 b2 b3 : Byte) : Word32 := b3 ++ b2 ++ b1 ++ b0

/-- The four bytes of a `u32`, the less significant first (R73). -/
def writeU32 (w : Word32) : List Byte :=
  [w.extractLsb' 0 8, w.extractLsb' 8 8, w.extractLsb' 16 8, w.extractLsb' 24 8]

/-- `len` colors, each `r g b` in that order whatever the strip's color order (R75). -/
def decodeColors : Nat → List Byte → Option (List Color × List Byte)
  | 0, bs => some ([], bs)
  | n + 1, r :: g :: b :: bs => (decodeColors n bs).map fun p => (⟨r, g, b⟩ :: p.1, p.2)
  | _ + 1, _ => none

/-- The outcome of reading one command: the command and the bytes after it, or why it is refused. -/
abbrev Decoded := Except DecodeError (Instr × List Byte)

/-- Accepts a command of strip `s` only when the strip id is in range (R80). -/
def acceptStrip (maxStrips : Nat) (s : Byte) (i : Instr) (rest : List Byte) : Decoded :=
  if stripIdOk maxStrips s then .ok (i, rest) else .error .illegal

/-- Format FV: `[1]=v` (R75). -/
def decodeFV : List Byte → Decoded
  | v :: rest => .ok (.compile v, rest)
  | _ => .error .illegal

/-- Format FI: `[1]=s [2]=v [3..6]=length [7]=has_white`, where `has_white` is 0 or 1 (R74, R75, R80). -/
def decodeFI (maxStrips : Nat) : List Byte → Decoded
  | s :: v :: l0 :: l1 :: l2 :: l3 :: w :: rest =>
    if w = 0 then acceptStrip maxStrips s (.init s v (readU32 l0 l1 l2 l3) false) rest
    else if w = 1 then acceptStrip maxStrips s (.init s v (readU32 l0 l1 l2 l3) true) rest
    else .error .illegal
  | _ => .error .illegal

/-- Format FP: `[1]=s [2..5]=index [6]=r [7]=g [8]=b` (R75). -/
def decodeFP (maxStrips : Nat) : List Byte → Decoded
  | s :: i0 :: i1 :: i2 :: i3 :: r :: g :: b :: rest =>
    acceptStrip maxStrips s (.setPixel s (readU32 i0 i1 i2 i3) ⟨r, g, b⟩) rest
  | _ => .error .illegal

/-- Format FM: `[1]=s [2..5]=start [6..9]=len`, then `len` colors (R75, R77). -/
def decodeFM (maxStrips : Nat) : List Byte → Decoded
  | s :: a0 :: a1 :: a2 :: a3 :: n0 :: n1 :: n2 :: n3 :: bs =>
    match decodeColors (readU32 n0 n1 n2 n3).toNat bs with
    | some (colors, rest) => acceptStrip maxStrips s (.setPixels s (readU32 a0 a1 a2 a3) colors) rest
    | none => .error .illegal
  | _ => .error .illegal

/-- Format FF: `[1]=s [2..5]=start [6..9]=len [10]=r [11]=g [12]=b` (R75). -/
def decodeFF (maxStrips : Nat) : List Byte → Decoded
  | s :: a0 :: a1 :: a2 :: a3 :: n0 :: n1 :: n2 :: n3 :: r :: g :: b :: rest =>
    acceptStrip maxStrips s (.fill s (readU32 a0 a1 a2 a3) (readU32 n0 n1 n2 n3) ⟨r, g, b⟩) rest
  | _ => .error .illegal

/-- Format FS: `[1]=s` (R75). -/
def decodeFS (maxStrips : Nat) (command : Byte → Instr) : List Byte → Decoded
  | s :: rest => acceptStrip maxStrips s (command s) rest
  | _ => .error .illegal

/-- Formats FT and FE: `[1]=s [2..5]` a `u32`, which is `timeout` or `free` (R75). -/
def decodeFT (maxStrips : Nat) (command : Byte → Word32 → Instr) : List Byte → Decoded
  | s :: w0 :: w1 :: w2 :: w3 :: rest => acceptStrip maxStrips s (command s (readU32 w0 w1 w2 w3)) rest
  | _ => .error .illegal

/-- The fields of the command whose opcode is `op`: the opcode map (R79). -/
def decodeFields (maxStrips : Nat) (op : Nat) (fields : List Byte) : Decoded :=
  match op with
  | 0x01 => decodeFV fields
  | 0x02 => decodeFI maxStrips fields
  | 0x03 => decodeFP maxStrips fields
  | 0x04 => decodeFM maxStrips fields
  | 0x05 => decodeFF maxStrips fields
  | 0x06 => decodeFS maxStrips .flush fields
  | 0x07 => decodeFS maxStrips .busy fields
  | 0x08 => decodeFT maxStrips .wait fields
  | 0x09 => decodeFS maxStrips .free fields
  | 0x0A => decodeFS maxStrips .encReset fields
  | 0x0B => decodeFT maxStrips .encode fields
  | _ => .error .illegal

/-- The command at the head of a byte string, and the bytes after it; the port is not looked at.  Byte 0 is the
opcode and fixes the fields that follow (R73, R79). -/
def decodeCommand (maxStrips : Nat) (bytes : List Byte) : Decoded :=
  match bytes with
  | [] => .error .illegal
  | op :: fields => decodeFields maxStrips op.toNat fields

/-- The port a command belongs to (R79): ENCODE is the channel agent's, every other command the host's. -/
def Instr.port : Instr → Port
  | .compile _ => .host
  | .init _ _ _ _ => .host
  | .setPixel _ _ _ => .host
  | .setPixels _ _ _ => .host
  | .fill _ _ _ _ => .host
  | .flush _ => .host
  | .busy _ => .host
  | .wait _ _ => .host
  | .free _ => .host
  | .encReset _ => .host
  | .encode _ _ => .channel

/-- The decoder of a port (R80): ENCODE on the host port is refused by its own name.  A host command on the
channel port is ILLEGAL, and the checks of the encoding come before the port's: DEDUCED, log 12. -/
def decode (port : Port) (maxStrips : Nat) (bytes : List Byte) : Decoded :=
  match decodeCommand maxStrips bytes with
  | .error e => .error e
  | .ok (i, rest) =>
    if i.port = port then .ok (i, rest)
    else match port with
      | .host => .error .encodeFromHost
      | .channel => .error .illegal

/-- The opcode of a command (R79). -/
def Instr.opcode : Instr → Byte
  | .compile _ => 0x01
  | .init _ _ _ _ => 0x02
  | .setPixel _ _ _ => 0x03
  | .setPixels _ _ _ => 0x04
  | .fill _ _ _ _ => 0x05
  | .flush _ => 0x06
  | .busy _ => 0x07
  | .wait _ _ => 0x08
  | .free _ => 0x09
  | .encReset _ => 0x0A
  | .encode _ _ => 0x0B

/-- The bytes of one color: r, g, b (R75). -/
def Color.bytes (c : Color) : List Byte := [c.r, c.g, c.b]

/-- The fields after the opcode byte (R75). -/
def Instr.fieldBytes : Instr → List Byte
  | .compile v => [v]
  | .init s v length white => [s, v] ++ writeU32 length ++ [if white then 1 else 0]
  | .setPixel s index c => [s] ++ writeU32 index ++ c.bytes
  | .setPixels s start colors =>
    [s] ++ writeU32 start ++ writeU32 (BitVec.ofNat 32 colors.length) ++ colors.flatMap Color.bytes
  | .fill s start len c => [s] ++ writeU32 start ++ writeU32 len ++ c.bytes
  | .flush s => [s]
  | .busy s => [s]
  | .wait s timeout => [s] ++ writeU32 timeout
  | .free s => [s]
  | .encReset s => [s]
  | .encode s space => [s] ++ writeU32 space

/-- The byte string of a command (R73, R75). -/
def encode (i : Instr) : List Byte := i.opcode :: i.fieldBytes

/-- The length of a command in bytes, fixed by its opcode but for SET_PIXELS (R75, R77). -/
def Instr.byteLength : Instr → Nat
  | .compile _ => 2
  | .init _ _ _ _ => 8
  | .setPixel _ _ _ => 9
  | .setPixels _ _ colors => 10 + 3 * colors.length
  | .fill _ _ _ _ => 13
  | .flush _ => 2
  | .busy _ => 2
  | .wait _ _ => 6
  | .free _ => 2
  | .encReset _ => 2
  | .encode _ _ => 6

/-- The low `n` bytes of a number, the least significant first. -/
def bytesOfNat : Nat → Nat → List Byte
  | 0, _ => []
  | n + 1, w => BitVec.ofNat 8 w :: bytesOfNat n (w / 256)

/-- The bytes of an instruction numbered as the opcode table numbers its bits: byte `k` is bits `8k+7 .. 8k`, and
every bit from `nbits` up is 0, to the longest command of fixed length (FILL, 13 bytes). -/
def tableBytes (nbits w : Nat) : List Byte := bytesOfNat (max ((nbits + 7) / 8) 13) (w % 2 ^ nbits)

/-- The instruction the decoder reads from an instruction whose bits are `w`, at the reference `MAX_STRIPS`. -/
def decodeTableWord (nbits w : Nat) : Option Instr :=
  match decodeCommand Config.reference.maxStrips (tableBytes nbits w) with
  | .ok (i, _) => some i
  | .error _ => none

end Sys2Proof
end

