-- ==== Sys2Proof/Machine/State.lean ====
section
/-! DEFINITION. Machine/State.lean: the machine's state as plain data (spec/10_state.md), the reasons a step can
stop, and the state at power-on (R38, R220). -/

namespace Sys2Proof.Machine

/-- A pixel buffer: its bytes by rising address.  An address that is not listed does not exist (R51, log 16). -/
abbrev Memory := List Host.Cell

/-- The canonical form of a memory: addresses strictly rising. -/
abbrev Memory.wf (m : Memory) : Prop := (m.map Prod.fst).Pairwise (· < ·)

/-- How a session ended (R36). -/
inductive SessionEnd where
  | done
  | failed
deriving DecidableEq, Repr

/-- An entry of `txlog`: the symbols put on the wire, and how the session ended (R36). -/
structure Session where
  symbols : List PulseSymbol
  outcome : SessionEnd
deriving DecidableEq, Repr

/-- The state of one strip (R27 to R36). -/
structure Strip where
  /-- The strip holds a pixel buffer, an encoder and a channel (R27). -/
  present : Bool
  /-- `variant`, `P`, `W` and `syms` (R27). -/
  conf : StripConf
  /-- The pixel buffer (R29). -/
  buf : Memory
  /-- `phase`, `dbyte`, `dbit`, `rcount` (R30 to R32). -/
  enc : Encoder
  /-- A transmission is in flight (R33). -/
  busy : Bool
  /-- A channel fault that no command has returned yet (R34). -/
  chErr : Bool
  /-- The hardware symbol slot, the oldest symbol first (R35, R54). -/
  slot : List PulseSymbol
  /-- ENCODE has returned `COMPLETE` in the current session (R35). -/
  encDone : Bool
  /-- The symbols put on the line in the current session (R36). -/
  wire : List PulseSymbol
  /-- The finished sessions, the oldest first (R36). -/
  txlog : List Session
deriving DecidableEq, Repr

/-- The six fault codes (R193). -/
inductive FaultCode where
  | symRange
  | notCompiled
  | reinit
  | bufWriteBusy
  | encResetBusy
  | freeBusy
deriving DecidableEq, Repr

/-- What `raise Fault` records: the code, the variant or strip id, and the pc (R193). -/
structure FaultRecord where
  code : FaultCode
  info : Nat
  pc : Nat
deriving DecidableEq, Repr

/-- The three reasons of a refusal (R195). -/
inductive RefusalReason where
  | illegal
  | encodeFromHost
  | encodeOutsideSession
deriving DecidableEq, Repr

/-- What `refuse` records: the reason and the pc (R195). -/
structure RefusalRecord where
  reason : RefusalReason
  pc : Nat
deriving DecidableEq, Repr

/-- The five error kinds (R190). -/
inductive ErrorKind where
  | invalidArgument
  | outOfRange
  | outOfMemory
  | timeout
  | channelFailure
deriving DecidableEq, Repr

/-- The status ENCODE returns: a set drawn from the flags `COMPLETE` and `FULL` (R23). -/
structure EncStatus where
  complete : Bool
  full : Bool
deriving DecidableEq, Repr

/-- What a command returns (R11, R78). -/
inductive Response where
  /-- `Ok()`. -/
  | ok
  /-- `Err(kind)`. -/
  | err (kind : ErrorKind)
  /-- BUSY's `Ok(answer)`. -/
  | busy (answer : Bool)
  /-- ENCODE's `Ok(|out|, status, out)`. -/
  | encode (status : EncStatus) (out : List PulseSymbol)
deriving DecidableEq, Repr

/-- One step of one agent (R5, R170); a strip is named by its id. -/
inductive Move where
  /-- The host agent issues the command at `pc`. -/
  | host
  /-- The bound of the holding WAIT or FLUSH elapses (R164). -/
  | expire
  /-- A command is taken from the channel port (R79, log 11). -/
  | port
  /-- CHAN_DRAIN (R171). -/
  | drain (s : Nat)
  /-- CHAN_ENCODE (R172). -/
  | encode (s : Nat)
  /-- CHAN_DONE (R174). -/
  | done (s : Nat)
  /-- CHAN_FAIL (R175). -/
  | fail (s : Nat)
deriving DecidableEq, Repr

/-- The reasons a step stops with a fault. -/
inductive Fault where
  /-- Raised by `step` in a state whose `st.fault` is set: no agent steps any more (R193).  Safe. -/
  | stopped (record : FaultRecord)
  /-- Raised by `step` in a state in which no agent has a step: the run is finished (R180, log 8).  Safe. -/
  | finished
  /-- Raised by ENCODE when it reads a pixel-buffer address that does not exist (R51).  Safe; no state that meets
  the invariant R39(i) raises it (log 16). -/
  | noSuchByte (address : Nat)
deriving DecidableEq, Repr

/-- The reasons a step is refused. -/
inductive Refusal where
  /-- Raised by an arm of `exec` for an instruction without a meaning; no arm is left that does.  Safe. -/
  | notModelled (mnemonic : String)
  /-- Raised by `step` in a state whose `st.refused` is set: no agent steps any more (R195).  Safe. -/
  | stopped (record : RefusalRecord)
deriving DecidableEq, Repr

/-- The whole machine. -/
structure State where
  /-- The parameters (R6); no step writes them (log 1). -/
  cfg : Config
  /-- `st.sym`, by rising variant id; an id not listed is `none` (R24). -/
  sym : List (Nat × SymbolSet)
  /-- `st.fault` (R26). -/
  fault : Option FaultRecord
  /-- `st.refused` (R26). -/
  refused : Option RefusalRecord
  /-- The host program, the concatenation of its commands (R22, R73). -/
  prog : List Byte
  /-- `st.pc`, the index of the next command (R22). -/
  pc : Nat
  /-- The strip whose session the held host command waits for (R22, R164, log 9). -/
  holding : Option Nat
  /-- The bytes offered on the channel port (R79, log 11). -/
  chanPort : List Byte
  /-- The strips, by rising id; a strip not listed is as at power-on (R38). -/
  strips : List (Nat × Strip)
  /-- The responses returned on the host port, the oldest first (R78, log 10). -/
  hostResp : List Response
  /-- The responses returned on the channel port, the oldest first (R78, log 10). -/
  chanResp : List Response
  /-- A given beginning of the order in which the agents step (log 5). -/
  agenda : List Move
  /-- The fair steps of the channel agents that are enabled and not yet taken, the longest waiting first, each with the
  number of choices that may still pass it over (R176, log 5). -/
  waiting : List (Move × Nat)
  /-- A given beginning of the environment's draws (log 4). -/
  script : List Nat
  /-- How many free values have been drawn (log 4). -/
  draws : Nat
deriving DecidableEq, Repr

/-- A strip at power-on (R38).  The fields R38 leaves unspecified hold the type's first values: DESIGN CHOICE,
log 13. -/
def Strip.powerOn : Strip where
  present := false
  conf := { variant := 0, pixels := 0, white := false, syms := default }
  buf := []
  enc := { phase := .sendData, dbyte := 0, dbit := 0, rcount := 0 }
  busy := false
  chErr := false
  slot := []
  encDone := false
  wire := []
  txlog := []

/-- The machine at power-on (R38, R220, R221), in the reference configuration (log 1), with no program loaded
(log 6). -/
def State.reset : State where
  cfg := Config.reference
  sym := []
  fault := none
  refused := none
  prog := []
  pc := 0
  holding := none
  chanPort := []
  strips := []
  hostResp := []
  chanResp := []
  agenda := []
  waiting := []
  script := []
  draws := 0

end Sys2Proof.Machine
end

