-- ==== Sys2Proof/Machine/Ops.lean ====
section
/-! DEFINITION. Machine/Ops.lean: the named operations on tables, pixel buffers, strips and the machine: reading,
writing, drawing, ending a command, raising a fault, refusing, waiting (spec/00_scope.md R9, R11). -/

namespace Sys2Proof

/-- `cpp(s)` (R28). -/
def StripConf.cpp (c : StripConf) : Nat := 3 + (if c.white then 1 else 0)

/-- `N(s) = P * cpp(s)` (R28). -/
def StripConf.size (c : StripConf) : Nat := c.pixels * c.cpp

end Sys2Proof

namespace Sys2Proof.Machine

/-- The answer of an operation or a step on the machine's state. -/
abbrev Answer := Host.Outcome State Fault Refusal

/-- The entry of a table at a key. -/
def tableGet {α : Type} : List (Nat × α) → Nat → Option α
  | [], _ => none
  | (j, x) :: t, k => if k = j then some x else tableGet t k

/-- Writes the entry of a table at a key, keeping the keys rising. -/
def tableSet {α : Type} : List (Nat × α) → Nat → α → List (Nat × α)
  | [], k, x => [(k, x)]
  | (j, y) :: t, k, x =>
    if k = j then (k, x) :: t
    else if k < j then (k, x) :: (j, y) :: t
    else (j, y) :: tableSet t k x

/-- `MemRead(a, 1)`; `none` where the address does not exist (R9, R51). -/
def memRead (m : Memory) (a : Nat) : Option Byte := tableGet m a

/-- `MemWrite(a, |bs|, bs)`: the first byte at the lowest address (R9). -/
def memWrite (m : Memory) (a : Nat) : List Byte → Memory
  | [] => m
  | b :: bs => memWrite (tableSet m a b) (a + 1) bs

/-- A memory that lists `bs` at the addresses `a`, `a + 1`, … -/
def memFrom (a : Nat) : List Byte → Memory
  | [] => []
  | b :: bs => (a, b) :: memFrom (a + 1) bs

/-- `S[k]`; a strip never written is as at power-on (R38). -/
def State.strip (st : State) (k : Nat) : Strip := (tableGet st.strips k).getD Strip.powerOn

/-- Writes `S[k]`. -/
def State.setStrip (st : State) (k : Nat) (x : Strip) : State := { st with strips := tableSet st.strips k x }

/-- `st.sym[v]` (R24). -/
def State.symbols (st : State) (v : Nat) : Option SymbolSet := tableGet st.sym v

/-- `draw`: the environment's next choice, from the given script while it lasts and then a free value (R8, log 4). -/
def State.draw (st : State) : Nat × State :=
  match st.script with
  | n :: ns => (n, { st with script := ns })
  | [] => (Config.freeChoice st.draws, { st with draws := st.draws + 1 })

/-- A draw between two outcomes: `true` for an odd number. -/
def State.drawBit (st : State) : Bool × State := (st.draw.1 % 2 == 1, st.draw.2)

/-- Asks an oracle whether the call goes well (R6): `true` when it does. -/
def State.ask (st : State) (o : Oracle) : Bool × State :=
  match o with
  | .never => (true, st)
  | .external => st.drawBit

/-- `draw bs ∈ Byte^n` (R161): one draw per byte. -/
def State.drawBytes (st : State) : Nat → List Byte × State
  | 0 => ([], st)
  | n + 1 =>
    let d := st.draw
    let r := d.2.drawBytes n
    (BitVec.ofNat 8 d.1 :: r.1, r.2)

/-- Ends a host command with a response: `return Ok` or `return Err`, and `pc <- pc + 1` (R9, R22). -/
def State.finish (st : State) (r : Response) : Answer :=
  .next { st with pc := st.pc + 1, holding := none, hostResp := st.hostResp ++ [r] }

/-- Ends a host command with an error kind (R9, R190). -/
def State.fail (st : State) (e : ErrorKind) : Answer := st.finish (.err e)

/-- `raise Fault(code(info))`: sets the sticky `st.fault` and makes no other change (R193). -/
def State.raise (st : State) (code : FaultCode) (info : Nat) : Answer :=
  .next { st with fault := some { code := code, info := info, pc := st.pc } }

/-- `refuse(reason)`: sets the sticky `st.refused` and makes no other change (R195). -/
def State.refuse (st : State) (reason : RefusalReason) : Answer :=
  .next { st with refused := some { reason := reason, pc := st.pc } }

/-- What `WAIT_DONE` comes to (R164). -/
inductive WaitAnswer where
  | ok
  | timeout
  | channelFailure
  | hold
deriving DecidableEq, Repr

/-- `WAIT_DONE(k, t)` (R164): with a positive bound on a busy strip, either the bound elapses or the host holds. -/
def State.waitDone (st : State) (k t : Nat) : WaitAnswer × State :=
  if (st.strip k).busy then
    if t = 0 then (.timeout, st)
    else if st.drawBit.1 then (.timeout, st.drawBit.2)
    else (.hold, { st.drawBit.2 with holding := some k })
  else if (st.strip k).chErr then (.channelFailure, st.setStrip k { st.strip k with chErr := false })
  else (.ok, st)

end Sys2Proof.Machine
end

