-- ==== Sys2Proof/Machine/Operands.lean ====
section
/-! DEFINITION. Machine/Operands.lean: what the commands compute from their operands and the parameters: ticks and
symbols (spec/40_symbol_compiler.md), color layout and pixel addresses (spec/41_pixel_buffer.md), symbol words and
response bytes (spec/30_encoding.md R71, R78). -/

namespace Sys2Proof

open Sys2Proof.Machine

/-! ## Scaling (R93, R94) -/

/-- `ROUND(a / 10^9)` (R6, R93).  An open `ROUND` rounds up from a free threshold on, which is every function on the
multiples of `10^-9` that R6 allows (log 2). -/
def Config.round (c : Config) (a : Nat) : Nat :=
  match c.rounding with
  | .halfUp => (2 * a + 1000000000) / 2000000000
  | .external =>
    if a % 1000000000 < max 1 (Config.externalThreshold (a / 1000000000)) then a / 1000000000
    else a / 1000000000 + 1

/-- `T(d) = ROUND(d * R / 1 000 000 000)` (R93). -/
def Config.ticks (c : Config) (d : Nat) : Nat := c.round (d * c.resolutionHz)

/-- `H = ceil(T(t_reset) / 2)` (R94). -/
def Config.resetHalf (c : Config) (d : Nat) : Nat := (c.ticks d + 1) / 2

/-- `DUR_MAX = 2^DUR_WIDTH - 1` (R6). -/
def Config.durMax (c : Config) : Nat := 2 ^ c.durWidth - 1

/-! ## Symbol compilation (R95, R96) -/

/-- `VARIANTS[v]` (R91). -/
def Config.profile (c : Config) (v : Byte) : Option TimingProfile := tableGet c.variants v.toNat

/-- A compiled duration is in `1..DUR_MAX` (R70, R96). -/
def Config.durOk (c : Config) (d : Nat) : Bool := decide (1 ≤ d ∧ d ≤ c.durMax)

/-- The symbol set of a profile (R95). -/
def Config.symbolSet (c : Config) (p : TimingProfile) : SymbolSet where
  bit0 := ⟨.high, c.ticks p.t0High, .low, c.ticks p.t0Low⟩
  bit1 := ⟨.high, c.ticks p.t1High, .low, c.ticks p.t1Low⟩
  reset := ⟨.low, c.resetHalf p.tReset, .low, c.resetHalf p.tReset⟩
  order := p.colorOrder

/-- The five durations COMPILE checks (R95, R96). -/
def Config.durations (c : Config) (p : TimingProfile) : List Nat :=
  [c.ticks p.t0High, c.ticks p.t0Low, c.ticks p.t1High, c.ticks p.t1Low,
   c.resetHalf p.tReset]

/-- Every compiled duration of the profile fits (R96). -/
def Config.profileOk (c : Config) (p : TimingProfile) : Bool := (c.durations p).all (c.durOk)

/-! ## Colors and addresses (R52, R111, R112) -/

/-- `LUMA(r, g, b)` (R112). -/
def Config.lumaOf (c : Config) (x : Color) : Byte :=
  match c.luma with
  | .minimum => if x.r ≤ x.g then (if x.r ≤ x.b then x.r else x.b) else (if x.g ≤ x.b then x.g else x.b)
  | .external => Config.externalLuma x.r x.g x.b

/-- `LAYOUT(order, W, c)` (R111). -/
def Config.layout (c : Config) (order : ColorOrder) (white : Bool) (x : Color) : List Byte :=
  (match order with
   | .grb => [x.g, x.r, x.b]
   | .rgb => [x.r, x.g, x.b]) ++ (if white then [c.lumaOf x] else [])

/-! ## Numeric forms (R71, R78, R190, R193) -/

/-- A level as a bit (R10). -/
def levelBit : Level → Nat
  | .low => 0
  | .high => 1

/-- The symbol word `{level1, duration1, level0, duration0}` (R71). -/
def PulseSymbol.word (durWidth : Nat) (p : PulseSymbol) : Nat :=
  p.duration0 + 2 ^ durWidth * levelBit p.level0 + 2 ^ (durWidth + 1) * p.duration1
    + 2 ^ (2 * durWidth + 1) * levelBit p.level1

/-- The bytes of a symbol word, least significant first (R71, R78); for a width other than 15 the word is filled up
to whole bytes: DESIGN CHOICE, log 18. -/
def PulseSymbol.wordBytes (durWidth : Nat) (p : PulseSymbol) : List Byte :=
  bytesOfNat ((2 * durWidth + 2 + 7) / 8) (p.word durWidth)

end Sys2Proof

namespace Sys2Proof.Machine

/-! ## Operands of the machine -/

/-- The bytes of one color on a strip: `LAYOUT(S[s].syms.order, S[s].W, c)` (R111). -/
def State.colorBytes (st : State) (k : Nat) (x : Color) : List Byte :=
  st.cfg.layout (st.strip k).conf.syms.order (st.strip k).conf.white x

/-- The first byte of pixel `i` of strip `k`: `cpp(s) * i` (R52). -/
def State.pixelAddress (st : State) (k i : Nat) : Nat := (st.strip k).conf.cpp * i

/-- The bounds of SET_PIXELS and FILL (R115, R116): the error of the range `[start, start + len)`, if it has one.
When it is both out of range and empty, either error may be returned: a draw (D14). -/
def State.rangeError (st : State) (k start len : Nat) : Option ErrorKind × State :=
  if (st.strip k).conf.pixels < start + len then
    if len = 0 then ((if st.drawBit.1 then some .outOfRange else some .invalidArgument), st.drawBit.2)
    else (some .outOfRange, st)
  else if len = 0 then (some .invalidArgument, st)
  else (none, st)

/-! ## Codes and response bytes (R78, R190, R193) -/

/-- The code of an error kind (R78, R190). -/
def ErrorKind.code : ErrorKind → Byte
  | .invalidArgument => 1
  | .outOfRange => 2
  | .outOfMemory => 3
  | .timeout => 4
  | .channelFailure => 5

/-- The code of a fault (R193). -/
def FaultCode.number : FaultCode → Nat
  | .symRange => 1
  | .notCompiled => 2
  | .reinit => 3
  | .bufWriteBusy => 4
  | .encResetBusy => 5
  | .freeBusy => 6

/-- The status byte: `COMPLETE` is bit 0, `FULL` bit 1, the other bits 0 (R78). -/
def EncStatus.byte (x : EncStatus) : Byte := (if x.complete then 1 else 0) + (if x.full then 2 else 0)

/-- The bytes of a response (R78). -/
def Response.bytes (durWidth : Nat) : Response → List Byte
  | .ok => [0]
  | .err e => [e.code]
  | .busy answer => [0, if answer then 1 else 0]
  | .encode status out =>
    [0] ++ bytesOfNat 4 out.length ++ [status.byte] ++ out.flatMap (PulseSymbol.wordBytes durWidth)

end Sys2Proof.Machine
end

