-- ==== Sys2Proof/Machine/Flags.lean ====
section
/-! DEFINITION. Machine/Flags.lean: the two flags of the status ENCODE and its sub-encoders return, `COMPLETE` and
`FULL` (spec/10_state.md R23, spec/42_strip_encoder.md R131, R135, R138). -/

namespace Sys2Proof.Machine

/-- `COMPLETE` exactly when the sub-encoder's input is used up: of `left` symbols `k` were written (R138). -/
def completeFlag (left k : Nat) : Bool := decide (left - k = 0)

/-- `FULL` exactly when no free space is left after `k` symbols (R138). -/
def fullFlag (free k : Nat) : Bool := decide (free - k = 0)

/-- The status of a sub-encoder that had `left` symbols to write, was offered `free` places and wrote `k` (R131,
R135). -/
def subStatus (left free k : Nat) : EncStatus := { complete := completeFlag left k, full := fullFlag free k }

/-- The status of an ENCODE that stops after the data phase: `FULL` alone, also when the data phase is complete
(R140, D11). -/
def dataStopStatus : EncStatus := { complete := false, full := true }

end Sys2Proof.Machine
end

