-- ==== Sys2Proof/Machine/Encoder.lean ====
section
/-! DEFINITION. Machine/Encoder.lean: the data and reset sub-encoders, the two-phase state machine, and the commands
ENCODE and ENC_RESET (spec/42_strip_encoder.md). -/

namespace Sys2Proof.Machine

/-! ## Sub-encoders (R130 to R137) -/

/-- The linear bit position `8*dbyte + dbit` of the data cursor (R31). -/
def bitPosition (e : Encoder) : Nat := 8 * e.dbyte + e.dbit.val

/-- Sets the data cursor to a linear bit position (R131). -/
def setBitPosition (e : Encoder) (pos : Nat) : Encoder := { e with dbyte := pos / 8, dbit := Fin.ofNat 8 pos }

/-- The symbol of data bit `p`: bits go out most significant first within each byte (R132). -/
def bitSymbol (syms : SymbolSet) (b : Byte) (p : Nat) : PulseSymbol :=
  if b.getLsbD (7 - p % 8) then syms.bit1 else syms.bit0

/-- The symbols of the `k` data bits from bit position `p` on (R131), or the address that does not exist. -/
def dataSymbols (syms : SymbolSet) (buf : Memory) (p : Nat) : Nat → Except Nat (List PulseSymbol)
  | 0 => .ok []
  | k + 1 =>
    match memRead buf (p / 8) with
    | none => .error (p / 8)
    | some b =>
      match dataSymbols syms buf (p + 1) k with
      | .error a => .error a
      | .ok out => .ok (bitSymbol syms b p :: out)

/-- What a sub-encoder or ENCODE answers on one strip. -/
inductive EncodeAnswer where
  /-- The call is outside a session (R140). -/
  | outside
  /-- A buffer address that does not exist was read (log 16). -/
  | missing (address : Nat)
  /-- `Ok(|out|, status, out)`, and the strip after it. -/
  | ok (out : List PulseSymbol) (status : EncStatus) (after : Strip)
deriving DecidableEq, Repr

/-- `SlotWrite` of each symbol in turn (R54). -/
def slotWrite (x : Strip) (out : List PulseSymbol) : Strip := { x with slot := x.slot ++ out }

/-- DATA_ENCODE(s, S[s].buf, free) (R131, R133). -/
def dataEncode (x : Strip) (free : Nat) : EncodeAnswer :=
  let left := 8 * x.buf.length - bitPosition x.enc
  let k := min left free
  match dataSymbols x.conf.syms x.buf (bitPosition x.enc) k with
  | .error a => .missing a
  | .ok out =>
    let pos := if left - k = 0 then 0 else bitPosition x.enc + k
    .ok out (subStatus left free k) { slotWrite x out with enc := setBitPosition x.enc pos }

/-- DATA_RESET(s) (R134). -/
def dataReset (e : Encoder) : Encoder := { e with dbyte := 0, dbit := 0 }

/-- RST_ENCODE(s, free) (R135, R136): the reset cursor is back at 0 when the one reset symbol has been written. -/
def rstEncode (x : Strip) (free : Nat) : EncodeAnswer :=
  if 1 ≤ free then
    .ok [x.conf.syms.reset] (subStatus 1 free 1)
      { slotWrite x [x.conf.syms.reset] with enc := { x.enc with rcount := 0 } }
  else .ok [] (subStatus 1 free 0) x

/-- RST_RESET(s) (R137). -/
def rstReset (e : Encoder) : Encoder := { e with rcount := 0 }

/-- Sets `S[s].phase`. -/
def setPhase (x : Strip) (p : Phase) : Strip := { x with enc := { x.enc with phase := p } }

/-! ## ENCODE (R139 to R142) -/

/-- Step 2 of ENCODE: the reset phase, after `before` symbols of the same invocation (R140). -/
def encodeReset (x : Strip) (free : Nat) (before : List PulseSymbol) : EncodeAnswer :=
  match rstEncode x free with
  | .outside => .outside
  | .missing a => .missing a
  | .ok out rs x1 => .ok (before ++ out) rs (if rs.complete then setPhase x1 .sendData else x1)

/-- ENCODE(s, free) on the strip (R140): the precondition, the data phase, and the reset phase in the same
invocation when room remains; a data phase that ends at the slot's end stops with `FULL` (D11). -/
def encodeStrip (slotCap : Nat) (x : Strip) (free : Nat) : EncodeAnswer :=
  if x.present && x.busy && !x.encDone && decide (free + x.slot.length ≤ slotCap) then
    match x.enc.phase with
    | .sendReset => encodeReset x free []
    | .sendData =>
      match dataEncode x free with
      | .outside => .outside
      | .missing a => .missing a
      | .ok out ds x1 =>
        let x2 := if ds.complete then setPhase x1 .sendReset else x1
        if ds.full then .ok out dataStopStatus x2 else encodeReset x2 (free - out.length) out
  else .outside

/-- What the channel agent does with the status: `enc_done` is true once it contains `COMPLETE` (R35, R172). -/
def noteStatus (x : Strip) (status : EncStatus) : Strip :=
  if status.complete then { x with encDone := true } else x

/-- One encoder invocation by the channel agent of strip `k`: ENCODE, its response on the channel port, and what the
agent does with the status (R140, R172, log 11).  A call outside a session is refused (R140, R195). -/
def State.invokeEncode (st : State) (k free : Nat) : Answer :=
  match encodeStrip st.cfg.slotCap (st.strip k) free with
  | .outside => st.refuse .encodeOutsideSession
  | .missing a => .fault (.noSuchByte a)
  | .ok out status x =>
    .next { st.setStrip k (noteStatus x status) with chanResp := st.chanResp ++ [.encode status out] }

/-- ENCODE(s, free), as the channel port carries it (R140). -/
def execEncode (s : Byte) (space : Word32) (st : State) : Answer := st.invokeEncode s.toNat space.toNat

/-! ## Reset and teardown (R143, R144) -/

/-- ENC_RESET(s): abort and restart the encoder (R143). -/
def execEncReset (s : Byte) (st : State) : Answer :=
  if !(st.strip s.toNat).present then st.fail .invalidArgument
  else if (st.strip s.toNat).busy then st.raise .encResetBusy s.toNat
  else
    State.finish
      (st.setStrip s.toNat
        { st.strip s.toNat with
          enc := { rstReset (dataReset (st.strip s.toNat).enc) with phase := .sendData } })
      .ok

/-- ENC_DEL(s): the encoder fields become unspecified, a free value (R144, log 14). -/
def encDelete (x : Strip) (draw : Nat) : Strip := { x with enc := Config.freeEncoder draw }

end Sys2Proof.Machine
end

