-- ==== Sys2Proof/Machine/Channel.lean ====
section
/-! DEFINITION. Machine/Channel.lean: the steps of a strip's channel agent (spec/43_strip_lifecycle.md R170 to
R175), which have no opcode. -/

namespace Sys2Proof.Machine

/-- The agent's steps are enabled only while the strip is present and busy (R170). -/
def inFlight (x : Strip) : Bool := x.present && x.busy

/-- CHAN_DRAIN is enabled (R171). -/
def canDrain (x : Strip) : Bool := inFlight x && !x.slot.isEmpty

/-- CHAN_ENCODE is enabled (R172). -/
def canEncode (x : Strip) : Bool := inFlight x && !x.encDone

/-- CHAN_DONE is enabled (R174). -/
def canFinish (x : Strip) : Bool := inFlight x && x.encDone && x.slot.isEmpty

/-- CHAN_FAIL may be enabled: the oracle `CHAN` may report a fault at any point while busy (R175). -/
def canFail (chan : Oracle) (x : Strip) : Bool := inFlight x && decide (chan = .external)

/-- CHAN_DRAIN(s) on the strip: the head of the slot goes onto the wire (R171). -/
def drainStrip (x : Strip) : Strip :=
  match x.slot with
  | [] => x
  | p :: rest => { x with slot := rest, wire := x.wire ++ [p] }

/-- CHAN_DRAIN(s) (R171). -/
def State.chanDrain (st : State) (k : Nat) : Answer := .next (st.setStrip k (drainStrip (st.strip k)))

/-- CHAN_ENCODE(s): ENCODE with the free slot space `SLOT_CAP - |slot|`, which may be 0 (R172). -/
def State.chanEncode (st : State) (k : Nat) : Answer :=
  st.invokeEncode k (st.cfg.slotCap - (st.strip k).slot.length)

/-- CHAN_DONE(s) on the strip: the session is logged as done (R174). -/
def doneStrip (x : Strip) : Strip :=
  { x with txlog := x.txlog ++ [{ symbols := x.wire, outcome := .done }], busy := false, encDone := false }

/-- CHAN_DONE(s) (R174). -/
def State.chanDone (st : State) (k : Nat) : Answer := .next (st.setStrip k (doneStrip (st.strip k)))

/-- A drawn data cursor: a bit position within the buffer, or `(0, 0)` (R175). -/
def drawnPosition (x : Strip) (n : Nat) : Nat := if n < 8 * x.conf.size then n else 0

/-- CHAN_FAIL(s) on the strip, with a drawn phase and position (R175). -/
def failStrip (x : Strip) (phase : Phase) (pos : Nat) : Strip :=
  { x with
    txlog := x.txlog ++ [{ symbols := x.wire, outcome := .failed }]
    busy := false
    chErr := true
    slot := []
    encDone := false
    enc := setBitPosition { x.enc with phase := phase, rcount := 0 } pos }

/-- CHAN_FAIL(s): the session is logged as failed, the fault is kept for the next WAIT or FLUSH, and the encoder's
position is drawn (R175). -/
def State.chanFail (st : State) (k : Nat) : Answer :=
  let ph := st.drawBit
  let d := ph.2.draw
  .next (d.2.setStrip k
    (failStrip (st.strip k) (if ph.1 then .sendReset else .sendData) (drawnPosition (st.strip k) d.1)))

end Sys2Proof.Machine
end

