-- ==== Sys2Proof/Machine/Compile.lean ====
section
/-! DEFINITION. Machine/Compile.lean: the meaning of COMPILE (spec/40_symbol_compiler.md R95 to R98). -/

namespace Sys2Proof.Machine

/-- COMPILE(v): compile the symbols of one variant (R95); a duration out of range faults and writes nothing (R96). -/
def execCompile (v : Byte) (st : State) : Answer :=
  match st.cfg.profile v with
  | none => st.fail .invalidArgument
  | some p =>
    if st.cfg.profileOk p then
      State.finish { st with sym := tableSet st.sym v.toNat (st.cfg.symbolSet p) } .ok
    else st.raise .symRange v.toNat

end Sys2Proof.Machine
end

