-- ==== Sys2Proof/Machine/Lifecycle.lean ====
section
/-! DEFINITION. Machine/Lifecycle.lean: the strip lifecycle commands INIT, BUSY, WAIT, FLUSH and FREE
(spec/43_strip_lifecycle.md R160 to R169). -/

namespace Sys2Proof.Machine

/-- What INIT's acquisitions come to, in the order of R161: the buffer, the channel, the encoder.  `none` when all
succeed; a failure releases what was acquired (R162). -/
def State.acquire (st : State) : Option ErrorKind × State :=
  let okb := st.ask st.cfg.alloc
  if !okb.1 then (some .outOfMemory, okb.2)
  else
    let okc := okb.2.ask st.cfg.chan
    if !okc.1 then (some .channelFailure, okc.2)
    else
      let oke := okc.2.ask st.cfg.alloc
      if !oke.1 then (some .outOfMemory, oke.2) else (none, oke.2)

/-- The strip a successful INIT leaves (R38, R161): every field set but `txlog`, which is kept. -/
def initStrip (x : Strip) (conf : StripConf) (bytes : List Byte) : Strip where
  present := true
  conf := conf
  buf := memFrom 0 bytes
  enc := { phase := .sendData, dbyte := 0, dbit := 0, rcount := 0 }
  busy := false
  chErr := false
  slot := []
  encDone := false
  wire := []
  txlog := x.txlog

/-- INIT(s, v, length, has_white): create a strip (R161). -/
def execInit (s v : Byte) (length : Word32) (white : Bool) (st : State) : Answer :=
  if (st.strip s.toNat).present then st.raise .reinit s.toNat
  else if length.toNat = 0 then st.fail .invalidArgument
  else match st.cfg.profile v with
    | none => st.fail .invalidArgument
    | some _ =>
      match st.symbols v.toNat with
      | none => st.raise .notCompiled v.toNat
      | some syms =>
        match st.acquire with
        | (some e, st1) => st1.fail e
        | (none, st1) =>
          let conf : StripConf := { variant := v, pixels := length.toNat, white := white, syms := syms }
          let d := st1.drawBytes conf.size
          State.finish (d.2.setStrip s.toNat (initStrip (st.strip s.toNat) conf d.1)) .ok

/-- BUSY(s): poll for a transmission in flight; an absent strip answers `false` (R163). -/
def execBusy (s : Byte) (st : State) : Answer :=
  st.finish (.busy ((st.strip s.toNat).present && (st.strip s.toNat).busy))

/-- WAIT(s, timeout): wait for the transmission in flight (R164, R165). -/
def execWait (s : Byte) (timeout : Word32) (st : State) : Answer :=
  if !(st.strip s.toNat).present then st.fail .invalidArgument
  else match st.waitDone s.toNat timeout.toNat with
    | (.ok, st1) => st1.finish .ok
    | (.timeout, st1) => st1.fail .timeout
    | (.channelFailure, st1) => st1.fail .channelFailure
    | (.hold, st1) => .next st1

/-- The start of a session (R167): the encoder is not reset (D24). -/
def startSession (x : Strip) : Strip := { x with busy := true, slot := [], encDone := false, wire := [] }

/-- FLUSH(s): wait for a prior session, then start transmitting the buffer (R164, R167). -/
def execFlush (s : Byte) (st : State) : Answer :=
  if !(st.strip s.toNat).present then st.fail .invalidArgument
  else match st.waitDone s.toNat st.cfg.flushTimeout with
    | (.timeout, st1) => st1.fail .timeout
    | (.channelFailure, st1) => st1.fail .channelFailure
    | (.hold, st1) => .next st1
    | (.ok, st1) =>
      let okt := st1.ask st.cfg.chan
      if !okt.1 then okt.2.fail .channelFailure
      else State.finish (okt.2.setStrip s.toNat (startSession (st1.strip s.toNat))) .ok

/-- The strip FREE leaves (R38, R168): absent, its buffer and encoder released, `wire` and `txlog` kept, and the
fields R38 calls unspecified free values (log 14). -/
def freeStrip (x : Strip) (draw : Nat) : Strip :=
  { encDelete x draw with
    present := false, conf := Config.freeStripConf draw, buf := [], chErr := false, slot := [], encDone := false }

/-- FREE(s): destroy a strip; it is released also when the channel reports a fault on release (R168, D28). -/
def execFree (s : Byte) (st : State) : Answer :=
  if !(st.strip s.toNat).present then st.fail .invalidArgument
  else if (st.strip s.toNat).busy then st.raise .freeBusy s.toNat
  else
    let okd := st.ask st.cfg.chan
    let st1 : State :=
      { okd.2.setStrip s.toNat (freeStrip (st.strip s.toNat) okd.2.draws) with draws := okd.2.draws + 1 }
    if okd.1 then st1.finish .ok else st1.fail .channelFailure

end Sys2Proof.Machine
end

