-- ==== Sys2Proof/Machine/Pixel.lean ====
section
/-! DEFINITION. Machine/Pixel.lean: the pixel-buffer writers SET_PIXEL, SET_PIXELS and FILL
(spec/41_pixel_buffer.md R110 to R120). -/

namespace Sys2Proof.Machine

/-- Writes the pixels `i`, `i + 1`, … of strip `k`, left to right, one color each (R114, R115). -/
def State.writePixels (st : State) (k i : Nat) : List Color → State
  | [] => st
  | c :: cs =>
    State.writePixels
      (st.setStrip k
        { st.strip k with buf := memWrite (st.strip k).buf (st.pixelAddress k i) (st.colorBytes k c) })
      k (i + 1) cs

/-- The common body of SET_PIXELS and FILL: the checks in the order of R197, then the `len` colors
from pixel `start` on. -/
def State.writeRange (st : State) (k start len : Nat) (colors : List Color) : Answer :=
  if !(st.strip k).present then st.fail .invalidArgument
  else match st.rangeError k start len with
    | (some e, st1) => st1.fail e
    | (none, st1) =>
      if (st1.strip k).busy then st1.raise .bufWriteBusy k
      else State.finish (st1.writePixels k start colors) .ok

/-- SET_PIXEL(s, i, c): write one pixel (R114). -/
def execSetPixel (s : Byte) (index : Word32) (c : Color) (st : State) : Answer :=
  if !(st.strip s.toNat).present then st.fail .invalidArgument
  else if (st.strip s.toNat).conf.pixels ≤ index.toNat then st.fail .outOfRange
  else if (st.strip s.toNat).busy then st.raise .bufWriteBusy s.toNat
  else State.finish (st.writePixels s.toNat index.toNat [c]) .ok

/-- SET_PIXELS(s, start, len, colors): write consecutive pixels from a list (R115). -/
def execSetPixels (s : Byte) (start : Word32) (colors : List Color) (st : State) : Answer :=
  st.writeRange s.toNat start.toNat colors.length colors

/-- FILL(s, start, len, c): write one color to consecutive pixels (R116). -/
def execFill (s : Byte) (start len : Word32) (c : Color) (st : State) : Answer :=
  st.writeRange s.toNat start.toNat len.toNat (List.replicate len.toNat c)

end Sys2Proof.Machine
end

