-- ==== Sys2Proof/Machine/Dispatch.lean ====
section
/-! DEFINITION. Machine/Dispatch.lean: the meaning of each command, one arm per constructor of Instr. -/

namespace Sys2Proof.Machine

def exec (i : Instr) (s : State) : Host.Outcome State Fault Refusal :=
  match i with
  | .compile v => Sys2Proof.Machine.execCompile v s
  | .init k v length white => Sys2Proof.Machine.execInit k v length white s
  | .setPixel k index color => Sys2Proof.Machine.execSetPixel k index color s
  | .setPixels k start colors => Sys2Proof.Machine.execSetPixels k start colors s
  | .fill k start len color => Sys2Proof.Machine.execFill k start len color s
  | .flush k => Sys2Proof.Machine.execFlush k s
  | .busy k => Sys2Proof.Machine.execBusy k s
  | .wait k timeout => Sys2Proof.Machine.execWait k timeout s
  | .free k => Sys2Proof.Machine.execFree k s
  | .encReset k => Sys2Proof.Machine.execEncReset k s
  | .encode k space => Sys2Proof.Machine.execEncode k space s

end Sys2Proof.Machine
end

