-- ==== Sys2Proof/Machine/Agents.lean ====
section
/-! DEFINITION. Machine/Agents.lean: fetching the next command, the steps of the host agent, of the channel agents
and of the channel port, and which of them comes next (spec/00_scope.md R5, spec/10_state.md R22,
spec/43_strip_lifecycle.md R164, R170, R176, spec/60_exceptions.md R198). -/

namespace Sys2Proof.Machine

/-! ## Fetching (R22, R73) -/

/-- The host program without its first `n` commands; nothing where it has no `n` commands. -/
def dropCommands (maxStrips : Nat) : Nat → List Byte → List Byte
  | 0, bs => bs
  | n + 1, bs =>
    match decodeCommand maxStrips bs with
    | .ok (_, rest) => dropCommands maxStrips n rest
    | .error _ => []

/-- The bytes of the host program from `prog[pc]` on (R22). -/
def State.hostBytes (st : State) : List Byte := dropCommands st.cfg.maxStrips st.pc st.prog

/-- The reason a refused input is recorded under (R80, R195). -/
def refusalOf : DecodeError → RefusalReason
  | .illegal => .illegal
  | .encodeFromHost => .encodeFromHost

/-! ## The steps -/

/-- The host agent issues the command at `pc` (R5, R22). -/
def State.hostStep (st : State) : Answer :=
  match decode .host st.cfg.maxStrips st.hostBytes with
  | .ok (i, _) => exec i st
  | .error e => st.refuse (refusalOf e)

/-- The bound of the holding WAIT or FLUSH elapses: the command ends in `Timeout` (R164, R169). -/
def State.expireStep (st : State) : Answer := st.fail .timeout

/-- A command is taken from the channel port (R79, R80, log 11). -/
def State.portStep (st : State) : Answer :=
  match decode .channel st.cfg.maxStrips st.chanPort with
  | .ok (i, rest) => exec i { st with chanPort := rest }
  | .error e => st.refuse (refusalOf e)

/-- Runs one step of one agent. -/
def State.runMove (st : State) : Move → Answer
  | .host => st.hostStep
  | .expire => st.expireStep
  | .port => st.portStep
  | .drain k => st.chanDrain k
  | .encode k => st.chanEncode k
  | .done k => st.chanDone k
  | .fail k => st.chanFail k

/-! ## Which step is next (R5, R63, R198) -/

/-- The host command in progress waits for a session that is still in flight (R22 `hold`, R164). -/
def State.isHeld (st : State) : Bool :=
  match st.holding with
  | none => false
  | some k => (st.strip k).busy

/-- The enabled steps of the host agent: the next command, unless there is none or the host holds; while it holds,
the bound may elapse. -/
def State.hostMoves (st : State) : List Move :=
  if st.isHeld then [.expire] else if st.hostBytes.isEmpty then [] else [.host]

/-- The enabled steps of the channel agent of strip `k` (R170 to R175). -/
def State.stripMoves (st : State) (k : Nat) : List Move :=
  (if canDrain (st.strip k) then [.drain k] else []) ++ (if canEncode (st.strip k) then [.encode k] else [])
    ++ (if canFinish (st.strip k) then [.done k] else [])
    ++ (if canFail st.cfg.chan (st.strip k) then [.fail k] else [])

/-- Every enabled step. -/
def State.moves (st : State) : List Move :=
  st.hostMoves ++ (if st.chanPort.isEmpty then [] else [.port]) ++ st.strips.flatMap fun e => st.stripMoves e.1

/-! ## Fairness (R176, log 5)

A fair step that is enabled waits, with a drawn number of choices that may pass it over; when they are used up it is
due, and the step that has been waiting longest of those that are due is taken. -/

/-- CHAN_DRAIN, CHAN_ENCODE and CHAN_DONE are weakly fair; CHAN_FAIL and the other agents' steps are not (R176). -/
def Move.isFair : Move → Bool
  | .host => false
  | .expire => false
  | .port => false
  | .drain _ => true
  | .encode _ => true
  | .done _ => true
  | .fail _ => false

/-- A fair step that is taken waits no more. -/
def State.take (st : State) (m : Move) : State :=
  if m.isFair then { st with waiting := st.waiting.filter fun e => decide (e.1 ≠ m) } else st

/-- The fair steps among `ms` that do not wait yet begin to wait, each with a drawn number. -/
def State.enlist (st : State) : List Move → State
  | [] => st
  | m :: ms =>
    if m.isFair && decide (m ∉ st.waiting.map Prod.fst) then
      State.enlist { st.draw.2 with waiting := st.waiting ++ [(m, st.draw.1)] } ms
    else st.enlist ms

/-- Of the steps that may not be passed over again, the one that has been waiting longest. -/
def State.dueMove (st : State) : Option Move := (st.waiting.find? fun e => decide (e.2 = 0)).map Prod.fst

/-- The choice passes over every step that still waits. -/
def State.passOver (st : State) : State := { st with waiting := st.waiting.map fun e => (e.1, e.2 - 1) }

/-- The steps that wait before a choice among the enabled steps `ms`: those of the waiting steps that are still
enabled, and behind them the fair steps that have become enabled. -/
def State.updateWaiting (st : State) (ms : List Move) : State :=
  State.enlist { st with waiting := st.waiting.filter fun e => e.1.isFair && decide (e.1 ∈ ms) } ms

/-- One of the enabled steps: the only one there is, else the one that is due, else a drawn one (R176, R198, log 5). -/
def State.chooseMove (st : State) : List Move → Option (Move × State)
  | [] => none
  | [m] => some (m, { st with waiting := [] })
  | m :: ms =>
    let st1 := st.updateWaiting (m :: ms)
    match st1.dueMove with
    | some d => some (d, (st1.take d).passOver)
    | none =>
      let c := (m :: ms).getD (st1.draw.1 % (m :: ms).length) m
      some (c, (st1.draw.2.take c).passOver)

/-- The next step: the head of the agenda where it is enabled, else one of the enabled steps (log 5). -/
def State.nextMove (st : State) : Option (Move × State) :=
  match st.agenda with
  | [] => st.chooseMove st.moves
  | m :: rest =>
    if m ∈ st.moves then some (m, State.take { st with agenda := rest } m)
    else State.chooseMove { st with agenda := rest } st.moves

/-- One step of the machine: none once a fault or a refusal is recorded (R193, R195), none when no agent has a step
(R180), else one step of one agent. -/
def State.stepOnce (st : State) : Answer :=
  match st.fault, st.refused with
  | some f, _ => .fault (.stopped f)
  | none, some r => .refused (.stopped r)
  | none, none =>
    match st.nextMove with
    | none => .fault .finished
    | some (m, st1) => st1.runMove m

/-! ## Placing a command where the next step fetches it -/

/-- The first `n` commands of a host program, filled up with `busy 0` where it has fewer. -/
def commandPrefix (maxStrips : Nat) : Nat → List Byte → List Byte
  | 0, _ => []
  | n + 1, bs =>
    match decodeCommand maxStrips bs with
    | .ok (i, rest) => encode i ++ commandPrefix maxStrips n rest
    | .error _ => [0x07, 0x00] ++ commandPrefix maxStrips n []

/-- The machine with `bytes` as its next input (log 6): an ENCODE on the channel port, every other command as
`prog[pc]`, and the step that takes it next. -/
def State.placeBytes (st : State) (bytes : List Byte) : State :=
  match decode .channel st.cfg.maxStrips bytes with
  | .ok _ => { st with chanPort := bytes, agenda := .port :: st.agenda }
  | .error _ =>
    { st with
      prog := commandPrefix st.cfg.maxStrips st.pc st.prog ++ bytes
      holding := none
      agenda := .host :: st.agenda }

end Sys2Proof.Machine
end

