-- ==== Sys2Proof/Safety.lean ====
section
/-! DEFINITION. Safety.lean: the terms the statements use: finished runs, the invariant of reachable states, the
pulse stream of a session, and what a command leaves unchanged. -/

namespace Sys2Proof

/-- The strip a command names, if it names one (R74). -/
def Instr.stripId : Instr → Option Nat
  | .compile _ => none
  | .init s _ _ _ => some s.toNat
  | .setPixel s _ _ => some s.toNat
  | .setPixels s _ _ => some s.toNat
  | .fill s _ _ _ => some s.toNat
  | .flush s => some s.toNat
  | .busy s => some s.toNat
  | .wait s _ => some s.toNat
  | .free s => some s.toNat
  | .encReset s => some s.toNat
  | .encode s _ => some s.toNat

/-- The encoder is in its initial state: `SendData`, cursor `(0,0)`, `rcount = 0` (R178). -/
def Encoder.isInitial (e : Encoder) : Prop := e = { phase := .sendData, dbyte := 0, dbit := 0, rcount := 0 }

end Sys2Proof

namespace Sys2Proof.Machine

/-! ## Runs (R180, R193, R195) -/

/-- A fault or a refusal is recorded: no agent steps any more (R193, R195). -/
def State.isStopped (st : State) : Bool := st.fault.isSome || st.refused.isSome

/-- The run is finished (R180): the host program is used up, no fault and no refusal, no present strip busy, no host
command holding; and nothing waits on the channel port (log 11). -/
def State.isFinished (st : State) : Prop :=
  st.isStopped = false ∧ st.hostBytes = [] ∧ st.isHeld = false ∧ st.chanPort = []
    ∧ ∀ k, ((st.strip k).present && (st.strip k).busy) = false

/-- Runs commands one after another, as long as each answers a next state. -/
def execAll : List Instr → State → Answer
  | [], st => .next st
  | i :: is, st =>
    match exec i st with
    | .next t => execAll is t
    | .fault f => .fault f
    | .refused r => .refused r

/-- The state after `n` steps; a machine in which no agent steps any more stays as it is (R180, R193, R195). -/
def State.after (st : State) : Nat → State
  | 0 => st
  | n + 1 =>
    match step (st.after n) with
    | .next t => t
    | .fault _ => st.after n
    | .refused _ => st.after n

/-- The run from `st` is weakly fair to the step `m` (R176): from `st` on, `m` does not stay enabled for ever without
being taken; at some point it is the step taken next, or it is not enabled, or the run is over. -/
def State.WeaklyFair (st : State) (m : Move) : Prop :=
  ∃ n, (∃ u, (st.after n).nextMove = some (m, u)) ∨ m ∉ (st.after n).moves ∨ ∀ t, step (st.after n) ≠ .next t

/-! ## What a command leaves unchanged -/

/-- Everything but the strips, the symbol table, the pc, the responses and the environment's draws is as before. -/
def SameSurroundings (st t : State) : Prop :=
  t.cfg = st.cfg ∧ t.fault = st.fault ∧ t.refused = st.refused ∧ t.prog = st.prog ∧ t.chanPort = st.chanPort
    ∧ t.agenda = st.agenda ∧ t.waiting = st.waiting

/-- No draw of the environment was made. -/
def NoDraw (st t : State) : Prop := t.script = st.script ∧ t.draws = st.draws

/-- The host command ended with the response `r`: `pc + 1`, no hold left, and the surroundings as before (R22). -/
def HostEnds (st t : State) (r : Response) : Prop :=
  SameSurroundings st t ∧ t.pc = st.pc + 1 ∧ t.holding = none ∧ t.hostResp = st.hostResp ++ [r]
    ∧ t.chanResp = st.chanResp

/-- Every strip is as before: its buffer, slot, cursor, phase, flags and observation. -/
def SameStrips (st t : State) : Prop := ∀ j, t.strip j = st.strip j

/-- Every strip but `k` is as before. -/
def SameOtherStrips (st t : State) (k : Nat) : Prop := ∀ j, j ≠ k → t.strip j = st.strip j

/-- The command ended in an error and changed nothing else but, perhaps, how many draws were made (R192). -/
def OnlyFails (st t : State) (e : ErrorKind) : Prop :=
  HostEnds st t (.err e) ∧ t.sym = st.sym ∧ t.strips = st.strips

/-- The fault record fits the command that raised it: its code and its information (R193). -/
def FaultFits (i : Instr) (f : FaultRecord) : Prop :=
  match f.code, i with
  | .symRange, .compile v => f.info = v.toNat
  | .notCompiled, .init _ v _ _ => f.info = v.toNat
  | .reinit, .init s _ _ _ => f.info = s.toNat
  | .bufWriteBusy, .setPixel s _ _ => f.info = s.toNat
  | .bufWriteBusy, .setPixels s _ _ => f.info = s.toNat
  | .bufWriteBusy, .fill s _ _ _ => f.info = s.toNat
  | .encResetBusy, .encReset s => f.info = s.toNat
  | .freeBusy, .free s => f.info = s.toNat
  | _, _ => False

/-- Which command can return which error kind (R191). -/
def mayReturn : Instr → ErrorKind → Bool
  | .compile _, e => decide (e = .invalidArgument)
  | .init _ _ _ _, e => decide (e = .invalidArgument ∨ e = .outOfMemory ∨ e = .channelFailure)
  | .setPixel _ _ _, e => decide (e = .invalidArgument ∨ e = .outOfRange)
  | .setPixels _ _ _, e => decide (e = .invalidArgument ∨ e = .outOfRange)
  | .fill _ _ _ _, e => decide (e = .invalidArgument ∨ e = .outOfRange)
  | .flush _, e => decide (e = .invalidArgument ∨ e = .timeout ∨ e = .channelFailure)
  | .busy _, _ => false
  | .wait _ _, e => decide (e = .invalidArgument ∨ e = .timeout ∨ e = .channelFailure)
  | .free _, e => decide (e = .invalidArgument ∨ e = .channelFailure)
  | .encReset _, e => decide (e = .invalidArgument)
  | .encode _ _, _ => false

/-! ## Pulse streams (R145) -/

/-- The bytes of a pixel buffer, in ascending address order. -/
def Memory.bytes (m : Memory) : List Byte := m.map Prod.snd

/-- The symbols of one byte, most significant bit first (R56, R132). -/
def byteSymbols (syms : SymbolSet) (b : Byte) : List PulseSymbol :=
  (List.range 8).map fun i => if b.getMsbD i then syms.bit1 else syms.bit0

/-- `STREAM(buf, syms)` (R145): every bit of every byte, then the reset symbol. -/
def stream (syms : SymbolSet) (bytes : List Byte) : List PulseSymbol :=
  bytes.flatMap (byteSymbols syms) ++ [syms.reset]

/-- The stream a strip's session transmits: that of its buffer with its own symbols. -/
def Strip.stream (x : Strip) : List PulseSymbol := Sys2Proof.Machine.stream x.conf.syms x.buf.bytes

/-- The symbols the encoder has still to emit in the current session (R139, R148). -/
def Strip.pending (x : Strip) : List PulseSymbol :=
  if x.encDone then []
  else match x.enc.phase with
    | .sendData => x.stream.drop (bitPosition x.enc)
    | .sendReset => [x.conf.syms.reset]

/-- A session that started in the initial state is under way and nothing is lost or repeated: what is on the wire,
in the slot and still to come is the stream of the buffer (R146, R178). -/
def Strip.Tracks (x : Strip) : Prop :=
  x.present = true ∧ x.busy = true ∧ x.wire ++ x.slot ++ x.pending = x.stream
    ∧ (x.encDone = true → x.enc.isInitial)
    ∧ (x.enc.phase = .sendReset → x.enc = { phase := .sendReset, dbyte := 0, dbit := 0, rcount := 0 })
    ∧ x.enc.rcount = 0

/-- The outcome of repeated encoder invocations: the symbols emitted, the status of each invocation, the strip after
them, and whether the last one reported `COMPLETE`. -/
structure EncodeRun where
  out : List PulseSymbol
  statuses : List EncStatus
  after : Strip
  completed : Bool
deriving DecidableEq, Repr

/-- Repeated encoder invocations with the given free spaces, the slot drained before each, up to and including the
first whose status contains `COMPLETE` (R146). -/
def encodeRun (slotCap : Nat) (x : Strip) : List Nat → EncodeRun
  | [] => { out := [], statuses := [], after := x, completed := false }
  | f :: fs =>
    match encodeStrip slotCap { x with slot := [] } f with
    | .ok out status x1 =>
      if status.complete then { out := out, statuses := [status], after := x1, completed := true }
      else
        let r := encodeRun slotCap x1 fs
        { r with out := out ++ r.out, statuses := status :: r.statuses }
    | .outside => { out := [], statuses := [], after := x, completed := false }
    | .missing _ => { out := [], statuses := [], after := x, completed := false }

/-- The encoder registers after an ENCODE that was offered `free` places, in a session over `dataBits` data bits: in
the data phase the position moves by the data bits written, and is 0 with the phase `SendReset` when the last of them
was (R131, R133, R139); once the reset symbol is written the phase is `SendData` and the reset cursor 0 (R136, R139,
R140), and the data cursor is 0 where the same invocation ended the data phase (R141), else as it was. -/
def encoderAfter (dataBits : Nat) (e : Encoder) (free : Nat) : Encoder :=
  match e.phase with
  | .sendReset => if free = 0 then e else { e with phase := .sendData, rcount := 0 }
  | .sendData =>
    if bitPosition e + free < dataBits then setBitPosition e (bitPosition e + free)
    else if bitPosition e + free = dataBits then { setBitPosition e 0 with phase := .sendReset }
    else { setBitPosition e 0 with rcount := 0 }

/-! ## INIT's calls of the oracles (R161) -/

/-- The calls INIT makes to an oracle that may refuse, in their order, each by the error kind it returns when that
call is refused: the buffer, the channel, the encoder. -/
def initCalls (c : Config) : List ErrorKind :=
  (if c.alloc = .external then [.outOfMemory] else []) ++ (if c.chan = .external then [.channelFailure] else [])
    ++ (if c.alloc = .external then [.outOfMemory] else [])

/-! ## The invariant of reachable states (R39) -/

/-- Both durations of a symbol are in `1..DUR_MAX` (R70, R72). -/
def symbolOk (c : Config) (p : PulseSymbol) : Prop :=
  (1 ≤ p.duration0 ∧ p.duration0 ≤ c.durMax) ∧ (1 ≤ p.duration1 ∧ p.duration1 ≤ c.durMax)

/-- The symbols a strip has emitted and kept: in the slot, on the wire and in the log of sessions. -/
def Strip.emitted (x : Strip) : List PulseSymbol := x.slot ++ x.wire ++ x.txlog.flatMap Session.symbols

/-- What holds of a present strip: R39 (i) to (vi), R31, R32 and R161. -/
structure Strip.PresentOk (c : Config) (sym : Nat → Option SymbolSet) (x : Strip) : Prop where
  pixels : 1 ≤ x.conf.pixels
  /-- (i): the buffer's addresses are exactly `0..N-1` (R29, R51). -/
  addresses : x.buf.map Prod.fst = List.range x.conf.size
  /-- (ii), in the sharper form of R31. -/
  cursor : bitPosition x.enc < 8 * x.conf.size ∨ bitPosition x.enc = 0
  rcount : x.enc.rcount = 0
  /-- (iii). -/
  slotFits : x.slot.length ≤ c.slotCap
  /-- (iv), and the same of `enc_done` (R35). -/
  idle : x.busy = false → x.slot = [] ∧ x.encDone = false
  /-- (v). -/
  error : x.chErr = true → x.busy = false
  /-- (vi). -/
  compiled : sym x.conf.variant.toNat = some x.conf.syms

/-- What holds of an absent strip (R38). -/
structure Strip.AbsentOk (x : Strip) : Prop where
  buf : x.buf = []
  busy : x.busy = false
  chErr : x.chErr = false
  slot : x.slot = []
  encDone : x.encDone = false

/-- The invariant of the states a run without a fault goes through (R39), with the write-once symbol table (R25), the
emitted symbols (R72), the rising keys of the tables, and a hold only while a command is there to hold. -/
structure State.Inv (st : State) : Prop where
  config : st.cfg.wf = true
  /-- An entry of `st.sym` is what COMPILE makes of the variant's profile (R25, R95, R97). -/
  table : ∀ v set, st.symbols v = some set →
    ∃ p, tableGet st.cfg.variants v = some p ∧ st.cfg.profileOk p = true ∧ set = st.cfg.symbolSet p
  tableRising : (st.sym.map Prod.fst).Pairwise (· < ·)
  stripsRising : (st.strips.map Prod.fst).Pairwise (· < ·)
  present : ∀ k, (st.strip k).present = true → (st.strip k).PresentOk st.cfg st.symbols
  absent : ∀ k, (st.strip k).present = false → (st.strip k).AbsentOk
  emitted : ∀ k p, p ∈ (st.strip k).emitted → symbolOk st.cfg p
  held : st.holding.isSome = true → st.hostBytes ≠ []

end Sys2Proof.Machine
end

