-- ==== Sys2Proof/Certificates/Slice0/Obligations.lean ====
section
/-! DEFINITION. Obligations.lean: the statements for the provers.  Each names the rules of spec/ it formalises; where
a clause rests on a choice of the model, the docstring names the log entry. -/

open Sys2Proof Sys2Proof.Machine

/-! ## Encoding (spec/30_encoding.md) -/

/-- Words written out in the programs of spec/95_test_vectors.md section 3, read by the formats of R75 and the opcode
map of R79. -/
def Obligations.SpecWordsDecode : Prop :=
  decode .host 2 [0x01, 0x00] = .ok (.compile 0, []) ∧
  decode .host 2 [0x02, 0x01, 0x00, 0x02, 0x00, 0x00, 0x00, 0x01] = .ok (.init 1 0 2 true, []) ∧
  decode .host 2 [0x03, 0x01, 0x02, 0x00, 0x00, 0x00, 0x01, 0x01, 0x01] = .ok (.setPixel 1 2 ⟨1, 1, 1⟩, []) ∧
  decode .host 2 [0x04, 0x01, 0x01, 0x00, 0x00, 0x00, 0x01, 0x00, 0x00, 0x00, 0xC8, 0x64, 0x32]
    = .ok (.setPixels 1 1 [⟨200, 100, 50⟩], []) ∧
  decode .host 2 [0x05, 0x01, 0x00, 0x00, 0x00, 0x00, 0x02, 0x00, 0x00, 0x00, 0x0A, 0x14, 0x1E]
    = .ok (.fill 1 0 2 ⟨10, 20, 30⟩, []) ∧
  decode .host 2 [0x06, 0x01] = .ok (.flush 1, []) ∧
  decode .host 2 [0x07, 0x00] = .ok (.busy 0, []) ∧
  decode .host 2 [0x08, 0x00, 0x64, 0x00, 0x00, 0x00] = .ok (.wait 0 100, []) ∧
  decode .host 2 [0x09, 0x01] = .ok (.free 1, []) ∧
  decode .host 2 [0x0A, 0x01] = .ok (.encReset 1, []) ∧
  decode .channel 2 [0x0B, 0x00, 0x40, 0x00, 0x00, 0x00] = .ok (.encode 0 64, [])

/-- R73, R75, R77, R79: on its own port, the byte string of a well-formed command, whatever bytes follow it, decodes
to that command and leaves those bytes. -/
def Obligations.DecodingAnEncodedCommandGivesItBack : Prop :=
  ∀ (m : Nat) (i : Instr) (rest : List Byte), i.wf m = true → decode i.port m (encode i ++ rest) = .ok (i, rest)

/-- R73, R77: every byte string that decodes begins with the encoding of the command it decodes to, and that command
is well formed: each word has one meaning. -/
def Obligations.DecodedBytesAreTheEncoding : Prop :=
  ∀ (p : Port) (m : Nat) (bs : List Byte) (i : Instr) (rest : List Byte),
    decode p m bs = .ok (i, rest) → bs = encode i ++ rest ∧ i.wf m = true ∧ i.port = p

/-- R77, R80: a command that the end of the stream cuts short is refused as ILLEGAL, on either port (log 12: also a
truncated ENCODE on the host port). -/
def Obligations.TruncatedCommandsAreIllegal : Prop :=
  ∀ (p : Port) (m : Nat) (i : Instr) (n : Nat), i.wf m = true → n < (encode i).length →
    decode p m ((encode i).take n) = .error .illegal

/-- R80: an opcode outside the map, a strip id from `MAX_STRIPS` up, a `has_white` byte other than 0 or 1 are ILLEGAL;
a whole ENCODE of a strip id in range on the host port is ENCODE_FROM_HOST.  That a host ENCODE of a strip id out of
range, to which R80 gives both reasons, is ILLEGAL is the model's choice (log 12). -/
def Obligations.IllegalEncodingsAreRefused : Prop :=
  (∀ (p : Port) (m : Nat) (op : Byte) (bs : List Byte), op.toNat = 0 ∨ 12 ≤ op.toNat →
    decode p m (op :: bs) = .error .illegal) ∧
  (∀ (p : Port) (m : Nat) (i : Instr) (s : Nat) (rest : List Byte), i.stripId = some s → m ≤ s →
    decode p m (encode i ++ rest) = .error .illegal) ∧
  (∀ (p : Port) (m : Nat) (s v : Byte) (length : Word32) (w : Byte) (rest : List Byte), w ≠ 0 → w ≠ 1 →
    decode p m ([0x02, s, v] ++ writeU32 length ++ [w] ++ rest) = .error .illegal) ∧
  (∀ (m : Nat) (s : Byte) (space : Word32) (rest : List Byte), s.toNat < m →
    decode .host m (encode (.encode s space) ++ rest) = .error .encodeFromHost)

/-- R71: the symbol word is `{level1, duration1, level0, duration0}`, for every duration width, when the durations
fit their fields. -/
def Obligations.SymbolWordFields : Prop :=
  ∀ (w : Nat) (p : PulseSymbol), p.duration0 < 2 ^ w → p.duration1 < 2 ^ w →
    p.word w % 2 ^ w = p.duration0 ∧ p.word w / 2 ^ w % 2 = levelBit p.level0 ∧
    p.word w / 2 ^ (w + 1) % 2 ^ w = p.duration1 ∧ p.word w / 2 ^ (2 * w + 1) = levelBit p.level1

/-! ## Reset, steps and agents (spec/10_state.md, spec/60_exceptions.md, spec/70_reset_and_hazards.md) -/

/-- R220: the state at power-on. -/
def Obligations.PowerOnState : Prop :=
  (∀ v, State.reset.symbols v = none) ∧ State.reset.fault = none ∧ State.reset.refused = none ∧ State.reset.pc = 0 ∧
  ∀ k, (State.reset.strip k).present = false ∧ (State.reset.strip k).busy = false ∧
    (State.reset.strip k).chErr = false ∧ (State.reset.strip k).slot = [] ∧ (State.reset.strip k).encDone = false ∧
    (State.reset.strip k).wire = [] ∧ (State.reset.strip k).txlog = [] ∧ (State.reset.strip k).buf = []

/-- The power-on state meets the invariant (R39; the reference configuration is the model's choice, log 1). -/
def Obligations.PowerOnMeetsTheInvariant : Prop := State.reset.Inv

/-- R39 (i) to (vi), R25, R31, R32, R38, R72 and the rising keys of the tables hold after every step from every state
in which they hold, not only in runs from power-on. -/
def Obligations.EveryStepKeepsTheInvariant : Prop := ∀ st t : State, st.Inv → step st = .next t → t.Inv

/-- R180, R176, R148, I20: from a state that meets the invariant and in which no fault or refusal is recorded, the
machine has a step exactly when the run is not finished; no such state is stuck, and none reads an address that does
not exist; and from every state that meets the invariant every session in flight ends, unless the run ends in a fault
or a refusal before.  That a finished run answers the host's fault `finished` is the model's choice (log 8); how the
schedule is kept fair is the model's (log 5). -/
def Obligations.NoReachableStateIsStuck : Prop :=
  (∀ st : State, st.Inv → st.isStopped = false →
    (st.isFinished → step st = .fault .finished) ∧ (¬ st.isFinished → ∃ t, step st = .next t)) ∧
  (∀ (st : State) (k : Nat), st.Inv → (st.strip k).busy = true →
    ∃ n, ((st.after n).strip k).busy = false ∨ (st.after n).isStopped = true)

/-- R5, R22, R73: when the host agent is next, a step runs the command at `pc`; when the channel port is next, it runs
the command offered there, which is taken off the port (log 11); a lone host agent needs no draw, and then no channel step waits (log 5). -/
def Obligations.StepRunsTheDecodedCommand : Prop :=
  (∀ (st st1 : State) (i : Instr) (rest : List Byte), st.isStopped = false → st.nextMove = some (.host, st1) →
    decode .host st.cfg.maxStrips st.hostBytes = .ok (i, rest) → step st = exec i st1) ∧
  (∀ (st st1 : State) (i : Instr) (rest : List Byte), st.isStopped = false → st.nextMove = some (.port, st1) →
    decode .channel st.cfg.maxStrips st.chanPort = .ok (i, rest) → step st = exec i { st1 with chanPort := rest }) ∧
  (∀ (st : State) (i : Instr) (rest : List Byte), st.isStopped = false → st.agenda = [] → st.moves = [.host] →
    decode .host st.cfg.maxStrips st.hostBytes = .ok (i, rest) → step st = exec i { st with waiting := [] })

/-- The bits that `withFetchWord` places are what the very next step runs: a host command as `prog[pc]`, an ENCODE on
the channel port (the placing is the model's, log 6, log 11). -/
def Obligations.PlacedCommandRunsNext : Prop :=
  ∀ (st : State) (nbits w : Nat) (i : Instr) (rest : List Byte), st.isStopped = false → 1 ≤ st.cfg.maxStrips →
    decodeCommand st.cfg.maxStrips (tableBytes nbits w) = .ok (i, rest) →
    (i.port = .host →
      step (st.withFetchWord nbits w) = exec i { st.withFetchWord nbits w with agenda := st.agenda }) ∧
    (i.port = .channel →
      step (st.withFetchWord nbits w) = exec i { st.withFetchWord nbits w with agenda := st.agenda, chanPort := rest })

/-- R193, R195: once a fault or a refusal is recorded no agent steps (that the step then answers `stopped` is the
model's choice, log 7); and an input that the decoder of its port refuses is recorded with its reason and the pc, and
changes nothing else.  That the channel port records the host's pc as well is log 7, that a host command there is
ILLEGAL is log 12, and that the refused input stays on that port is log 11. -/
def Obligations.StoppedMachineTakesNoStep : Prop :=
  (∀ (st : State) (f : FaultRecord), st.fault = some f → step st = .fault (.stopped f)) ∧
  (∀ (st : State) (r : RefusalRecord), st.fault = none → st.refused = some r → step st = .refused (.stopped r)) ∧
  (∀ (st st1 : State) (e : DecodeError), st.isStopped = false → st.nextMove = some (.host, st1) →
    decode .host st.cfg.maxStrips st.hostBytes = .error e →
    step st = .next { st1 with refused := some { reason := refusalOf e, pc := st.pc } }) ∧
  (∀ (st st1 : State) (e : DecodeError), st.isStopped = false → st.nextMove = some (.port, st1) →
    decode .channel st.cfg.maxStrips st.chanPort = .error e →
    step st = .next { st1 with refused := some { reason := .illegal, pc := st.pc } })

/-- R5, R176, R198: whichever agent's step is enabled, some schedule takes it next; the step taken next is always an
enabled one; every run is weakly fair to CHAN_DRAIN, CHAN_ENCODE and CHAN_DONE; and CHAN_FAIL is never forced, since
another step of the same agent is enabled beside it (the schedule's form is the model's, log 5). -/
def Obligations.AnyEnabledAgentMayStepNext : Prop :=
  (∀ (st : State) (m : Move), st.isStopped = false → m ∈ st.moves →
    step { st with agenda := m :: st.agenda } = (st.take m).runMove m) ∧
  (∀ (st st1 : State) (m : Move), st.nextMove = some (m, st1) → m ∈ st.moves) ∧
  (∀ (st : State) (k : Nat),
    st.WeaklyFair (.drain k) ∧ st.WeaklyFair (.encode k) ∧ st.WeaklyFair (.done k)) ∧
  (∀ (st : State) (k : Nat), .fail k ∈ st.moves →
    .drain k ∈ st.moves ∨ .encode k ∈ st.moves ∨ .done k ∈ st.moves)

/-- R22: a host command that ends moves the pc by one and returns one response; a command that holds or faults leaves
the pc where it is and returns none. -/
def Obligations.HostCommandEndsHoldsOrFaults : Prop :=
  ∀ (i : Instr) (st t : State), i.port = .host → exec i st = .next t →
    (∃ r, HostEnds st t r) ∨
    (t.pc = st.pc ∧ t.hostResp = st.hostResp ∧
      ((∃ k, i.stripId = some k ∧ t.holding = some k ∧ t.fault = st.fault) ∨
       (∃ f, t = { st with fault := some f } ∧ f.pc = st.pc)))

/-- R169: only WAIT and FLUSH hold, and a held command can always end by the Timeout outcome: the step is enabled,
and it ends the command in `Err(Timeout)` (the form of the hold and of this step is the model's, log 9). -/
def Obligations.OnlyWaitAndFlushHold : Prop :=
  (∀ (i : Instr) (st t : State), exec i st = .next t → st.holding = none → t.holding ≠ none →
    (∃ s timeout, i = .wait s timeout) ∨ ∃ s, i = .flush s) ∧
  (∀ st : State, st.isStopped = false → st.isHeld = true →
    .expire ∈ st.moves ∧
      ∃ t, step { st with agenda := .expire :: st.agenda } = .next t ∧ OnlyFails st t .timeout ∧ NoDraw st t)

/-- R193, R195, R199: a fault or a refusal leaves the state it had before the command plus the sticky mark, which
holds the code that fits the command, its information and the pc. -/
def Obligations.FaultsAndRefusalsArePrecise : Prop :=
  (∀ (i : Instr) (st t : State) (f : FaultRecord), exec i st = .next t → st.fault = none → t.fault = some f →
    t = { st with fault := some f } ∧ f.pc = st.pc ∧ FaultFits i f) ∧
  (∀ (i : Instr) (st t : State) (r : RefusalRecord), exec i st = .next t → st.refused = none → t.refused = some r →
    t = { st with refused := some r } ∧ r = { reason := .encodeOutsideSession, pc := st.pc } ∧
      ∃ s space, i = .encode s space)

/-- R192, R119: a command that returns `Err` makes no change to the state but for the pc (with its response and the
model's count of draws), except that WAIT and FLUSH clear `ch_err` when they report `ChannelFailure` and FREE
releases the strip even then. -/
def Obligations.ErrorReturnsArePrecise : Prop :=
  ∀ (i : Instr) (st t : State) (e : ErrorKind), i.port = .host → exec i st = .next t →
    t.hostResp = st.hostResp ++ [.err e] →
    OnlyFails st t e ∨
    (e = .channelFailure ∧ HostEnds st t (.err e) ∧ t.sym = st.sym ∧
      ∃ s : Byte, SameOtherStrips st t s.toNat ∧
        ((((∃ timeout, i = .wait s timeout) ∨ i = .flush s) ∧ (st.strip s.toNat).chErr = true ∧
            t.strip s.toNat = { st.strip s.toNat with chErr := false }) ∨
         (i = .free s ∧ (t.strip s.toNat).present = false ∧ (t.strip s.toNat).buf = [] ∧
            (t.strip s.toNat).chErr = false ∧ (t.strip s.toNat).slot = [] ∧ (t.strip s.toNat).encDone = false ∧
            (t.strip s.toNat).busy = (st.strip s.toNat).busy ∧ (t.strip s.toNat).wire = (st.strip s.toNat).wire ∧
            (t.strip s.toNat).txlog = (st.strip s.toNat).txlog)))

/-- R191: which command can return which error kind. -/
def Obligations.ErrorKindsByCommand : Prop :=
  ∀ (i : Instr) (st t : State) (e : ErrorKind), i.port = .host → exec i st = .next t →
    t.hostResp = st.hostResp ++ [.err e] → mayReturn i e = true

/-! ## Isolation (spec/20_memory.md R62, spec/60_exceptions.md R206) -/

/-- R62, R206: a command writes no strip but the one it names, and the step of a strip's channel agent writes no
other strip. -/
def Obligations.OtherStripsAreNeverWritten : Prop :=
  (∀ (i : Instr) (st t : State), exec i st = .next t → ∀ j, i.stripId ≠ some j → t.strip j = st.strip j) ∧
  (∀ (st t : State) (k : Nat) (m : Move), m = .drain k ∨ m = .encode k ∨ m = .done k ∨ m = .fail k →
    st.runMove m = .next t → SameOtherStrips st t k)

/-- R62: a command reads no strip but the one it names: in two states that differ in other strips only, it does the
same, and what it makes of its own strip and of everything but the strips is the same. -/
def Obligations.OtherStripsAreNeverRead : Prop :=
  ∀ (i : Instr) (st st' t : State), exec i st = .next t → st' = { st with strips := st'.strips } →
    (∀ k, i.stripId = some k → st'.strip k = st.strip k) →
    ∃ t', exec i st' = .next t' ∧ t' = { t with strips := t'.strips } ∧
      ∀ k, i.stripId = some k → t'.strip k = t.strip k

/-- R25: once `st.sym[v]` is not `none` no step changes it, and no command but COMPILE writes the table. -/
def Obligations.SymbolTableIsWrittenOnce : Prop :=
  (∀ (st t : State) (v : Nat) (x : SymbolSet), st.Inv → step st = .next t → st.symbols v = some x →
    t.symbols v = some x) ∧
  (∀ (i : Instr) (st t : State), exec i st = .next t → (∀ v, i ≠ .compile v) → t.sym = st.sym)

/-- R6, R67: no step changes the parameters or the host program. -/
def Obligations.ParametersAndProgramNeverChange : Prop :=
  ∀ st t : State, step st = .next t → t.cfg = st.cfg ∧ t.prog = st.prog

/-- R36: no step takes a session out of a strip's `txlog`. -/
def Obligations.TxlogKeepsEverySession : Prop :=
  ∀ (st t : State) (k : Nat), step st = .next t → (st.strip k).txlog <+: (t.strip k).txlog

/-! ## The symbol compiler (spec/40_symbol_compiler.md) -/

/-- R93: `T(d)` is `d * R / 10^9` rounded to a natural by a `ROUND` that R6 allows: exact where the quotient is a
natural, less than one away from it, and monotone, whatever the configuration's rounding. -/
def Obligations.TicksAreTheRoundedScaledDuration : Prop :=
  ∀ (c : Config) (d : Nat),
    (1000000000 ∣ d * c.resolutionHz → c.ticks d = d * c.resolutionHz / 1000000000) ∧
    (c.ticks d * 1000000000 < d * c.resolutionHz + 1000000000 ∧
      d * c.resolutionHz < c.ticks d * 1000000000 + 1000000000) ∧
    ∀ d', d ≤ d' → c.ticks d ≤ c.ticks d'

/-- R94: the reset symbol is `(0, H, 0, H)`, and `2H` is the scaled reset time when that is even and one tick more
when it is odd. -/
def Obligations.ResetHalvesCoverTheResetTime : Prop :=
  ∀ (c : Config) (p : TimingProfile),
    (c.symbolSet p).reset = ⟨.low, c.resetHalf p.tReset, .low, c.resetHalf p.tReset⟩ ∧
    (c.ticks p.tReset % 2 = 0 → 2 * c.resetHalf p.tReset = c.ticks p.tReset) ∧
    (c.ticks p.tReset % 2 = 1 → 2 * c.resetHalf p.tReset = c.ticks p.tReset + 1)

/-- R95: COMPILE of a known variant whose five durations fit returns `Ok` and writes that variant's symbols, and
nothing else. -/
def Obligations.CompileWritesTheSymbols : Prop :=
  ∀ (v : Byte) (p : TimingProfile) (st : State), tableGet st.cfg.variants v.toNat = some p →
    (∀ d ∈ [st.cfg.ticks p.t0High, st.cfg.ticks p.t0Low, st.cfg.ticks p.t1High, st.cfg.ticks p.t1Low,
      (st.cfg.ticks p.tReset + 1) / 2], 1 ≤ d ∧ d ≤ 2 ^ st.cfg.durWidth - 1) →
    ∃ t, exec (.compile v) st = .next t ∧ HostEnds st t .ok ∧ NoDraw st t ∧ t.strips = st.strips ∧
      t.symbols v.toNat = some
        { bit0 := ⟨.high, st.cfg.ticks p.t0High, .low, st.cfg.ticks p.t0Low⟩
          bit1 := ⟨.high, st.cfg.ticks p.t1High, .low, st.cfg.ticks p.t1Low⟩
          reset := ⟨.low, (st.cfg.ticks p.tReset + 1) / 2, .low, (st.cfg.ticks p.tReset + 1) / 2⟩
          order := p.colorOrder } ∧
      ∀ u, u ≠ v.toNat → t.symbols u = st.symbols u

/-- R95: COMPILE of a variant that is not a key of `VARIANTS` returns `Err(InvalidArgument)` and changes nothing. -/
def Obligations.CompileOfAnUnknownVariantFails : Prop :=
  ∀ (v : Byte) (st : State), tableGet st.cfg.variants v.toNat = none →
    ∃ t, exec (.compile v) st = .next t ∧ OnlyFails st t .invalidArgument ∧ NoDraw st t

/-- R96: when a compiled duration is 0 or greater than `DUR_MAX`, COMPILE raises FAULT_SYM_RANGE with the variant id,
and leaves `st.sym` unchanged. -/
def Obligations.CompileFaultsOutsideTheDurationField : Prop :=
  ∀ (v : Byte) (p : TimingProfile) (st : State), tableGet st.cfg.variants v.toNat = some p →
    (∃ d ∈ [st.cfg.ticks p.t0High, st.cfg.ticks p.t0Low, st.cfg.ticks p.t1High, st.cfg.ticks p.t1Low,
      (st.cfg.ticks p.tReset + 1) / 2], d = 0 ∨ 2 ^ st.cfg.durWidth - 1 < d) →
    exec (.compile v) st =
      .next { st with fault := some { code := .symRange, info := v.toNat, pc := st.pc } }

/-- R97: COMPILE is a function of `R`, `ROUND`, `DUR_WIDTH` and the profile alone, and in a state that meets the
invariant a COMPILE of a variant that is compiled already returns `Ok` and changes no symbol. -/
def Obligations.CompilingTwiceChangesNothing : Prop :=
  (∀ (c c' : Config) (p : TimingProfile), c.resolutionHz = c'.resolutionHz → c.rounding = c'.rounding →
    c.durWidth = c'.durWidth → c.symbolSet p = c'.symbolSet p ∧ c.profileOk p = c'.profileOk p) ∧
  (∀ (v : Byte) (x : SymbolSet) (st : State), st.Inv → st.symbols v.toNat = some x →
    ∃ t, exec (.compile v) st = .next t ∧ HostEnds st t .ok ∧ t.strips = st.strips ∧
      ∀ u, t.symbols u = st.symbols u)

/-! ## The pixel buffer (spec/41_pixel_buffer.md) -/

/-- R111: the color-order demultiplexer. -/
def Obligations.LayoutOfAColor : Prop :=
  ∀ (c : Config) (r g b : Byte),
    c.layout .grb false ⟨r, g, b⟩ = [g, r, b] ∧ c.layout .rgb false ⟨r, g, b⟩ = [r, g, b] ∧
    c.layout .grb true ⟨r, g, b⟩ = [g, r, b, c.lumaOf ⟨r, g, b⟩] ∧
    c.layout .rgb true ⟨r, g, b⟩ = [r, g, b, c.lumaOf ⟨r, g, b⟩]

/-- R114, R117, R52: SET_PIXEL on a present strip that is not busy, at an index below `P`, returns `Ok`; the `cpp`
bytes from `cpp * i` on are the color's layout, every other byte of the buffer reads as before, and nothing else
changes. -/
def Obligations.SetPixelWritesOnePixel : Prop :=
  ∀ (s : Byte) (i : Word32) (c : Color) (st : State), (st.strip s.toNat).present = true →
    i.toNat < (st.strip s.toNat).conf.pixels → (st.strip s.toNat).busy = false →
    ∃ t m, exec (.setPixel s i c) st = .next t ∧ HostEnds st t .ok ∧ NoDraw st t ∧ t.sym = st.sym ∧
      SameOtherStrips st t s.toNat ∧ t.strip s.toNat = { st.strip s.toNat with buf := m } ∧
      (∀ j, j < (st.strip s.toNat).conf.cpp →
        memRead m (st.pixelAddress s.toNat i.toNat + j) = (st.colorBytes s.toNat c)[j]?) ∧
      ∀ a, (a < st.pixelAddress s.toNat i.toNat ∨
          st.pixelAddress s.toNat i.toNat + (st.strip s.toNat).conf.cpp ≤ a) →
        memRead m a = memRead (st.strip s.toNat).buf a

/-- R115, R52: SET_PIXELS on a present strip that is not busy, with a range that is not empty and lies within `P`,
returns `Ok`; pixel `start + k` holds the layout of color `k`, every byte outside the range reads as before, and
nothing else changes. -/
def Obligations.SetPixelsWritesTheRange : Prop :=
  ∀ (s : Byte) (start : Word32) (colors : List Color) (st : State), (st.strip s.toNat).present = true →
    colors ≠ [] → start.toNat + colors.length ≤ (st.strip s.toNat).conf.pixels → (st.strip s.toNat).busy = false →
    ∃ t m, exec (.setPixels s start colors) st = .next t ∧ HostEnds st t .ok ∧ NoDraw st t ∧ t.sym = st.sym ∧
      SameOtherStrips st t s.toNat ∧ t.strip s.toNat = { st.strip s.toNat with buf := m } ∧
      (∀ k c, colors[k]? = some c → ∀ j, j < (st.strip s.toNat).conf.cpp →
        memRead m (st.pixelAddress s.toNat (start.toNat + k) + j) = (st.colorBytes s.toNat c)[j]?) ∧
      ∀ a, (a < st.pixelAddress s.toNat start.toNat ∨
          st.pixelAddress s.toNat (start.toNat + colors.length) ≤ a) →
        memRead m a = memRead (st.strip s.toNat).buf a

/-- R116, R52: FILL, under the same conditions, gives every pixel of the range the layout of its one color. -/
def Obligations.FillWritesTheRange : Prop :=
  ∀ (s : Byte) (start len : Word32) (c : Color) (st : State), (st.strip s.toNat).present = true →
    len.toNat ≠ 0 → start.toNat + len.toNat ≤ (st.strip s.toNat).conf.pixels → (st.strip s.toNat).busy = false →
    ∃ t m, exec (.fill s start len c) st = .next t ∧ HostEnds st t .ok ∧ NoDraw st t ∧ t.sym = st.sym ∧
      SameOtherStrips st t s.toNat ∧ t.strip s.toNat = { st.strip s.toNat with buf := m } ∧
      (∀ k, k < len.toNat → ∀ j, j < (st.strip s.toNat).conf.cpp →
        memRead m (st.pixelAddress s.toNat (start.toNat + k) + j) = (st.colorBytes s.toNat c)[j]?) ∧
      ∀ a, (a < st.pixelAddress s.toNat start.toNat ∨
          st.pixelAddress s.toNat (start.toNat + len.toNat) ≤ a) →
        memRead m a = memRead (st.strip s.toNat).buf a

/-- R118: on a present strip that is not busy, SET_PIXELS and FILL over the whole strip leave the same buffer as
SET_PIXEL of every index in order, and each command returns `Ok`. -/
def Obligations.WholeStripWritersAgree : Prop :=
  ∀ (s : Byte) (colors : List Color) (c : Color) (st : State), (st.strip s.toNat).present = true →
    (st.strip s.toNat).busy = false → colors.length = (st.strip s.toNat).conf.pixels → colors ≠ [] →
    colors.length < 4294967296 →
    (∃ t u, exec (.setPixels s 0 colors) st = .next t ∧
      execAll (colors.mapIdx fun i x => .setPixel s (BitVec.ofNat 32 i) x) st = .next u ∧
      (t.strip s.toNat).buf = (u.strip s.toNat).buf ∧ t.hostResp = st.hostResp ++ [.ok] ∧
      u.hostResp = st.hostResp ++ List.replicate colors.length .ok) ∧
    (∃ t u, exec (.fill s 0 (BitVec.ofNat 32 colors.length) c) st = .next t ∧
      execAll ((List.range colors.length).map fun i => .setPixel s (BitVec.ofNat 32 i) c) st = .next u ∧
      (t.strip s.toNat).buf = (u.strip s.toNat).buf ∧ t.hostResp = st.hostResp ++ [.ok] ∧
      u.hostResp = st.hostResp ++ List.replicate colors.length .ok)

/-- R114 to R116, R197, C3: on a present strip, busy or not, an index from `P` up is OutOfRange, a range beyond `P`
that is not empty is OutOfRange, an empty range within `P` is InvalidArgument, and of a range that is both either
error is returned, as the environment draws (log 4); nothing is written. -/
def Obligations.PixelBoundsErrors : Prop :=
  (∀ (s : Byte) (i : Word32) (c : Color) (st : State), (st.strip s.toNat).present = true →
    (st.strip s.toNat).conf.pixels ≤ i.toNat →
    ∃ t, exec (.setPixel s i c) st = .next t ∧ OnlyFails st t .outOfRange ∧ NoDraw st t) ∧
  (∀ (s : Byte) (start len : Word32) (c : Color) (colors : List Color) (st : State),
    (st.strip s.toNat).present = true → colors.length = len.toNat →
    ∀ i, i = .setPixels s start colors ∨ i = .fill s start len c →
    (len.toNat ≠ 0 → (st.strip s.toNat).conf.pixels < start.toNat + len.toNat →
      ∃ t, exec i st = .next t ∧ OnlyFails st t .outOfRange ∧ NoDraw st t) ∧
    (len.toNat = 0 → start.toNat ≤ (st.strip s.toNat).conf.pixels →
      ∃ t, exec i st = .next t ∧ OnlyFails st t .invalidArgument ∧ NoDraw st t) ∧
    (len.toNat = 0 → (st.strip s.toNat).conf.pixels < start.toNat → ∀ n ns, st.script = n :: ns →
      ∃ t, exec i st = .next t ∧
        OnlyFails st t (if n % 2 = 1 then .outOfRange else .invalidArgument) ∧ t.script = ns))

/-- R224: a write that passes its argument checks while the strip is busy raises FAULT_BUF_WRITE_BUSY, whatever bytes
it would write; a call that fails its checks returns its error and does not fault. -/
def Obligations.WritingWhileBusyFaults : Prop :=
  (∀ (s : Byte) (i : Word32) (c : Color) (st : State), (st.strip s.toNat).present = true →
    (st.strip s.toNat).busy = true →
    (i.toNat < (st.strip s.toNat).conf.pixels →
      exec (.setPixel s i c) st =
        .next { st with fault := some { code := .bufWriteBusy, info := s.toNat, pc := st.pc } }) ∧
    ((st.strip s.toNat).conf.pixels ≤ i.toNat →
      ∃ t e, exec (.setPixel s i c) st = .next t ∧ OnlyFails st t e)) ∧
  (∀ (s : Byte) (start len : Word32) (c : Color) (colors : List Color) (st : State),
    (st.strip s.toNat).present = true → (st.strip s.toNat).busy = true → colors.length = len.toNat →
    ∀ i, i = .setPixels s start colors ∨ i = .fill s start len c →
    (len.toNat ≠ 0 ∧ start.toNat + len.toNat ≤ (st.strip s.toNat).conf.pixels →
      exec i st = .next { st with fault := some { code := .bufWriteBusy, info := s.toNat, pc := st.pc } }) ∧
    (len.toNat = 0 ∨ (st.strip s.toNat).conf.pixels < start.toNat + len.toNat →
      ∃ t e, exec i st = .next t ∧ OnlyFails st t e))

/-! ## The encoder (spec/42_strip_encoder.md) -/

/-- R131, R133, R135, R136, R138 to R140, R148, R150: in a session, wherever the cursor stands at its start, ENCODE
emits `min(free, symbols left)` symbols, which are the next ones of those still to come; `COMPLETE` is reported
exactly when none is left, `FULL` exactly when no free place is left; it appends them to the slot, moves phase, data
cursor and reset cursor on as `encoderAfter` says, sets `enc_done` with `COMPLETE` (R35, R172, log 11), and writes
nothing else: the pixel buffer reads as before at every address.  With `COMPLETE` the phase is `SendData` again and
the reset cursor 0, and the data cursor is `(0,0)` unless the session stood in `SendReset` before this call. -/
def Obligations.EncodeEmitsTheNextSymbols : Prop :=
  ∀ (s : Byte) (space : Word32) (st : State), (st.strip s.toNat).present = true → (st.strip s.toNat).busy = true →
    (st.strip s.toNat).encDone = false → space.toNat + (st.strip s.toNat).slot.length ≤ st.cfg.slotCap →
    (st.strip s.toNat).buf.map Prod.fst = List.range (st.strip s.toNat).conf.size →
    bitPosition (st.strip s.toNat).enc ≤ 8 * (st.strip s.toNat).conf.size →
    ∃ t status, exec (.encode s space) st = .next t ∧
      SameSurroundings st t ∧ NoDraw st t ∧ t.pc = st.pc ∧ t.holding = st.holding ∧ t.hostResp = st.hostResp ∧
      t.sym = st.sym ∧ SameOtherStrips st t s.toNat ∧
      t.chanResp = st.chanResp ++ [.encode status ((st.strip s.toNat).pending.take space.toNat)] ∧
      (status.complete = true ↔ (st.strip s.toNat).pending.length ≤ space.toNat) ∧
      (status.full = true ↔ space.toNat ≤ (st.strip s.toNat).pending.length) ∧
      t.strip s.toNat =
        { st.strip s.toNat with
          slot := (st.strip s.toNat).slot ++ (st.strip s.toNat).pending.take space.toNat
          enc := encoderAfter (8 * (st.strip s.toNat).conf.size) (st.strip s.toNat).enc space.toNat
          encDone := status.complete } ∧
      (t.strip s.toNat).pending = (st.strip s.toNat).pending.drop space.toNat ∧
      (status.complete = true → (t.strip s.toNat).enc.phase = .sendData ∧ (t.strip s.toNat).enc.rcount = 0 ∧
        ((st.strip s.toNat).enc.phase = .sendData → bitPosition (t.strip s.toNat).enc = 0))

/-- R140, R195: an ENCODE outside a session, or with more free space than the slot has, is refused with
ENCODE_OUTSIDE_SESSION and changes nothing else. -/
def Obligations.EncodeOutsideASessionIsRefused : Prop :=
  ∀ (s : Byte) (space : Word32) (st : State),
    ((st.strip s.toNat).present = false ∨ (st.strip s.toNat).busy = false ∨ (st.strip s.toNat).encDone = true ∨
      st.cfg.slotCap < space.toNat + (st.strip s.toNat).slot.length) →
    exec (.encode s space) st =
      .next { st with refused := some { reason := .encodeOutsideSession, pc := st.pc } }

/-- R146: from the initial state, whatever free spaces are offered, the outputs up to and including the first
`COMPLETE` are exactly `STREAM(buf, syms)`, every earlier status contains `FULL`, and the encoder is back in its
initial state; before that the outputs are a beginning of it; and `8N + 1` offers of at least one place complete the
session. -/
def Obligations.SessionEmitsExactlyTheStream : Prop :=
  ∀ (slotCap : Nat) (x : Strip) (frees : List Nat), x.present = true → x.busy = true → x.encDone = false →
    x.buf.map Prod.fst = List.range x.conf.size → x.enc.isInitial → (∀ f ∈ frees, f ≤ slotCap) →
    ((encodeRun slotCap x frees).completed = true →
      (encodeRun slotCap x frees).out = stream x.conf.syms x.buf.bytes ∧
      (encodeRun slotCap x frees).after.enc.isInitial) ∧
    ((encodeRun slotCap x frees).completed = false →
      (encodeRun slotCap x frees).out <+: stream x.conf.syms x.buf.bytes ∧
      ∀ e ∈ (encodeRun slotCap x frees).statuses, e.full = true) ∧
    (∀ e ∈ (encodeRun slotCap x frees).statuses.dropLast, e.full = true ∧ e.complete = false) ∧
    (8 * x.conf.size + 1 ≤ (frees.filter fun f => decide (1 ≤ f)).length →
      (encodeRun slotCap x frees).completed = true)

/-- R143: ENC_RESET on a present strip that is not busy returns `Ok`, puts phase, data cursor and reset cursor at
their start, and touches nothing else. -/
def Obligations.EncResetRestoresTheInitialState : Prop :=
  ∀ (s : Byte) (st : State), (st.strip s.toNat).present = true → (st.strip s.toNat).busy = false →
    ∃ t, exec (.encReset s) st = .next t ∧ HostEnds st t .ok ∧ NoDraw st t ∧ t.sym = st.sym ∧
      SameOtherStrips st t s.toNat ∧
      t.strip s.toNat =
        { st.strip s.toNat with enc := { phase := .sendData, dbyte := 0, dbit := 0, rcount := 0 } }

/-- R149: whatever state the encoder was in, after ENC_RESET a FLUSH that the channel accepts starts a session whose
symbols to come are the whole `STREAM(buf, syms)`. -/
def Obligations.ResetThenFlushSendsTheWholeStream : Prop :=
  ∀ (s : Byte) (st : State), (st.strip s.toNat).present = true → (st.strip s.toNat).busy = false →
    (st.strip s.toNat).chErr = false → st.cfg.chan = .never →
    ∃ t u, exec (.encReset s) st = .next t ∧ exec (.flush s) t = .next u ∧ (u.strip s.toNat).Tracks ∧
      (u.strip s.toNat).pending = stream (st.strip s.toNat).conf.syms (st.strip s.toNat).buf.bytes

/-! ## The strip lifecycle (spec/43_strip_lifecycle.md) -/

/-- R161, R38: INIT of an absent strip, of a known and compiled variant, with a length above 0, when no oracle
refuses (each either cannot, or its draws accept: log 4), returns `Ok`; the strip's fields are as R38 says after INIT,
with `N` bytes in the buffer, and nothing else changes. -/
def Obligations.InitCreatesTheStrip : Prop :=
  ∀ (s v : Byte) (length : Word32) (white : Bool) (p : TimingProfile) (syms : SymbolSet) (st : State),
    (st.strip s.toNat).present = false → length.toNat ≠ 0 → tableGet st.cfg.variants v.toNat = some p →
    st.symbols v.toNat = some syms →
    ∀ answers rest : List Nat, answers.length = (initCalls st.cfg).length → (∀ a ∈ answers, a % 2 = 1) →
      st.script = answers ++ rest →
    ∃ t bytes, exec (.init s v length white) st = .next t ∧ HostEnds st t .ok ∧ t.sym = st.sym ∧
      SameOtherStrips st t s.toNat ∧ bytes.length = length.toNat * (if white then 4 else 3) ∧
      t.strip s.toNat =
        { present := true
          conf := { variant := v, pixels := length.toNat, white := white, syms := syms }
          buf := memFrom 0 bytes
          enc := { phase := .sendData, dbyte := 0, dbit := 0, rcount := 0 }
          busy := false
          chErr := false
          slot := []
          encDone := false
          wire := []
          txlog := (st.strip s.toNat).txlog }

/-- R29, R161, R162, I9, I13: after INIT the buffer may hold any bytes at all, whether the oracles cannot refuse or
accept; and each call of an oracle that may refuse, of the buffer, the channel and the encoder in this order, can be
the one that is refused, with its error and nothing written (the form of the draws is the model's, log 4). -/
def Obligations.InitDrawsAreFree : Prop :=
  ∀ (s v : Byte) (length : Word32) (white : Bool) (p : TimingProfile) (syms : SymbolSet) (st : State),
    (st.strip s.toNat).present = false → length.toNat ≠ 0 → tableGet st.cfg.variants v.toNat = some p →
    st.symbols v.toNat = some syms →
    ∀ answers : List Nat, (∀ a ∈ answers, a % 2 = 1) →
    (∀ (bytes : List Byte) (rest : List Nat), answers.length = (initCalls st.cfg).length →
      bytes.length = length.toNat * (if white then 4 else 3) →
      st.script = answers ++ bytes.map BitVec.toNat ++ rest →
      ∃ t, exec (.init s v length white) st = .next t ∧ HostEnds st t .ok ∧ (t.strip s.toNat).present = true ∧
        (t.strip s.toNat).buf = memFrom 0 bytes ∧ t.script = rest ∧ t.draws = st.draws) ∧
    (∀ (n : Nat) (rest : List Nat) (e : ErrorKind), (initCalls st.cfg)[answers.length]? = some e → n % 2 = 0 →
      st.script = answers ++ n :: rest →
      ∃ t, exec (.init s v length white) st = .next t ∧ OnlyFails st t e ∧ t.script = rest ∧ t.draws = st.draws)

/-- R161, R197, R222, R230: INIT's checks in their order: a present strip, then the arguments, then a variant that is
known but not compiled. -/
def Obligations.InitChecksInOrder : Prop :=
  ∀ (s v : Byte) (length : Word32) (white : Bool) (st : State),
    ((st.strip s.toNat).present = true →
      exec (.init s v length white) st =
        .next { st with fault := some { code := .reinit, info := s.toNat, pc := st.pc } }) ∧
    ((st.strip s.toNat).present = false → length.toNat = 0 ∨ tableGet st.cfg.variants v.toNat = none →
      ∃ t, exec (.init s v length white) st = .next t ∧ OnlyFails st t .invalidArgument ∧ NoDraw st t) ∧
    ((st.strip s.toNat).present = false → length.toNat ≠ 0 → ∀ p, tableGet st.cfg.variants v.toNat = some p →
      st.symbols v.toNat = none →
      exec (.init s v length white) st =
        .next { st with fault := some { code := .notCompiled, info := v.toNat, pc := st.pc } })

/-- R162, R192: every failure return of INIT leaves the strip absent with no resource held, and every strip as it was.
That this holds of the absent strip's fields which R144 leaves unspecified as well is the model's choice (log 15). -/
def Obligations.FailedInitHoldsNothing : Prop :=
  ∀ (s v : Byte) (length : Word32) (white : Bool) (e : ErrorKind) (st t : State), st.Inv →
    exec (.init s v length white) st = .next t → t.hostResp = st.hostResp ++ [.err e] →
    t.strips = st.strips ∧ (t.strip s.toNat).present = false ∧ (t.strip s.toNat).buf = [] ∧
      (t.strip s.toNat).slot = [] ∧ (t.strip s.toNat).busy = false

/-- R163: BUSY answers whether a transmission of a present strip is in flight, at once, and changes nothing. -/
def Obligations.BusyAnswersInFlight : Prop :=
  ∀ (s : Byte) (st : State), ∃ t answer, exec (.busy s) st = .next t ∧ HostEnds st t (.busy answer) ∧ NoDraw st t ∧
    t.sym = st.sym ∧ t.strips = st.strips ∧
    (answer = true ↔ (st.strip s.toNat).present = true ∧ (st.strip s.toNat).busy = true)

/-- R165: WAIT on a present strip that is not busy ends at once, whatever the timeout: `Ok` without a pending channel
fault, and `Err(ChannelFailure)`, which clears the fault, with one. -/
def Obligations.WaitOnAnIdleStripEndsAtOnce : Prop :=
  ∀ (s : Byte) (timeout : Word32) (st : State), (st.strip s.toNat).present = true →
    (st.strip s.toNat).busy = false →
    ((st.strip s.toNat).chErr = false →
      ∃ t, exec (.wait s timeout) st = .next t ∧ HostEnds st t .ok ∧ NoDraw st t ∧ t.sym = st.sym ∧
        t.strips = st.strips) ∧
    ((st.strip s.toNat).chErr = true →
      ∃ t, exec (.wait s timeout) st = .next t ∧ HostEnds st t (.err .channelFailure) ∧ NoDraw st t ∧
        t.sym = st.sym ∧ SameOtherStrips st t s.toNat ∧
        t.strip s.toNat = { st.strip s.toNat with chErr := false })

/-- R166: on a present strip `WAIT(s, 0)` returns `Err(Timeout)` exactly when `BUSY(s)` returns `true`, and neither
of them holds. -/
def Obligations.PollingIsWaitingZero : Prop :=
  ∀ (s : Byte) (st : State), (st.strip s.toNat).present = true →
    ∃ t u, exec (.wait s 0) st = .next t ∧ exec (.busy s) st = .next u ∧ t.holding = none ∧ u.holding = none ∧
      (t.hostResp = st.hostResp ++ [.err .timeout] ↔ u.hostResp = st.hostResp ++ [.busy true])

/-- R164: WAIT with a positive timeout, and FLUSH, on a busy strip: either the bound elapses and the command returns
`Err(Timeout)`, or the host holds with the pc unchanged, as the environment draws (log 4, log 9). -/
def Obligations.WaitingOnABusyStripTimesOutOrHolds : Prop :=
  ∀ (s : Byte) (timeout : Word32) (st : State) (n : Nat) (ns : List Nat), (st.strip s.toNat).present = true →
    (st.strip s.toNat).busy = true → st.script = n :: ns →
    ∀ i, (i = .wait s timeout ∧ timeout.toNat ≠ 0) ∨ (i = .flush s ∧ st.cfg.flushTimeout ≠ 0) →
    (n % 2 = 1 → ∃ t, exec i st = .next t ∧ OnlyFails st t .timeout ∧ t.script = ns ∧ t.draws = st.draws) ∧
    (n % 2 = 0 → exec i st = .next { st with script := ns, holding := some s.toNat })

/-- R167: FLUSH on a present strip that is not busy and has no pending channel fault, when the channel accepts
(it cannot refuse, or its draw accepts: log 4), returns `Ok` and starts a session: `busy` set, slot and wire empty, `enc_done` cleared, the encoder as it was (D24),
and nothing else changed. -/
def Obligations.FlushStartsASession : Prop :=
  ∀ (s : Byte) (st : State), (st.strip s.toNat).present = true → (st.strip s.toNat).busy = false →
    (st.strip s.toNat).chErr = false → (st.cfg.chan = .never ∨ ∃ n ns, st.script = n :: ns ∧ n % 2 = 1) →
    ∃ t, exec (.flush s) st = .next t ∧ HostEnds st t .ok ∧ t.sym = st.sym ∧ SameOtherStrips st t s.toNat ∧
      t.strip s.toNat = { st.strip s.toNat with busy := true, slot := [], encDone := false, wire := [] }

/-- R167: a FLUSH with a pending channel fault returns `Err(ChannelFailure)` and clears it; a FLUSH that the channel
refuses to start returns `Err(ChannelFailure)`; neither starts a session (which draw refuses is the model's choice,
log 4). -/
def Obligations.FailedFlushStartsNoSession : Prop :=
  ∀ (s : Byte) (st : State), (st.strip s.toNat).present = true → (st.strip s.toNat).busy = false →
    ((st.strip s.toNat).chErr = true →
      ∃ t, exec (.flush s) st = .next t ∧ HostEnds st t (.err .channelFailure) ∧ NoDraw st t ∧ t.sym = st.sym ∧
        SameOtherStrips st t s.toNat ∧ t.strip s.toNat = { st.strip s.toNat with chErr := false }) ∧
    ((st.strip s.toNat).chErr = false → st.cfg.chan = .external → ∀ n ns, st.script = n :: ns → n % 2 = 0 →
      ∃ t, exec (.flush s) st = .next t ∧ OnlyFails st t .channelFailure)

/-- R168, D28: FREE on a present strip that is not busy releases it, whether the channel reports a fault on release
or not: absent, no buffer, no slot, no pending fault, `wire` and `txlog` kept, and nothing else changed; the fields
R38 calls unspecified are free values (log 14).  It returns `Ok`, or `Err(ChannelFailure)` when the channel reports a
fault; that an odd draw stands for no fault and an even one for a fault is the model's choice (log 4). -/
def Obligations.FreeReleasesTheStrip : Prop :=
  ∀ (s : Byte) (st : State), (st.strip s.toNat).present = true → (st.strip s.toNat).busy = false →
    ∃ t r conf enc, exec (.free s) st = .next t ∧ HostEnds st t r ∧ t.sym = st.sym ∧ SameOtherStrips st t s.toNat ∧
      (st.cfg.chan = .never → r = .ok) ∧
      (∀ n ns, st.cfg.chan = .external → st.script = n :: ns →
        r = if n % 2 = 1 then .ok else .err .channelFailure) ∧
      t.strip s.toNat =
        { present := false
          conf := conf
          buf := []
          enc := enc
          busy := false
          chErr := false
          slot := []
          encDone := false
          wire := (st.strip s.toNat).wire
          txlog := (st.strip s.toNat).txlog }

/-- R225, R226: ENC_RESET and FREE of a strip that is busy raise their faults. -/
def Obligations.ResetAndFreeWhileBusyFault : Prop :=
  ∀ (s : Byte) (st : State), (st.strip s.toNat).present = true → (st.strip s.toNat).busy = true →
    exec (.encReset s) st =
      .next { st with fault := some { code := .encResetBusy, info := s.toNat, pc := st.pc } } ∧
    exec (.free s) st = .next { st with fault := some { code := .freeBusy, info := s.toNat, pc := st.pc } }

/-- R222, R191: on an absent strip every command that needs a present one returns `Err(InvalidArgument)` and changes
nothing. -/
def Obligations.AbsentStripIsAnInvalidArgument : Prop :=
  ∀ (s : Byte) (st : State), (st.strip s.toNat).present = false →
    ∀ i, (∃ index c, i = .setPixel s index c) ∨ (∃ start colors, i = .setPixels s start colors) ∨
      (∃ start len c, i = .fill s start len c) ∨ i = .flush s ∨ (∃ timeout, i = .wait s timeout) ∨ i = .free s ∨
      i = .encReset s →
    ∃ t, exec i st = .next t ∧ OnlyFails st t .invalidArgument ∧ NoDraw st t

/-! ## The channel agent (spec/43_strip_lifecycle.md R170 to R180) -/

/-- R170, R171: CHAN_DRAIN is enabled exactly while the strip is present and busy and its slot holds a symbol; it puts
the head of the slot at the end of the wire, and writes nothing else. -/
def Obligations.DrainMovesTheOldestSymbolToTheWire : Prop :=
  ∀ (st : State) (k : Nat),
    (.drain k ∈ st.moves ↔ (st.strip k).present = true ∧ (st.strip k).busy = true ∧ (st.strip k).slot ≠ []) ∧
    ∀ p rest, (st.strip k).slot = p :: rest →
      ∃ t, st.runMove (.drain k) = .next t ∧ t = { st with strips := t.strips } ∧ SameOtherStrips st t k ∧
        t.strip k = { st.strip k with slot := rest, wire := (st.strip k).wire ++ [p] }

/-- R170, R172: CHAN_ENCODE is enabled exactly while the strip is present and busy and its encoder not done; in a
state that meets the invariant it offers the free slot space, takes that many of the symbols still to come into the
slot, moves the encoder registers on as `encoderAfter` says, and is done when none is left; the phase is then
`SendData` again (R139). -/
def Obligations.ChannelEncodeFillsTheSlot : Prop :=
  (∀ (st : State) (k : Nat), .encode k ∈ st.moves ↔
    (st.strip k).present = true ∧ (st.strip k).busy = true ∧ (st.strip k).encDone = false) ∧
  (∀ (st : State) (k : Nat), st.Inv → .encode k ∈ st.moves →
    ∃ t, st.runMove (.encode k) = .next t ∧ t = { st with strips := t.strips, chanResp := t.chanResp } ∧
      SameOtherStrips st t k ∧
      t.strip k =
        { st.strip k with
          slot := (st.strip k).slot ++ (st.strip k).pending.take (st.cfg.slotCap - (st.strip k).slot.length)
          enc := encoderAfter (8 * (st.strip k).conf.size) (st.strip k).enc
            (st.cfg.slotCap - (st.strip k).slot.length)
          encDone := decide ((st.strip k).pending.length ≤ st.cfg.slotCap - (st.strip k).slot.length) } ∧
      (t.strip k).pending = (st.strip k).pending.drop (st.cfg.slotCap - (st.strip k).slot.length) ∧
      ((t.strip k).encDone = true → (t.strip k).enc.phase = .sendData))

/-- R170, R174: CHAN_DONE is enabled exactly while the strip is present and busy, its encoder done and its slot empty;
it logs the session as done, clears `busy` and `enc_done`, and writes nothing else. -/
def Obligations.DoneLogsTheSession : Prop :=
  ∀ (st : State) (k : Nat),
    (.done k ∈ st.moves ↔ (st.strip k).present = true ∧ (st.strip k).busy = true ∧ (st.strip k).encDone = true ∧
      (st.strip k).slot = []) ∧
    ∃ t, st.runMove (.done k) = .next t ∧ t = { st with strips := t.strips } ∧ SameOtherStrips st t k ∧
      t.strip k =
        { st.strip k with
          txlog := (st.strip k).txlog ++ [{ symbols := (st.strip k).wire, outcome := .done }]
          busy := false
          encDone := false }

/-- R175, I10: CHAN_FAIL can be enabled only while a session is in flight and the oracle CHAN may report a fault; it
logs the session as failed, keeps the fault for the host, empties the slot and leaves the encoder at a drawn phase
and a drawn position within the buffer or 0; every such phase and position can be drawn (the form of the draws is the
model's, log 4). -/
def Obligations.FailedSessionLeavesADrawnPosition : Prop :=
  (∀ (st : State) (k : Nat), .fail k ∈ st.moves ↔
    (st.strip k).present = true ∧ (st.strip k).busy = true ∧ st.cfg.chan = .external) ∧
  (∀ (st : State) (k : Nat), ∃ t e, st.runMove (.fail k) = .next t ∧
    t = { st with strips := t.strips, script := t.script, draws := t.draws } ∧ SameOtherStrips st t k ∧
    (bitPosition e < 8 * (st.strip k).conf.size ∨ bitPosition e = 0) ∧ e.rcount = 0 ∧
    t.strip k =
      { st.strip k with
        txlog := (st.strip k).txlog ++ [{ symbols := (st.strip k).wire, outcome := .failed }]
        busy := false
        chErr := true
        slot := []
        encDone := false
        enc := e } ∧
    ∀ n pos ns, st.script = n :: pos :: ns →
      e.phase = (if n % 2 = 1 then .sendReset else .sendData) ∧
      (pos < 8 * (st.strip k).conf.size → bitPosition e = pos))

/-- R178, R146, R64: a FLUSH that starts with the encoder in its initial state starts a tracked session; and from any
state that meets the invariant, every step either keeps the session tracked with the same stream and log, or ends it
by CHAN_DONE with exactly `(STREAM(B, syms), Done)` logged and the encoder initial again, or ends it by CHAN_FAIL with
a beginning of the stream logged as failed. -/
def Obligations.TransmissionSendsExactlyTheBuffer : Prop :=
  (∀ (s : Byte) (st t : State), (st.strip s.toNat).present = true → (st.strip s.toNat).enc.isInitial →
    exec (.flush s) st = .next t → t.hostResp = st.hostResp ++ [.ok] →
    (t.strip s.toNat).Tracks ∧ (t.strip s.toNat).stream = (st.strip s.toNat).stream) ∧
  (∀ (st t : State) (k : Nat), st.Inv → (st.strip k).Tracks → step st = .next t →
    ((t.strip k).Tracks ∧ (t.strip k).stream = (st.strip k).stream ∧ (t.strip k).txlog = (st.strip k).txlog) ∨
    ((t.strip k).txlog = (st.strip k).txlog ++ [{ symbols := (st.strip k).stream, outcome := .done }] ∧
      (t.strip k).busy = false ∧ (t.strip k).enc.isInitial) ∨
    (∃ w, w <+: (st.strip k).stream ∧
      (t.strip k).txlog = (st.strip k).txlog ++ [{ symbols := w, outcome := .failed }] ∧
      (t.strip k).busy = false ∧ (t.strip k).chErr = true))
end

