-- ==== Sys2Proof/Laws/State.lean ====
section
/-! SUPPORT. Laws/State.lean: what each update of the state does to each field, so that no proof unfolds a record
update again. -/

namespace Sys2Proof.Machine

section
variable (st : State) (k : Nat) (x : Strip)

@[simp] theorem setStrip_cfg : (st.setStrip k x).cfg = st.cfg := rfl
@[simp] theorem setStrip_sym : (st.setStrip k x).sym = st.sym := rfl
@[simp] theorem setStrip_fault : (st.setStrip k x).fault = st.fault := rfl
@[simp] theorem setStrip_refused : (st.setStrip k x).refused = st.refused := rfl
@[simp] theorem setStrip_prog : (st.setStrip k x).prog = st.prog := rfl
@[simp] theorem setStrip_pc : (st.setStrip k x).pc = st.pc := rfl
@[simp] theorem setStrip_holding : (st.setStrip k x).holding = st.holding := rfl
@[simp] theorem setStrip_chanPort : (st.setStrip k x).chanPort = st.chanPort := rfl
@[simp] theorem setStrip_hostResp : (st.setStrip k x).hostResp = st.hostResp := rfl
@[simp] theorem setStrip_chanResp : (st.setStrip k x).chanResp = st.chanResp := rfl
@[simp] theorem setStrip_agenda : (st.setStrip k x).agenda = st.agenda := rfl
@[simp] theorem setStrip_waiting : (st.setStrip k x).waiting = st.waiting := rfl
@[simp] theorem setStrip_script : (st.setStrip k x).script = st.script := rfl
@[simp] theorem setStrip_draws : (st.setStrip k x).draws = st.draws := rfl
@[simp] theorem setStrip_symbols (v : Nat) : (st.setStrip k x).symbols v = st.symbols v := rfl
@[simp] theorem setStrip_strips : (st.setStrip k x).strips = tableSet st.strips k x := rfl

end

/-! The strips and the symbol table depend on their own field alone. -/

/-- Two states with the same strip table have the same strips. -/
theorem strip_congr {st t : State} (h : t.strips = st.strips) (k : Nat) : t.strip k = st.strip k := by
  simp [State.strip, h]

/-- Two states with the same symbol table have the same symbols. -/
theorem symbols_congr {st t : State} (h : t.sym = st.sym) (v : Nat) : t.symbols v = st.symbols v := by
  simp [State.symbols, h]

section
variable (st : State) (k v : Nat)

@[simp] theorem strip_withSym (y : List (Nat × SymbolSet)) : State.strip { st with sym := y } k = st.strip k := rfl
@[simp] theorem strip_withFault (y : Option FaultRecord) : State.strip { st with fault := y } k = st.strip k := rfl
@[simp] theorem strip_withRefused (y : Option RefusalRecord) :
    State.strip { st with refused := y } k = st.strip k := rfl
@[simp] theorem strip_withHolding (y : Option Nat) : State.strip { st with holding := y } k = st.strip k := rfl
@[simp] theorem strip_withChanPort (y : List Byte) : State.strip { st with chanPort := y } k = st.strip k := rfl
@[simp] theorem strip_withChanResp (y : List Response) : State.strip { st with chanResp := y } k = st.strip k := rfl
@[simp] theorem strip_withAgenda (y : List Move) : State.strip { st with agenda := y } k = st.strip k := rfl
@[simp] theorem strip_withWaiting (y : List (Move × Nat)) : State.strip { st with waiting := y } k = st.strip k := rfl
@[simp] theorem strip_withScript (y : List Nat) : State.strip { st with script := y } k = st.strip k := rfl
@[simp] theorem strip_withDraws (y : Nat) : State.strip { st with draws := y } k = st.strip k := rfl
@[simp] theorem strip_ended (p : Nat) (h : Option Nat) (r : List Response) :
    State.strip { st with pc := p, holding := h, hostResp := r } k = st.strip k := rfl

end

end Sys2Proof.Machine
end

