-- ==== Sys2Proof/Laws/Tables.lean ====
section
/-! SUPPORT. Laws/Tables.lean: tables and pixel buffers: reading after writing, and the canonical form. -/

namespace Sys2Proof.Machine

variable {α : Type}

/-- A read after a write at the same key gives what was written. -/
@[simp] theorem tableGet_tableSet_same (t : List (Nat × α)) (k : Nat) (x : α) :
    tableGet (tableSet t k x) k = some x := by
  induction t with
  | nil => simp [tableSet, tableGet]
  | cons e t ih =>
    obtain ⟨j, y⟩ := e
    simp only [tableSet]
    split
    · simp [tableGet]
    · split
      · simp [tableGet]
      · rename_i h _
        simp [tableGet, h, ih]

/-- A write leaves every other key alone. -/
theorem tableGet_tableSet_other (t : List (Nat × α)) {k j : Nat} (x : α) (h : j ≠ k) :
    tableGet (tableSet t k x) j = tableGet t j := by
  induction t with
  | nil => simp [tableSet, tableGet, h]
  | cons e t ih =>
    obtain ⟨i, y⟩ := e
    simp only [tableSet]
    split
    · rename_i hk
      subst hk
      simp [tableGet, h]
    · split
      · simp [tableGet, h]
      · simp [tableGet, ih]

/-- Reading any key after a write. -/
theorem tableGet_tableSet (t : List (Nat × α)) (k j : Nat) (x : α) :
    tableGet (tableSet t k x) j = if j = k then some x else tableGet t j := by
  split
  · rename_i h
    subst h
    simp
  · exact tableGet_tableSet_other t x ‹_›

/-- The keys after a write are the keys before it and the written one. -/
theorem mem_keys_tableSet (t : List (Nat × α)) (k j : Nat) (x : α) :
    j ∈ (tableSet t k x).map Prod.fst ↔ j = k ∨ j ∈ t.map Prod.fst := by
  induction t with
  | nil => simp [tableSet]
  | cons e t ih =>
    obtain ⟨i, y⟩ := e
    simp only [tableSet]
    split
    · rename_i h
      subst h
      simp
    · split
      · simp
      · simp only [List.map_cons, List.mem_cons, ih]
        tauto

/-- A write keeps the keys strictly rising. -/
theorem tableSet_rising (t : List (Nat × α)) (k : Nat) (x : α) (h : (t.map Prod.fst).Pairwise (· < ·)) :
    ((tableSet t k x).map Prod.fst).Pairwise (· < ·) := by
  induction t with
  | nil => simp [tableSet]
  | cons e t ih =>
    obtain ⟨i, y⟩ := e
    simp only [List.map_cons, List.pairwise_cons] at h
    simp only [tableSet]
    split
    · rename_i hk
      subst hk
      simpa using h
    · split
      · rename_i hlt
        simp only [List.map_cons, List.pairwise_cons, List.mem_cons, forall_eq_or_imp]
        exact ⟨⟨hlt, fun a ha => hlt.trans (h.1 a ha)⟩, h⟩
      · rename_i hne hnlt
        simp only [List.map_cons, List.pairwise_cons, mem_keys_tableSet, forall_eq_or_imp]
        exact ⟨⟨by omega, h.1⟩, ih h.2⟩

/-- A write to a key that is there changes no key. -/
theorem keys_tableSet_of_mem (t : List (Nat × α)) (k : Nat) (x : α) (h : (t.map Prod.fst).Pairwise (· < ·))
    (hk : k ∈ t.map Prod.fst) : (tableSet t k x).map Prod.fst = t.map Prod.fst := by
  induction t with
  | nil => simp at hk
  | cons e t ih =>
    obtain ⟨i, y⟩ := e
    simp only [List.map_cons, List.pairwise_cons, List.mem_cons] at h hk
    simp only [tableSet]
    split
    · rename_i hki
      subst hki
      rfl
    · rename_i hne
      have hmem : k ∈ t.map Prod.fst := hk.resolve_left hne
      rw [if_neg (by have := h.1 k hmem; omega)]
      simp [ih h.2 hmem]

/-- What is listed at a key is found there. -/
theorem tableGet_isSome_iff (t : List (Nat × α)) (k : Nat) : (tableGet t k).isSome ↔ k ∈ t.map Prod.fst := by
  induction t with
  | nil => simp [tableGet]
  | cons e t ih =>
    obtain ⟨i, y⟩ := e
    simp only [tableGet, List.map_cons, List.mem_cons]
    split
    · simp [*]
    · simp [*]

/-! ## Strips -/

@[simp] theorem strip_setStrip_same (st : State) (k : Nat) (x : Strip) : (st.setStrip k x).strip k = x := by
  simp [State.strip, State.setStrip]

theorem strip_setStrip_other (st : State) {k j : Nat} (x : Strip) (h : j ≠ k) :
    (st.setStrip k x).strip j = st.strip j := by
  simp [State.strip, State.setStrip, tableGet_tableSet_other _ _ h]

theorem strip_setStrip (st : State) (k j : Nat) (x : Strip) :
    (st.setStrip k x).strip j = if j = k then x else st.strip j := by
  split
  · rename_i h
    subst h
    simp
  · exact strip_setStrip_other st x ‹_›

/-! ## Pixel buffers -/

/-- `MemWrite` keeps the canonical form. -/
theorem memWrite_wf (m : Memory) (a : Nat) (bs : List Byte) (h : m.wf) : (memWrite m a bs).wf := by
  induction bs generalizing m a with
  | nil => exact h
  | cons b bs ih => exact ih _ _ (tableSet_rising m a b h)

/-- A memory listed from an address on is in canonical form. -/
theorem memFrom_keys (a : Nat) (bs : List Byte) : (memFrom a bs).map Prod.fst = List.range' a bs.length := by
  induction bs generalizing a with
  | nil => rfl
  | cons b bs ih => simp [memFrom, ih, List.range'_succ]

theorem memFrom_wf (a : Nat) (bs : List Byte) : (memFrom a bs).wf := by
  simpa [Memory.wf, memFrom_keys] using List.pairwise_lt_range'

@[simp] theorem memFrom_bytes (a : Nat) (bs : List Byte) : (memFrom a bs).bytes = bs := by
  induction bs generalizing a with
  | nil => rfl
  | cons b bs ih => simpa [memFrom, Memory.bytes] using ih (a + 1)

/-- Reading any address after `MemWrite`: the written bytes inside, what was there before outside. -/
theorem memRead_memWrite (m : Memory) (a : Nat) (bs : List Byte) (j : Nat) :
    memRead (memWrite m a bs) j = if a ≤ j ∧ j < a + bs.length then bs[j - a]? else memRead m j := by
  induction bs generalizing m a with
  | nil =>
    simp [memWrite]
  | cons b bs ih =>
    rw [memWrite, ih]
    simp only [memRead, tableGet_tableSet, List.length_cons]
    by_cases hj : j = a
    · subst hj
      simp
    · by_cases hin : a + 1 ≤ j ∧ j < a + 1 + bs.length
      · rw [if_pos hin, if_pos (by omega)]
        obtain ⟨d, hd⟩ : ∃ d, j - a = d + 1 := ⟨j - a - 1, by omega⟩
        rw [hd, List.getElem?_cons_succ]
        congr 1
        omega
      · rw [if_neg hin, if_neg hj, if_neg (by omega)]

/-- `MemWrite` inside a buffer whose addresses are `0..n-1` changes no address. -/
theorem memWrite_keys (m : Memory) (a : Nat) (bs : List Byte) (n : Nat) (h : m.map Prod.fst = List.range n)
    (hfit : a + bs.length ≤ n) : (memWrite m a bs).map Prod.fst = List.range n := by
  induction bs generalizing m a with
  | nil => exact h
  | cons b bs ih =>
    simp only [List.length_cons] at hfit
    refine ih _ _ ?_ (by omega)
    rw [keys_tableSet_of_mem m a b (by rw [h]; exact List.pairwise_lt_range) (by rw [h]; simp; omega), h]

/-- A buffer whose addresses are `0..n-1` reads as its byte sequence. -/
theorem memRead_eq_bytes (m : Memory) (n : Nat) (h : m.map Prod.fst = List.range n) (a : Nat) :
    memRead m a = m.bytes[a]? := by
  have gen : ∀ (m : Memory) (c : Nat), m.map Prod.fst = List.range' c m.length → ∀ a,
      memRead m (c + a) = m.bytes[a]? := by
    intro m
    induction m with
    | nil => intro c _ a; rfl
    | cons e m ih =>
      obtain ⟨i, b⟩ := e
      intro c hm a
      simp only [List.map_cons, List.length_cons, List.range'_succ, List.cons.injEq] at hm
      obtain ⟨rfl, hm⟩ := hm
      cases a with
      | zero => simp [memRead, tableGet, Memory.bytes]
      | succ a =>
        have := ih (i + 1) hm a
        simp only [memRead, tableGet, Memory.bytes, List.map_cons, List.getElem?_cons_succ] at this ⊢
        rw [if_neg (by omega), ← this]
        congr 1
        omega
  have hl : m.length = n := by simpa using congrArg List.length h
  have := gen m 0 (by rw [h, hl, List.range_eq_range']) a
  simpa using this

end Sys2Proof.Machine
end

