-- ==== Sys2Proof/Laws/Ops.lean ====
section
/-! SUPPORT. Laws/Ops.lean: for each shared operation, once, everything it can do. -/

namespace Sys2Proof.Machine

/-- Only the environment's draws differ. -/
structure OnlyDraws (st t : State) : Prop where
  eq : t = { st with script := t.script, draws := t.draws }

namespace OnlyDraws

variable {st t u : State}

theorem refl (st : State) : OnlyDraws st st := ⟨rfl⟩

theorem trans (h : OnlyDraws st t) (g : OnlyDraws t u) : OnlyDraws st u := ⟨by rw [g.eq, h.eq]⟩

theorem cfg (h : OnlyDraws st t) : t.cfg = st.cfg := by rw [h.eq]
theorem sym (h : OnlyDraws st t) : t.sym = st.sym := by rw [h.eq]
theorem fault (h : OnlyDraws st t) : t.fault = st.fault := by rw [h.eq]
theorem refused (h : OnlyDraws st t) : t.refused = st.refused := by rw [h.eq]
theorem prog (h : OnlyDraws st t) : t.prog = st.prog := by rw [h.eq]
theorem pc (h : OnlyDraws st t) : t.pc = st.pc := by rw [h.eq]
theorem holding (h : OnlyDraws st t) : t.holding = st.holding := by rw [h.eq]
theorem chanPort (h : OnlyDraws st t) : t.chanPort = st.chanPort := by rw [h.eq]
theorem strips (h : OnlyDraws st t) : t.strips = st.strips := by rw [h.eq]
theorem hostResp (h : OnlyDraws st t) : t.hostResp = st.hostResp := by rw [h.eq]
theorem chanResp (h : OnlyDraws st t) : t.chanResp = st.chanResp := by rw [h.eq]
theorem agenda (h : OnlyDraws st t) : t.agenda = st.agenda := by rw [h.eq]
theorem waiting (h : OnlyDraws st t) : t.waiting = st.waiting := by rw [h.eq]
theorem strip (h : OnlyDraws st t) (k : Nat) : t.strip k = st.strip k := strip_congr h.strips k
theorem symbols (h : OnlyDraws st t) (v : Nat) : t.symbols v = st.symbols v := symbols_congr h.sym v

end OnlyDraws

/-! ## Draws (R8) -/

theorem draw_onlyDraws (st : State) : OnlyDraws st st.draw.2 := by
  unfold State.draw
  split <;> exact ⟨rfl⟩

/-- While the script lasts, a draw is its next number. -/
theorem draw_script {st : State} {n : Nat} {ns : List Nat} (h : st.script = n :: ns) :
    st.draw = (n, { st with script := ns }) := by
  simp [State.draw, h]

theorem drawBit_onlyDraws (st : State) : OnlyDraws st st.drawBit.2 := draw_onlyDraws st

theorem drawBit_script {st : State} {n : Nat} {ns : List Nat} (h : st.script = n :: ns) :
    st.drawBit = (n % 2 == 1, { st with script := ns }) := by
  simp [State.drawBit, draw_script h]

theorem ask_onlyDraws (st : State) (o : Oracle) : OnlyDraws st (st.ask o).2 := by
  cases o
  · exact .refl st
  · exact drawBit_onlyDraws st

@[simp] theorem ask_never (st : State) : st.ask .never = (true, st) := rfl

theorem drawBytes_onlyDraws (n : Nat) (st : State) : OnlyDraws st (st.drawBytes n).2 := by
  induction n generalizing st with
  | zero => exact .refl st
  | succ n ih => exact (draw_onlyDraws st).trans (ih _)

@[simp] theorem drawBytes_length (n : Nat) (st : State) : (st.drawBytes n).1.length = n := by
  induction n generalizing st with
  | zero => rfl
  | succ n ih => simp [State.drawBytes, ih]

/-! ## Acquisition (R161), waiting (R164), bounds (R115) -/

theorem acquire_onlyDraws (st : State) : OnlyDraws st st.acquire.2 := by
  have hb := ask_onlyDraws st st.cfg.alloc
  have hc := hb.trans (ask_onlyDraws (st.ask st.cfg.alloc).2 st.cfg.chan)
  have he := hc.trans (ask_onlyDraws ((st.ask st.cfg.alloc).2.ask st.cfg.chan).2 st.cfg.alloc)
  simp only [State.acquire]
  split
  · exact hb
  · split
    · exact hc
    · split <;> exact he

theorem acquire_never {st : State} (ha : st.cfg.alloc = .never) (hc : st.cfg.chan = .never) :
    st.acquire = (none, st) := by
  simp [State.acquire, ha, hc]

/-- Acquisition fails in `OutOfMemory` or `ChannelFailure` only. -/
theorem acquire_kind (st : State) :
    st.acquire.1 = none ∨ st.acquire.1 = some .outOfMemory ∨ st.acquire.1 = some .channelFailure := by
  simp only [State.acquire]
  split
  · simp
  · split
    · simp
    · split <;> simp

/-- The four things a wait can come to. -/
theorem waitDone_cases (st : State) (k t : Nat) :
    ((st.strip k).busy = true ∧ ∃ u, OnlyDraws st u ∧ st.waitDone k t = (.timeout, u)) ∨
    ((st.strip k).busy = true ∧ t ≠ 0 ∧
      ∃ u, OnlyDraws st u ∧ st.waitDone k t = (.hold, { u with holding := some k })) ∨
    ((st.strip k).busy = false ∧ (st.strip k).chErr = true ∧
      st.waitDone k t = (.channelFailure, st.setStrip k { st.strip k with chErr := false })) ∨
    ((st.strip k).busy = false ∧ (st.strip k).chErr = false ∧ st.waitDone k t = (.ok, st)) := by
  unfold State.waitDone
  by_cases hb : (st.strip k).busy = true
  · by_cases ht : t = 0
    · exact .inl ⟨hb, st, .refl st, by simp [hb, ht]⟩
    · by_cases hd : st.drawBit.1 = true
      · exact .inl ⟨hb, st.drawBit.2, drawBit_onlyDraws st, by simp [hb, ht, hd]⟩
      · exact .inr (.inl ⟨hb, ht, st.drawBit.2, drawBit_onlyDraws st, by simp [hb, ht, hd]⟩)
  · by_cases hc : (st.strip k).chErr = true
    · exact .inr (.inr (.inl ⟨by simpa using hb, hc, by simp [hb, hc]⟩))
    · exact .inr (.inr (.inr ⟨by simpa using hb, by simpa using hc, by simp [hb, hc]⟩))

/-- What the bounds of a range can come to. -/
theorem rangeError_cases (st : State) (k start len : Nat) :
    (start + len ≤ (st.strip k).conf.pixels ∧ len ≠ 0 ∧ st.rangeError k start len = (none, st)) ∨
    ((st.strip k).conf.pixels < start + len ∧
      ∃ u, OnlyDraws st u ∧ st.rangeError k start len = (some .outOfRange, u)) ∨
    (len = 0 ∧ ∃ u, OnlyDraws st u ∧ st.rangeError k start len = (some .invalidArgument, u)) := by
  unfold State.rangeError
  by_cases ho : (st.strip k).conf.pixels < start + len
  · by_cases hl : len = 0
    · by_cases hd : st.drawBit.1 = true
      · exact .inr (.inl ⟨ho, _, drawBit_onlyDraws st, by rw [if_pos ho, if_pos hl, if_pos hd]⟩)
      · exact .inr (.inr ⟨hl, _, drawBit_onlyDraws st, by rw [if_pos ho, if_pos hl, if_neg hd]⟩)
    · exact .inr (.inl ⟨ho, st, .refl st, by rw [if_pos ho, if_neg hl]⟩)
  · by_cases hl : len = 0
    · exact .inr (.inr ⟨hl, st, .refl st, by rw [if_neg ho, if_pos hl]⟩)
    · exact .inl ⟨by omega, hl, by rw [if_neg ho, if_neg hl]⟩

/-! ## Pixel writes (R114, R115) -/

/-- Writing pixels changes the buffer of its own strip and nothing else. -/
theorem writePixels_eq (st : State) (k i : Nat) (cs : List Color) (h : cs ≠ []) :
    ∃ m, st.writePixels k i cs = st.setStrip k { st.strip k with buf := m } := by
  have setTwice : ∀ (st : State) (x y : Strip), (st.setStrip k x).setStrip k y = st.setStrip k y := by
    intro st x y
    have : ∀ t : List (Nat × Strip), tableSet (tableSet t k x) k y = tableSet t k y := by
      intro t
      induction t with
      | nil => simp [tableSet]
      | cons e t ih =>
        obtain ⟨j, z⟩ := e
        simp only [tableSet]
        split
        · simp [tableSet]
        · split
          · simp [tableSet]
          · rename_i h1 h2
            simp [tableSet, h1, h2, ih]
    simp [State.setStrip, this]
  induction cs generalizing st i with
  | nil => exact absurd rfl h
  | cons c cs ih =>
    rw [State.writePixels]
    cases cs with
    | nil => exact ⟨_, rfl⟩
    | cons c' cs =>
      obtain ⟨m, hm⟩ := ih (st.setStrip k _) (i + 1) (by simp)
      exact ⟨m, by rw [hm, setTwice, strip_setStrip_same]⟩

end Sys2Proof.Machine
end

