-- ==== Sys2Proof/Laws/Operands.lean ====
section
/-! SUPPORT. Laws/Operands.lean: durations and color bytes. -/

namespace Sys2Proof

open Sys2Proof.Machine

/-- A duration fits its field (R70, R96). -/
theorem Config.durOk_iff (c : Config) (d : Nat) : c.durOk d = true ↔ 1 ≤ d ∧ d ≤ 2 ^ c.durWidth - 1 := by
  unfold Config.durOk Config.durMax
  exact decide_eq_true_iff

/-- A profile compiles when its five durations fit (R95, R96). -/
theorem Config.profileOk_iff (c : Config) (p : TimingProfile) :
    c.profileOk p = true ↔ ∀ d ∈ [c.ticks p.t0High, c.ticks p.t0Low, c.ticks p.t1High, c.ticks p.t1Low,
      (c.ticks p.tReset + 1) / 2], 1 ≤ d ∧ d ≤ 2 ^ c.durWidth - 1 := by
  simp only [Config.profileOk, Config.durations, Config.resetHalf, List.all_eq_true, Config.durOk_iff]

/-- The layout of a color has `cpp` bytes (R111, R28). -/
@[simp] theorem Config.layout_length (c : Config) (order : ColorOrder) (white : Bool) (x : Color) :
    (c.layout order white x).length = 3 + (if white then 1 else 0) := by
  cases order <;> cases white <;> rfl

end Sys2Proof

namespace Sys2Proof.Machine

@[simp] theorem colorBytes_length (st : State) (k : Nat) (x : Color) :
    (st.colorBytes k x).length = (st.strip k).conf.cpp :=
  Config.layout_length _ _ _ _

/-- A write to a strip's own buffer changes no color's bytes there. -/
@[simp] theorem colorBytes_withBuf (st : State) (k : Nat) (m : Memory) :
    (st.setStrip k { st.strip k with buf := m }).colorBytes k = st.colorBytes k := by
  funext x
  simp [State.colorBytes]

/-- A write to a strip's own buffer moves no pixel. -/
@[simp] theorem pixelAddress_withBuf (st : State) (k : Nat) (m : Memory) :
    (st.setStrip k { st.strip k with buf := m }).pixelAddress k = st.pixelAddress k := by
  funext i
  simp [State.pixelAddress]

/-- Writing pixels, as one write of their bytes: what every address of the buffer reads afterwards (R114, R115). -/
theorem memRead_writePixels (st : State) (k i : Nat) (cs : List Color) (a : Nat) :
    memRead ((st.writePixels k i cs).strip k).buf a =
      if st.pixelAddress k i ≤ a ∧ a < st.pixelAddress k (i + cs.length) then
        (cs.flatMap (st.colorBytes k))[a - st.pixelAddress k i]?
      else memRead (st.strip k).buf a := by
  induction cs generalizing st i with
  | nil =>
    rw [if_neg (by rw [List.length_nil, Nat.add_zero]; omega)]
    rfl
  | cons c cs ih =>
    have h1 : st.pixelAddress k (i + 1) = st.pixelAddress k i + (st.strip k).conf.cpp := Nat.mul_succ _ _
    have h2 : st.pixelAddress k (i + 1 + cs.length) = st.pixelAddress k (i + (cs.length + 1)) := by
      congr 1
      omega
    have h3 : st.pixelAddress k (i + 1) ≤ st.pixelAddress k (i + (cs.length + 1)) :=
      Nat.mul_le_mul_left _ (by omega)
    rw [State.writePixels, ih, colorBytes_withBuf, pixelAddress_withBuf, strip_setStrip_same, memRead_memWrite,
      colorBytes_length, List.length_cons, List.flatMap_cons, List.getElem?_append, colorBytes_length, h2]
    by_cases ha : st.pixelAddress k (i + 1) ≤ a ∧ a < st.pixelAddress k (i + (cs.length + 1))
    · rw [if_pos ha, if_pos (by omega), if_neg (by omega)]
      congr 1
      omega
    · rw [if_neg ha]
      by_cases hb : st.pixelAddress k i ≤ a ∧ a < st.pixelAddress k i + (st.strip k).conf.cpp
      · rw [if_pos hb, if_pos (by omega), if_pos (by omega)]
      · rw [if_neg hb, if_neg (by omega)]

end Sys2Proof.Machine
end

