-- ==== Sys2Proof/Laws/Encoder.lean ====
section
/-! SUPPORT. Laws/Encoder.lean: what the sub-encoders and ENCODE do on a strip: they emit the symbols still to come,
in order, as many as fit (R131 to R142). -/

namespace Sys2Proof.Machine

/-! ## The data cursor (R31) -/

@[simp] theorem setBitPosition_phase (e : Encoder) (p : Nat) : (setBitPosition e p).phase = e.phase := rfl
@[simp] theorem setBitPosition_rcount (e : Encoder) (p : Nat) : (setBitPosition e p).rcount = e.rcount := rfl

@[simp] theorem bitPosition_setBitPosition (e : Encoder) (p : Nat) : bitPosition (setBitPosition e p) = p := by
  simp [bitPosition, setBitPosition, Fin.ofNat]
  omega

/-- Two encoders with the same phase, position and reset cursor are equal. -/
theorem encoder_ext {e f : Encoder} (hp : e.phase = f.phase) (hb : bitPosition e = bitPosition f)
    (hr : e.rcount = f.rcount) : e = f := by
  obtain ⟨p, d, ⟨i, hi⟩, r⟩ := e
  obtain ⟨p', d', ⟨i', hi'⟩, r'⟩ := f
  simp only [bitPosition] at hb
  simp only at hp hr
  subst hp hr
  obtain rfl : d = d' := by omega
  obtain rfl : i = i' := by omega
  rfl

/-! ## The bits of a buffer (R132, R145) -/

@[simp] theorem byteSymbols_length (syms : SymbolSet) (b : Byte) : (byteSymbols syms b).length = 8 := by
  simp [byteSymbols]

/-- The data part of a stream has eight symbols a byte. -/
theorem dataStream_length (syms : SymbolSet) (bs : List Byte) : (bs.flatMap (byteSymbols syms)).length = 8 * bs.length := by
  induction bs with
  | nil => rfl
  | cons b bs ih =>
    rw [List.flatMap_cons, List.length_append, ih, byteSymbols_length, List.length_cons]
    omega

@[simp] theorem stream_length (syms : SymbolSet) (bs : List Byte) : (stream syms bs).length = 8 * bs.length + 1 := by
  rw [stream, List.length_append, dataStream_length]
  rfl

/-- Symbol `p` of the data part is that of bit `7 - p mod 8` of byte `p div 8` (R131, R145). -/
theorem dataStream_getElem? (syms : SymbolSet) (bs : List Byte) (p : Nat) :
    (bs.flatMap (byteSymbols syms))[p]? = (bs[p / 8]?).map fun b => bitSymbol syms b p := by
  induction bs generalizing p with
  | nil => simp
  | cons b bs ih =>
    rw [List.flatMap_cons, List.getElem?_append]
    split
    · rename_i h
      rw [byteSymbols_length] at h
      have hd : p / 8 = 0 := by omega
      have hm : p % 8 = p := by omega
      rw [hd]
      simp [byteSymbols, bitSymbol, hm, BitVec.getMsbD, h]
    · rename_i h
      rw [byteSymbols_length] at h ⊢
      have hd : p / 8 = (p - 8) / 8 + 1 := by omega
      have hm : p % 8 = (p - 8) % 8 := by omega
      rw [ih, hd, List.getElem?_cons_succ]
      simp [bitSymbol, hm]

/-- In a buffer whose addresses are `0..n-1`, the data symbols are the stretch of the stream they name. -/
theorem dataSymbols_eq (syms : SymbolSet) (buf : Memory) (n : Nat) (h : buf.map Prod.fst = List.range n) (p k : Nat)
    (hk : p + k ≤ 8 * n) :
    dataSymbols syms buf p k = .ok (((buf.bytes.flatMap (byteSymbols syms)).drop p).take k) := by
  have hn : buf.bytes.length = n := by simpa [Memory.bytes] using congrArg List.length h
  induction k generalizing p with
  | zero => simp [dataSymbols]
  | succ k ih =>
    have hp : p / 8 < buf.bytes.length := by omega
    have hlen : p < (buf.bytes.flatMap (byteSymbols syms)).length := by rw [dataStream_length]; omega
    have hget := dataStream_getElem? syms buf.bytes p
    rw [List.getElem?_eq_getElem hp, List.getElem?_eq_getElem hlen, Option.map_some, Option.some.injEq] at hget
    rw [dataSymbols, memRead_eq_bytes buf n h, List.getElem?_eq_getElem hp]
    simp only [ih (p + 1) (by omega)]
    rw [List.drop_eq_getElem_cons hlen, List.take_succ_cons, hget]

/-- The same with the stream, reset symbol included. -/
theorem dataSymbols_stream (x : Strip) (n : Nat) (h : x.buf.map Prod.fst = List.range n) (p k : Nat)
    (hk : p + k ≤ 8 * n) : dataSymbols x.conf.syms x.buf p k = .ok ((x.stream.drop p).take k) := by
  have hn : x.buf.bytes.length = n := by simpa [Memory.bytes] using congrArg List.length h
  rw [dataSymbols_eq _ _ n h p k hk, Strip.stream, stream]
  rw [List.drop_append_of_le_length (by rw [dataStream_length]; omega), List.take_append_of_le_length]
  rw [List.length_drop, dataStream_length]
  omega

/-! ## ENCODE (R140) -/

/-- ENCODE in a session: it emits the symbols still to come, as many as fit; `COMPLETE` when they all did, `FULL`
when no place is left. -/
theorem encodeStrip_eq {slotCap free n : Nat} {x : Strip} (hpres : x.present = true) (hbusy : x.busy = true)
    (hdone : x.encDone = false) (hfit : free + x.slot.length ≤ slotCap) (hbuf : x.buf.map Prod.fst = List.range n)
    (hpos : bitPosition x.enc ≤ 8 * n) :
    encodeStrip slotCap x free =
      .ok (x.pending.take free)
        { complete := decide (x.pending.length ≤ free), full := decide (free ≤ x.pending.length) }
        { x with slot := x.slot ++ x.pending.take free, enc := encoderAfter (8 * n) x.enc free } := by
  have hlen : x.buf.length = n := by simpa using congrArg List.length hbuf
  have hstream : x.stream.length = 8 * n + 1 := by simp [Strip.stream, Memory.bytes, hlen]
  have hdata : (x.buf.bytes.flatMap (byteSymbols x.conf.syms)).length = 8 * n := by
    rw [dataStream_length]
    simp [Memory.bytes, hlen]
  have hlast : x.stream.drop (8 * n) = [x.conf.syms.reset] := by
    rw [Strip.stream, stream, List.drop_append_of_le_length hdata.ge, List.drop_eq_nil_of_le hdata.le]
    rfl
  rw [encodeStrip, if_pos (by simp [hpres, hbusy, hdone, hfit])]
  cases hph : x.enc.phase with
  | sendReset =>
    have hpend : x.pending = [x.conf.syms.reset] := by simp [Strip.pending, hdone, hph]
    by_cases hf : 1 ≤ free
    · obtain ⟨f, rfl⟩ : ∃ f, free = f + 1 := ⟨free - 1, by omega⟩
      simp [encodeReset, rstEncode, hpend, subStatus, completeFlag, fullFlag, setPhase, slotWrite, encoderAfter, hph]
    · obtain rfl : free = 0 := by omega
      simp [encodeReset, rstEncode, hpend, subStatus, completeFlag, fullFlag, encoderAfter, hph]
  | sendData =>
    have hpend : x.pending = x.stream.drop (bitPosition x.enc) := by simp [Strip.pending, hdone, hph]
    have hplen : x.pending.length = 8 * n + 1 - bitPosition x.enc := by rw [hpend, List.length_drop, hstream]
    have hk : bitPosition x.enc + min (8 * n - bitPosition x.enc) free ≤ 8 * n := by omega
    simp only [dataEncode, hlen, dataSymbols_stream x n hbuf _ _ hk]
    by_cases hlt : bitPosition x.enc + free ≤ 8 * n
    · -- the slot ends before or with the data phase
      have hmin : min (8 * n - bitPosition x.enc) free = free := by omega
      have h1 : ¬ x.pending.length ≤ free := by omega
      have h2 : free ≤ x.pending.length := by omega
      rw [hmin]
      simp only [subStatus, completeFlag, fullFlag, Nat.sub_self, decide_true, if_true, h1, h2, decide_false,
        dataStopStatus, ← hpend]
      congr 1
      by_cases heq : bitPosition x.enc + free = 8 * n
      · have : 8 * n - bitPosition x.enc - free = 0 := by omega
        simp [this, encoderAfter, hph, heq, setPhase, slotWrite]
      · have h0 : ¬ 8 * n - bitPosition x.enc - free = 0 := by omega
        have hl : bitPosition x.enc + free < 8 * n := by omega
        simp [h0, encoderAfter, hph, hl, slotWrite]
    · -- the data phase is over and room remains
      have hmin : min (8 * n - bitPosition x.enc) free = 8 * n - bitPosition x.enc := by omega
      have h1 : x.pending.length ≤ free := by omega
      have hfull : (free ≤ x.pending.length) ↔ free - (8 * n - bitPosition x.enc) - 1 = 0 := by omega
      have hnf : ¬ free - (8 * n - bitPosition x.enc) = 0 := by omega
      have hout : ((x.stream.drop (bitPosition x.enc)).take (8 * n - bitPosition x.enc)).length
          = 8 * n - bitPosition x.enc := by rw [List.length_take, List.length_drop, hstream]; omega
      have happ : (x.stream.drop (bitPosition x.enc)).take (8 * n - bitPosition x.enc) ++ [x.conf.syms.reset]
          = x.pending := by
        rw [← hlast, hpend, show 8 * n = bitPosition x.enc + (8 * n - bitPosition x.enc) by omega,
          Nat.add_sub_cancel_left, ← List.drop_drop, List.take_append_drop]
      rw [hmin]
      simp only [subStatus, completeFlag, fullFlag, Nat.sub_self, decide_true, if_true, hnf, decide_false, hout,
        encodeReset, rstEncode, setPhase, slotWrite]
      rw [if_neg (by simp), if_pos (by omega)]
      simp only [happ, List.take_of_length_le h1, List.append_assoc, if_true, h1, decide_true, hfull]
      have hn1 : ¬ bitPosition x.enc + free < 8 * n := by omega
      have hn2 : ¬ bitPosition x.enc + free = 8 * n := by omega
      simp [encoderAfter, hph, hn1, hn2, setBitPosition]

/-! ## The symbols still to come after an ENCODE (R139, R148) -/

theorem pending_of_encDone {x : Strip} (h : x.encDone = true) : x.pending = [] := by simp [Strip.pending, h]

/-- Before the session completes at least the reset symbol is still to come. -/
theorem pending_length_pos {n : Nat} {x : Strip} (hdone : x.encDone = false) (hbuf : x.buf.map Prod.fst = List.range n)
    (hpos : bitPosition x.enc ≤ 8 * n) : 1 ≤ x.pending.length := by
  have hlen : x.buf.length = n := by simpa using congrArg List.length hbuf
  have hstream : x.stream.length = 8 * n + 1 := by simp [Strip.stream, Memory.bytes, hlen]
  cases hph : x.enc.phase with
  | sendReset => simp [Strip.pending, hdone, hph]
  | sendData =>
    simp only [Strip.pending, hdone, hph, Bool.false_eq_true, if_false, List.length_drop, hstream]
    omega

/-- An ENCODE takes what it emitted off the symbols still to come. -/
theorem pending_encoderAfter {n : Nat} {x : Strip} (hdone : x.encDone = false)
    (hbuf : x.buf.map Prod.fst = List.range n) (hpos : bitPosition x.enc ≤ 8 * n) (free : Nat)
    (slot : List PulseSymbol) :
    Strip.pending { x with
        slot := slot, enc := encoderAfter (8 * n) x.enc free, encDone := decide (x.pending.length ≤ free) }
      = x.pending.drop free := by
  have hlen : x.buf.length = n := by simpa using congrArg List.length hbuf
  have hstream : x.stream.length = 8 * n + 1 := by simp [Strip.stream, Memory.bytes, hlen]
  have hlast : x.stream.drop (8 * n) = [x.conf.syms.reset] := by
    have hdata : (x.buf.bytes.flatMap (byteSymbols x.conf.syms)).length = 8 * n := by
      rw [dataStream_length]
      simp [Memory.bytes, hlen]
    rw [Strip.stream, stream, List.drop_append_of_le_length hdata.ge, List.drop_eq_nil_of_le hdata.le]
    rfl
  by_cases hle : x.pending.length ≤ free
  · rw [List.drop_eq_nil_of_le hle]
    exact pending_of_encDone (by simpa using hle)
  · cases hph : x.enc.phase with
    | sendReset =>
      have hpend : x.pending = [x.conf.syms.reset] := by simp [Strip.pending, hdone, hph]
      obtain rfl : free = 0 := by simpa [hpend] using hle
      simp [hpend, encoderAfter, hph]
      simp [Strip.pending, hph]
    | sendData =>
      have hpend : x.pending = x.stream.drop (bitPosition x.enc) := by simp [Strip.pending, hdone, hph]
      have hplen : x.pending.length = 8 * n + 1 - bitPosition x.enc := by rw [hpend, List.length_drop, hstream]
      rw [Strip.pending, if_neg (by simpa using hle)]
      by_cases hlt : bitPosition x.enc + free < 8 * n
      · simp only [encoderAfter, hph, if_pos hlt, setBitPosition_phase, bitPosition_setBitPosition]
        rw [hpend, List.drop_drop]
        rfl
      · have heq : bitPosition x.enc + free = 8 * n := by omega
        simp only [encoderAfter, hph, if_neg hlt, if_pos heq]
        rw [hpend, List.drop_drop, heq, hlast]

end Sys2Proof.Machine
end

