-- ==== Sys2Proof/Laws/Commands.lean ====
section
/-! SUPPORT. Laws/Commands.lean: for each command, once, everything its meaning can answer. -/

namespace Sys2Proof.Machine

/-- COMPILE: an unknown variant, a compiled variant, or a duration out of range (R95, R96). -/
theorem execCompile_cases (v : Byte) (st : State) :
    (tableGet st.cfg.variants v.toNat = none ∧ execCompile v st = st.fail .invalidArgument) ∨
    (∃ p, tableGet st.cfg.variants v.toNat = some p ∧ st.cfg.profileOk p = true ∧
      execCompile v st = State.finish { st with sym := tableSet st.sym v.toNat (st.cfg.symbolSet p) } .ok) ∨
    (∃ p, tableGet st.cfg.variants v.toNat = some p ∧ st.cfg.profileOk p = false ∧
      execCompile v st = st.raise .symRange v.toNat) := by
  unfold execCompile
  cases hp : st.cfg.profile v with
  | none => exact .inl ⟨hp, rfl⟩
  | some p =>
    cases hok : st.cfg.profileOk p with
    | true => exact .inr (.inl ⟨p, hp, hok, by simp [hok]⟩)
    | false => exact .inr (.inr ⟨p, hp, hok, by simp [hok]⟩)

/-- INIT: the checks in their order, then a refused acquisition or a created strip (R161, R197). -/
theorem execInit_cases (s v : Byte) (length : Word32) (white : Bool) (st : State) :
    ((st.strip s.toNat).present = true ∧ execInit s v length white st = st.raise .reinit s.toNat) ∨
    ((st.strip s.toNat).present = false ∧ (length.toNat = 0 ∨ tableGet st.cfg.variants v.toNat = none) ∧
      execInit s v length white st = st.fail .invalidArgument) ∨
    ((st.strip s.toNat).present = false ∧ length.toNat ≠ 0 ∧ (tableGet st.cfg.variants v.toNat).isSome = true ∧
      st.symbols v.toNat = none ∧ execInit s v length white st = st.raise .notCompiled v.toNat) ∨
    ((st.strip s.toNat).present = false ∧ length.toNat ≠ 0 ∧ (tableGet st.cfg.variants v.toNat).isSome = true ∧
      ∃ syms, st.symbols v.toNat = some syms ∧
      ((∃ e u, (e = .outOfMemory ∨ e = .channelFailure) ∧ OnlyDraws st u ∧ st.acquire = (some e, u) ∧
          execInit s v length white st = u.fail e) ∨
       (∃ u, OnlyDraws st u ∧ st.acquire = (none, u) ∧
          execInit s v length white st =
            State.finish
              ((u.drawBytes (StripConf.size ⟨v, length.toNat, white, syms⟩)).2.setStrip s.toNat
                (initStrip (st.strip s.toNat) ⟨v, length.toNat, white, syms⟩
                  (u.drawBytes (StripConf.size ⟨v, length.toNat, white, syms⟩)).1)) .ok))) := by
  unfold execInit
  cases hpr : (st.strip s.toNat).present with
  | true => exact .inl ⟨rfl, by simp⟩
  | false =>
    refine .inr ?_
    by_cases hl : length.toNat = 0
    · exact .inl ⟨rfl, .inl hl, by simp [hl]⟩
    cases hv : tableGet st.cfg.variants v.toNat with
    | none => exact .inl ⟨rfl, .inr rfl, by simp [hl, Config.profile, hv]⟩
    | some p =>
      refine .inr ?_
      cases hs : st.symbols v.toNat with
      | none => exact .inl ⟨rfl, hl, rfl, rfl, by simp [hl, Config.profile, hv]⟩
      | some syms =>
        refine .inr ⟨rfl, hl, rfl, syms, rfl, ?_⟩
        have hd := acquire_onlyDraws st
        have hk := acquire_kind st
        rcases h : st.acquire with ⟨e, u⟩
        rw [h] at hd hk
        cases e with
        | some e =>
          refine .inl ⟨e, u, ?_, hd, rfl, by simp [hl, Config.profile, hv]⟩
          simpa using hk
        | none => exact .inr ⟨u, hd, rfl, by simp [hl, Config.profile, hv]⟩

/-- SET_PIXEL: the checks in their order, then the write (R114, R197). -/
theorem execSetPixel_cases (s : Byte) (index : Word32) (c : Color) (st : State) :
    ((st.strip s.toNat).present = false ∧ execSetPixel s index c st = st.fail .invalidArgument) ∨
    ((st.strip s.toNat).present = true ∧ (st.strip s.toNat).conf.pixels ≤ index.toNat ∧
      execSetPixel s index c st = st.fail .outOfRange) ∨
    ((st.strip s.toNat).present = true ∧ index.toNat < (st.strip s.toNat).conf.pixels ∧
      (st.strip s.toNat).busy = true ∧ execSetPixel s index c st = st.raise .bufWriteBusy s.toNat) ∨
    ((st.strip s.toNat).present = true ∧ index.toNat < (st.strip s.toNat).conf.pixels ∧
      (st.strip s.toNat).busy = false ∧
      execSetPixel s index c st = State.finish (st.writePixels s.toNat index.toNat [c]) .ok) := by
  unfold execSetPixel
  cases hp : (st.strip s.toNat).present <;> cases hb : (st.strip s.toNat).busy <;>
    by_cases hi : (st.strip s.toNat).conf.pixels ≤ index.toNat
  all_goals simp [hi]
  all_goals omega

/-- SET_PIXELS and FILL: the checks in their order, then the write (R115, R116, R197). -/
theorem writeRange_cases (st : State) (k start len : Nat) (colors : List Color) :
    ((st.strip k).present = false ∧ st.writeRange k start len colors = st.fail .invalidArgument) ∨
    ((st.strip k).present = true ∧ (st.strip k).conf.pixels < start + len ∧
      ∃ u, OnlyDraws st u ∧ st.writeRange k start len colors = u.fail .outOfRange) ∨
    ((st.strip k).present = true ∧ len = 0 ∧
      ∃ u, OnlyDraws st u ∧ st.writeRange k start len colors = u.fail .invalidArgument) ∨
    ((st.strip k).present = true ∧ start + len ≤ (st.strip k).conf.pixels ∧ len ≠ 0 ∧ (st.strip k).busy = true ∧
      st.writeRange k start len colors = st.raise .bufWriteBusy k) ∨
    ((st.strip k).present = true ∧ start + len ≤ (st.strip k).conf.pixels ∧ len ≠ 0 ∧ (st.strip k).busy = false ∧
      st.writeRange k start len colors = State.finish (st.writePixels k start colors) .ok) := by
  unfold State.writeRange
  cases hp : (st.strip k).present with
  | false => exact .inl ⟨rfl, by simp⟩
  | true =>
    refine .inr ?_
    obtain ⟨h1, h2, h⟩ | ⟨h1, u, hu, h⟩ | ⟨h1, u, hu, h⟩ := rangeError_cases st k start len
    · cases hb : (st.strip k).busy with
      | true => exact .inr (.inr (.inl ⟨rfl, h1, h2, rfl, by simp [h, hb]⟩))
      | false => exact .inr (.inr (.inr ⟨rfl, h1, h2, rfl, by simp [h, hb]⟩))
    · exact .inl ⟨rfl, h1, u, hu, by simp [h]⟩
    · exact .inr (.inl ⟨rfl, h1, u, hu, by simp [h]⟩)

/-- WAIT: the check, then what the wait comes to (R164, R165). -/
theorem execWait_cases (s : Byte) (timeout : Word32) (st : State) :
    ((st.strip s.toNat).present = false ∧ execWait s timeout st = st.fail .invalidArgument) ∨
    ((st.strip s.toNat).present = true ∧ (st.strip s.toNat).busy = true ∧
      ∃ u, OnlyDraws st u ∧ execWait s timeout st = u.fail .timeout) ∨
    ((st.strip s.toNat).present = true ∧ (st.strip s.toNat).busy = true ∧ timeout.toNat ≠ 0 ∧
      ∃ u, OnlyDraws st u ∧ execWait s timeout st = .next { u with holding := some s.toNat }) ∨
    ((st.strip s.toNat).present = true ∧ (st.strip s.toNat).busy = false ∧ (st.strip s.toNat).chErr = true ∧
      execWait s timeout st =
        (st.setStrip s.toNat { st.strip s.toNat with chErr := false }).fail .channelFailure) ∨
    ((st.strip s.toNat).present = true ∧ (st.strip s.toNat).busy = false ∧ (st.strip s.toNat).chErr = false ∧
      execWait s timeout st = st.finish .ok) := by
  unfold execWait
  cases hp : (st.strip s.toNat).present with
  | false => exact .inl ⟨rfl, by simp⟩
  | true =>
    refine .inr ?_
    obtain ⟨hb, u, hu, h⟩ | ⟨hb, ht, u, hu, h⟩ | ⟨hb, hc, h⟩ | ⟨hb, hc, h⟩ :=
      waitDone_cases st s.toNat timeout.toNat
    · exact .inl ⟨rfl, hb, u, hu, by simp [h]⟩
    · exact .inr (.inl ⟨rfl, hb, ht, u, hu, by simp [h]⟩)
    · exact .inr (.inr (.inl ⟨rfl, hb, hc, by simp [h]⟩))
    · exact .inr (.inr (.inr ⟨rfl, hb, hc, by simp [h]⟩))

/-- FLUSH: the check, then what the wait comes to, then a refused or a started session (R164, R167). -/
theorem execFlush_cases (s : Byte) (st : State) :
    ((st.strip s.toNat).present = false ∧ execFlush s st = st.fail .invalidArgument) ∨
    ((st.strip s.toNat).present = true ∧ (st.strip s.toNat).busy = true ∧
      ∃ u, OnlyDraws st u ∧ execFlush s st = u.fail .timeout) ∨
    ((st.strip s.toNat).present = true ∧ (st.strip s.toNat).busy = true ∧ st.cfg.flushTimeout ≠ 0 ∧
      ∃ u, OnlyDraws st u ∧ execFlush s st = .next { u with holding := some s.toNat }) ∨
    ((st.strip s.toNat).present = true ∧ (st.strip s.toNat).busy = false ∧ (st.strip s.toNat).chErr = true ∧
      execFlush s st = (st.setStrip s.toNat { st.strip s.toNat with chErr := false }).fail .channelFailure) ∨
    ((st.strip s.toNat).present = true ∧ (st.strip s.toNat).busy = false ∧ (st.strip s.toNat).chErr = false ∧
      (st.ask st.cfg.chan).1 = false ∧ execFlush s st = (st.ask st.cfg.chan).2.fail .channelFailure) ∨
    ((st.strip s.toNat).present = true ∧ (st.strip s.toNat).busy = false ∧ (st.strip s.toNat).chErr = false ∧
      (st.ask st.cfg.chan).1 = true ∧
      execFlush s st =
        State.finish ((st.ask st.cfg.chan).2.setStrip s.toNat (startSession (st.strip s.toNat))) .ok) := by
  unfold execFlush
  cases hp : (st.strip s.toNat).present with
  | false => exact .inl ⟨rfl, by simp⟩
  | true =>
    refine .inr ?_
    obtain ⟨hb, u, hu, h⟩ | ⟨hb, ht, u, hu, h⟩ | ⟨hb, hc, h⟩ | ⟨hb, hc, h⟩ :=
      waitDone_cases st s.toNat st.cfg.flushTimeout
    · exact .inl ⟨rfl, hb, u, hu, by simp [h]⟩
    · exact .inr (.inl ⟨rfl, hb, ht, u, hu, by simp [h]⟩)
    · exact .inr (.inr (.inl ⟨rfl, hb, hc, by simp [h]⟩))
    · cases ha : (st.ask st.cfg.chan).1 with
      | false => exact .inr (.inr (.inr (.inl ⟨rfl, hb, hc, rfl, by simp [h, ha]⟩)))
      | true => exact .inr (.inr (.inr (.inr ⟨rfl, hb, hc, rfl, by simp [h, ha]⟩)))

/-- FREE: the checks, then the release, whatever the channel reports (R168). -/
theorem execFree_cases (s : Byte) (st : State) :
    ((st.strip s.toNat).present = false ∧ execFree s st = st.fail .invalidArgument) ∨
    ((st.strip s.toNat).present = true ∧ (st.strip s.toNat).busy = true ∧
      execFree s st = st.raise .freeBusy s.toNat) ∨
    ((st.strip s.toNat).present = true ∧ (st.strip s.toNat).busy = false ∧
      execFree s st =
        State.finish
          { (st.ask st.cfg.chan).2.setStrip s.toNat
              (freeStrip (st.strip s.toNat) (st.ask st.cfg.chan).2.draws) with
            draws := (st.ask st.cfg.chan).2.draws + 1 }
          (if (st.ask st.cfg.chan).1 then .ok else .err .channelFailure)) := by
  unfold execFree
  cases hp : (st.strip s.toNat).present with
  | false => exact .inl ⟨rfl, by simp⟩
  | true =>
    cases hb : (st.strip s.toNat).busy with
    | true => exact .inr (.inl ⟨rfl, rfl, by simp⟩)
    | false =>
      refine .inr (.inr ⟨rfl, rfl, ?_⟩)
      cases ha : (st.ask st.cfg.chan).1 <;> simp [ha, State.fail]

/-- ENC_RESET: the checks, then the encoder in its initial state (R143). -/
theorem execEncReset_cases (s : Byte) (st : State) :
    ((st.strip s.toNat).present = false ∧ execEncReset s st = st.fail .invalidArgument) ∨
    ((st.strip s.toNat).present = true ∧ (st.strip s.toNat).busy = true ∧
      execEncReset s st = st.raise .encResetBusy s.toNat) ∨
    ((st.strip s.toNat).present = true ∧ (st.strip s.toNat).busy = false ∧
      execEncReset s st =
        State.finish
          (st.setStrip s.toNat
            { st.strip s.toNat with enc := { phase := .sendData, dbyte := 0, dbit := 0, rcount := 0 } }) .ok) := by
  unfold execEncReset
  cases hp : (st.strip s.toNat).present <;> cases hb : (st.strip s.toNat).busy
  all_goals simp [dataReset, rstReset]

/-- One encoder invocation: refused outside a session, stopped at an address that does not exist, or done (R140). -/
theorem invokeEncode_cases (st : State) (k free : Nat) :
    st.invokeEncode k free = st.refuse .encodeOutsideSession ∨
    (∃ a, encodeStrip st.cfg.slotCap (st.strip k) free = .missing a ∧
      st.invokeEncode k free = .fault (.noSuchByte a)) ∨
    (∃ out status x, encodeStrip st.cfg.slotCap (st.strip k) free = .ok out status x ∧
      st.invokeEncode k free =
        .next { st.setStrip k (noteStatus x status) with chanResp := st.chanResp ++ [.encode status out] }) := by
  unfold State.invokeEncode
  cases h : encodeStrip st.cfg.slotCap (st.strip k) free with
  | outside => exact .inl rfl
  | missing a => exact .inr (.inl ⟨a, rfl, rfl⟩)
  | ok out status x => exact .inr (.inr ⟨out, status, x, rfl, rfl⟩)

end Sys2Proof.Machine
end

