-- ==== Sys2Proof/Laws/Decode.lean ====
section
/-! SUPPORT. Laws/Decode.lean: the little-endian `u32` fields and the color lists of the encoding, read and written
(R73, R75). -/

namespace Sys2Proof

/-- The bits of a `u32` read from four bytes (R73). -/
theorem readU32_getLsbD (b0 b1 b2 b3 : Byte) (i : Nat) :
    (readU32 b0 b1 b2 b3).getLsbD i =
      if i < 8 then b0.getLsbD i
      else if i < 16 then b1.getLsbD (i - 8)
      else if i < 24 then b2.getLsbD (i - 16)
      else b3.getLsbD (i - 24) := by
  have h : (b3 ++ b2 ++ b1 ++ b0).getLsbD i =
      if i < 8 then b0.getLsbD i
      else if i < 16 then b1.getLsbD (i - 8)
      else if i < 24 then b2.getLsbD (i - 16)
      else b3.getLsbD (i - 24) := by
    simp only [BitVec.getLsbD_append, Nat.sub_sub]
    by_cases h1 : i < 8
    · simp [h1]
    by_cases h2 : i < 16
    · simp [h1, h2, show i - 8 < 8 by omega]
    by_cases h3 : i < 24
    · simp [h1, h2, h3, show ¬ i - 8 < 8 by omega, show i - 16 < 8 by omega]
    · simp [h1, h2, h3, show ¬ i - 8 < 8 by omega, show ¬ i - 16 < 8 by omega]
  exact h

/-- Reading the bytes a `u32` was written to gives it back. -/
theorem readU32_writeU32 (w : Word32) :
    readU32 (w.extractLsb' 0 8) (w.extractLsb' 8 8) (w.extractLsb' 16 8) (w.extractLsb' 24 8) = w := by
  apply BitVec.eq_of_getLsbD_eq
  intro i hi
  rw [readU32_getLsbD]
  simp only [BitVec.getLsbD_extractLsb']
  split
  · simp [*]
  split
  · simp [show i - 8 < 8 by omega, show 8 + (i - 8) = i by omega]
  split
  · simp [show i - 16 < 8 by omega, show 16 + (i - 16) = i by omega]
  · simp [show i - 24 < 8 by omega, show 24 + (i - 24) = i by omega]

/-- Writing the `u32` read from four bytes gives those bytes. -/
theorem writeU32_readU32 (b0 b1 b2 b3 : Byte) : writeU32 (readU32 b0 b1 b2 b3) = [b0, b1, b2, b3] := by
  have h : ∀ (k : Nat) (x : Byte), (∀ i, i < 8 → (readU32 b0 b1 b2 b3).getLsbD (k + i) = x.getLsbD i) →
      (readU32 b0 b1 b2 b3).extractLsb' k 8 = x := by
    intro k x h
    apply BitVec.eq_of_getLsbD_eq
    intro i hi
    simp [hi, h]
  unfold writeU32
  rw [h 0 b0, h 8 b1, h 16 b2, h 24 b3]
  all_goals
    intro i hi
    rw [readU32_getLsbD]
    repeat' split
    all_goals first | omega | skip
    all_goals (congr 1; omega)

/-- A list of colors is read back from its bytes, and the rest of the stream is left. -/
theorem decodeColors_bytes (cs : List Color) (rest : List Byte) :
    decodeColors cs.length (cs.flatMap Color.bytes ++ rest) = some (cs, rest) := by
  induction cs with
  | nil => rfl
  | cons c cs ih => simp [Color.bytes, decodeColors, ih]

/-- What is read as `n` colors begins with their bytes. -/
theorem decodeColors_eq_some {n : Nat} {bs rest : List Byte} {cs : List Color}
    (h : decodeColors n bs = some (cs, rest)) : bs = cs.flatMap Color.bytes ++ rest ∧ cs.length = n := by
  induction n generalizing bs cs with
  | zero =>
    simp only [decodeColors, Option.some.injEq, Prod.mk.injEq] at h
    obtain ⟨rfl, rfl⟩ := h
    simp
  | succ n ih =>
    match bs, h with
    | r :: g :: b :: bs, h =>
      simp only [decodeColors, Option.map_eq_some_iff, Prod.mk.injEq] at h
      obtain ⟨⟨cs', r'⟩, h1, rfl, rfl⟩ := h
      obtain ⟨h3, h4⟩ := ih h1
      simp [Color.bytes, h3, h4]
    | [], h => simp [decodeColors] at h
    | [_], h => simp [decodeColors] at h
    | [_, _], h => simp [decodeColors] at h

/-- A command is accepted only with a strip id in range (R80). -/
theorem acceptStrip_eq_ok {m : Nat} {s : Byte} {i j : Instr} {rest rest' : List Byte}
    (h : acceptStrip m s i rest = .ok (j, rest')) : stripIdOk m s = true ∧ i = j ∧ rest = rest' := by
  unfold acceptStrip at h
  split at h
  · cases h
    exact ⟨‹_›, rfl, rfl⟩
  · cases h

end Sys2Proof
end

