-- ==== Sys2Proof/Laws/Exec.lean ====
section
/-! SUPPORT. Laws/Exec.lean: everything `exec` can do, said once. -/

namespace Sys2Proof.Machine

/-! ## How a host command ends (R22) -/

/-- The command ended with the response `r`; the symbol table, the strips and the draws may differ. -/
structure Ends (st t : State) (r : Response) : Prop where
  eq : t = { st with
    sym := t.sym, strips := t.strips, pc := st.pc + 1, holding := none, hostResp := st.hostResp ++ [r]
    script := t.script, draws := t.draws }

variable {st t u : State} {r : Response} {i : Instr}

theorem Ends.hostEnds (h : Ends st t r) : HostEnds st t r := by
  rw [h.eq]
  simp [HostEnds, SameSurroundings]

/-- `finish` in a state in which the symbol table, the strips and the draws may differ. -/
theorem ends_finish (h : u = { st with sym := u.sym, strips := u.strips, script := u.script, draws := u.draws })
    (ht : u.finish r = .next t) : Ends st t r ∧ t.sym = u.sym ∧ t.strips = u.strips := by
  unfold State.finish at ht
  cases ht
  exact ⟨⟨by rw [h]⟩, rfl, rfl⟩

/-- `fail` after draws only. -/
theorem ends_fail (h : OnlyDraws st u) {e : ErrorKind} (ht : u.fail e = .next t) :
    Ends st t (.err e) ∧ t.sym = st.sym ∧ t.strips = st.strips := by
  obtain ⟨a, b, c⟩ := ends_finish (st := st) (by rw [h.eq]) ht
  exact ⟨a, by rw [b, h.sym], by rw [c, h.strips]⟩

/-! ## Writing one strip -/

theorem strip_of_tableSet {k : Nat} {x : Strip} (h : t.strips = tableSet st.strips k x) (j : Nat) :
    t.strip j = if j = k then x else st.strip j := by
  have hj : t.strip j = (st.setStrip k x).strip j := strip_congr (by rw [h]; rfl) j
  rw [hj, strip_setStrip]

/-- Writing pixels writes the strip table only. -/
theorem writePixels_strips (st : State) (k i : Nat) (cs : List Color) :
    st.writePixels k i cs = { st with strips := (st.writePixels k i cs).strips } := by
  induction cs generalizing st i with
  | nil => rfl
  | cons c cs ih =>
    rw [State.writePixels, ih]
    rfl

/-! ## exec -/

/-- Everything a command that answers a next state can have done. -/
inductive ExecCase (i : Instr) (st t : State) : Prop
  /-- It raised its fault and changed nothing else (R193). -/
  | faults (f : FaultRecord) (eq : t = { st with fault := some f }) (pc : f.pc = st.pc) (fits : FaultFits i f)
  /-- ENCODE outside a session (R195). -/
  | refuses (s : Byte) (space : Word32) (instr : i = .encode s space)
      (eq : t = { st with refused := some { reason := .encodeOutsideSession, pc := st.pc } })
  /-- WAIT or FLUSH holds (R164). -/
  | holds (s : Byte) (instr : (∃ timeout, i = .wait s timeout) ∨ i = .flush s) (u : State) (draws : OnlyDraws st u)
      (present : (st.strip s.toNat).present = true) (busy : (st.strip s.toNat).busy = true)
      (eq : t = { u with holding := some s.toNat })
  /-- It returned an error and wrote nothing (R192). -/
  | fails (e : ErrorKind) (may : mayReturn i e = true) (ends : Ends st t (.err e)) (sym : t.sym = st.sym)
      (strips : t.strips = st.strips)
  /-- COMPILE wrote its variant's symbols (R95). -/
  | compiles (v : Byte) (p : TimingProfile) (instr : i = .compile v)
      (known : tableGet st.cfg.variants v.toNat = some p) (fits : st.cfg.profileOk p = true) (ends : Ends st t .ok)
      (sym : t.sym = tableSet st.sym v.toNat (st.cfg.symbolSet p)) (strips : t.strips = st.strips)
  /-- INIT created its strip with drawn bytes (R161). -/
  | creates (s v : Byte) (length : Word32) (white : Bool) (syms : SymbolSet) (bytes : List Byte)
      (instr : i = .init s v length white) (absent : (st.strip s.toNat).present = false) (nonzero : length.toNat ≠ 0)
      (compiled : st.symbols v.toNat = some syms)
      (size : bytes.length = StripConf.size ⟨v, length.toNat, white, syms⟩) (ends : Ends st t .ok)
      (sym : t.sym = st.sym)
      (strips : t.strips = tableSet st.strips s.toNat
        (initStrip (st.strip s.toNat) ⟨v, length.toNat, white, syms⟩ bytes))
  /-- A pixel write (R114 to R116). -/
  | writes (s : Byte) (start : Nat) (colors : List Color)
      (instr : (∃ index c, i = .setPixel s index c) ∨ (∃ a cs, i = .setPixels s a cs) ∨ ∃ a n c, i = .fill s a n c)
      (present : (st.strip s.toNat).present = true) (idle : (st.strip s.toNat).busy = false) (nonempty : colors ≠ [])
      (range : start + colors.length ≤ (st.strip s.toNat).conf.pixels) (ends : Ends st t .ok) (sym : t.sym = st.sym)
      (strips : t.strips = (st.writePixels s.toNat start colors).strips)
  /-- BUSY answered, or WAIT found nothing to wait for (R163, R165). -/
  | answers (s : Byte) (r : Response)
      (instr : (i = .busy s ∧ ∃ b, r = .busy b) ∨ (∃ timeout, i = .wait s timeout) ∧ r = .ok) (ends : Ends st t r)
      (sym : t.sym = st.sym) (strips : t.strips = st.strips)
  /-- WAIT or FLUSH reported a pending channel fault (R164). -/
  | clears (s : Byte) (instr : (∃ timeout, i = .wait s timeout) ∨ i = .flush s)
      (present : (st.strip s.toNat).present = true) (idle : (st.strip s.toNat).busy = false)
      (pending : (st.strip s.toNat).chErr = true) (ends : Ends st t (.err .channelFailure)) (sym : t.sym = st.sym)
      (strips : t.strips = tableSet st.strips s.toNat { st.strip s.toNat with chErr := false })
  /-- FLUSH started a session (R167). -/
  | starts (s : Byte) (instr : i = .flush s) (present : (st.strip s.toNat).present = true)
      (idle : (st.strip s.toNat).busy = false) (noFault : (st.strip s.toNat).chErr = false) (ends : Ends st t .ok)
      (sym : t.sym = st.sym) (strips : t.strips = tableSet st.strips s.toNat (startSession (st.strip s.toNat)))
  /-- FREE released its strip (R168). -/
  | releases (s : Byte) (r : Response) (draw : Nat) (instr : i = .free s)
      (response : r = .ok ∨ r = .err .channelFailure) (present : (st.strip s.toNat).present = true)
      (idle : (st.strip s.toNat).busy = false) (ends : Ends st t r) (sym : t.sym = st.sym)
      (strips : t.strips = tableSet st.strips s.toNat (freeStrip (st.strip s.toNat) draw))
  /-- ENC_RESET put the encoder in its initial state (R143). -/
  | resets (s : Byte) (instr : i = .encReset s) (present : (st.strip s.toNat).present = true)
      (idle : (st.strip s.toNat).busy = false) (ends : Ends st t .ok) (sym : t.sym = st.sym)
      (strips : t.strips = tableSet st.strips s.toNat
        { st.strip s.toNat with enc := { phase := .sendData, dbyte := 0, dbit := 0, rcount := 0 } })
  /-- ENCODE in a session (R140). -/
  | encodes (s : Byte) (space : Word32) (out : List PulseSymbol) (status : EncStatus) (x : Strip)
      (instr : i = .encode s space)
      (answer : encodeStrip st.cfg.slotCap (st.strip s.toNat) space.toNat = .ok out status x)
      (eq : t = { st.setStrip s.toNat (noteStatus x status) with
        chanResp := st.chanResp ++ [.encode status out] })

/-- What a command can have done when it answers a next state. -/
theorem exec_cases (h : exec i st = .next t) : ExecCase i st t := by
  cases i with
  | compile v =>
    simp only [exec] at h
    obtain ⟨hp, e⟩ | ⟨p, hp, hok, e⟩ | ⟨p, hp, hok, e⟩ := execCompile_cases v st <;> rw [e] at h
    · obtain ⟨a, b, c⟩ := ends_fail (.refl st) h
      exact .fails _ rfl a b c
    · obtain ⟨a, b, c⟩ := ends_finish (st := st) rfl h
      exact .compiles v p rfl hp hok a b c
    · cases h
      exact .faults _ rfl rfl rfl
  | init s v l w =>
    simp only [exec] at h
    obtain ⟨hp, e⟩ | ⟨hp, hl, e⟩ | ⟨hp, hl, hv, hs, e⟩ | ⟨hp, hl, hv, syms, hs, ⟨k, u, hk, hu, _, e⟩ | ⟨u, hu, _, e⟩⟩ :=
      execInit_cases s v l w st <;> rw [e] at h
    · cases h
      exact .faults _ rfl rfl rfl
    · obtain ⟨a, b, c⟩ := ends_fail (.refl st) h
      exact .fails _ rfl a b c
    · cases h
      exact .faults _ rfl rfl rfl
    · obtain ⟨a, b, c⟩ := ends_fail hu h
      exact .fails _ (by rcases hk with rfl | rfl <;> rfl) a b c
    · have hd := hu.trans (drawBytes_onlyDraws (StripConf.size ⟨v, l.toNat, w, syms⟩) u)
      obtain ⟨a, b, c⟩ := ends_finish (st := st) (by rw [hd.eq]; rfl) h
      exact .creates s v l w syms (u.drawBytes (StripConf.size ⟨v, l.toNat, w, syms⟩)).1 rfl hp hl hs
        (drawBytes_length _ _) a (by rw [b]; simp [hd.sym]) (by rw [c]; simp [hd.strips])
  | setPixel s index color =>
    simp only [exec] at h
    obtain ⟨hp, e⟩ | ⟨hp, hl, e⟩ | ⟨hp, hl, hb, e⟩ | ⟨hp, hl, hb, e⟩ := execSetPixel_cases s index color st <;>
      rw [e] at h
    · obtain ⟨a, b, c⟩ := ends_fail (.refl st) h
      exact .fails _ rfl a b c
    · obtain ⟨a, b, c⟩ := ends_fail (.refl st) h
      exact .fails _ rfl a b c
    · cases h
      exact .faults _ rfl rfl rfl
    · obtain ⟨a, b, c⟩ := ends_finish (st := st) (by rw [writePixels_strips]) h
      exact .writes s index.toNat [color] (.inl ⟨_, _, rfl⟩) hp hb (by simp) (by simpa using hl) a
        (by rw [b, writePixels_strips]) c
  | setPixels s start cs =>
    simp only [exec, execSetPixels] at h
    obtain ⟨hp, e⟩ | ⟨hp, hl, u, hu, e⟩ | ⟨hp, hl, u, hu, e⟩ | ⟨hp, hl, hn, hb, e⟩ | ⟨hp, hl, hn, hb, e⟩ :=
      writeRange_cases st s.toNat start.toNat cs.length cs <;> rw [e] at h
    · obtain ⟨a, b, c⟩ := ends_fail (.refl st) h
      exact .fails _ rfl a b c
    · obtain ⟨a, b, c⟩ := ends_fail hu h
      exact .fails _ rfl a b c
    · obtain ⟨a, b, c⟩ := ends_fail hu h
      exact .fails _ rfl a b c
    · cases h
      exact .faults _ rfl rfl rfl
    · obtain ⟨a, b, c⟩ := ends_finish (st := st) (by rw [writePixels_strips]) h
      exact .writes s start.toNat cs (.inr (.inl ⟨_, _, rfl⟩)) hp hb (by rintro rfl; simp at hn) hl a
        (by rw [b, writePixels_strips]) c
  | fill s start len color =>
    simp only [exec, execFill] at h
    obtain ⟨hp, e⟩ | ⟨hp, hl, u, hu, e⟩ | ⟨hp, hl, u, hu, e⟩ | ⟨hp, hl, hn, hb, e⟩ | ⟨hp, hl, hn, hb, e⟩ :=
      writeRange_cases st s.toNat start.toNat len.toNat (List.replicate len.toNat color) <;> rw [e] at h
    · obtain ⟨a, b, c⟩ := ends_fail (.refl st) h
      exact .fails _ rfl a b c
    · obtain ⟨a, b, c⟩ := ends_fail hu h
      exact .fails _ rfl a b c
    · obtain ⟨a, b, c⟩ := ends_fail hu h
      exact .fails _ rfl a b c
    · cases h
      exact .faults _ rfl rfl rfl
    · obtain ⟨a, b, c⟩ := ends_finish (st := st) (by rw [writePixels_strips]) h
      exact .writes s start.toNat _ (.inr (.inr ⟨_, _, _, rfl⟩)) hp hb (by simpa using hn) (by simpa using hl) a
        (by rw [b, writePixels_strips]) c
  | flush s =>
    simp only [exec] at h
    obtain ⟨hp, e⟩ | ⟨hp, hb, u, hu, e⟩ | ⟨hp, hb, ht, u, hu, e⟩ | ⟨hp, hb, hc, e⟩ | ⟨hp, hb, hc, ha, e⟩ |
      ⟨hp, hb, hc, ha, e⟩ := execFlush_cases s st <;> rw [e] at h
    · obtain ⟨a, b, c⟩ := ends_fail (.refl st) h
      exact .fails _ rfl a b c
    · obtain ⟨a, b, c⟩ := ends_fail hu h
      exact .fails _ rfl a b c
    · cases h
      exact .holds s (.inr rfl) u hu hp hb rfl
    · obtain ⟨a, b, c⟩ := ends_finish (st := st) rfl h
      exact .clears s (.inr rfl) hp hb hc a b c
    · obtain ⟨a, b, c⟩ := ends_fail (ask_onlyDraws _ _) h
      exact .fails _ rfl a b c
    · have hd := ask_onlyDraws st st.cfg.chan
      obtain ⟨a, b, c⟩ := ends_finish (st := st) (by rw [hd.eq]; rfl) h
      exact .starts s rfl hp hb hc a (by rw [b]; simp [hd.sym]) (by rw [c]; simp [hd.strips])
  | busy s =>
    simp only [exec, execBusy] at h
    obtain ⟨a, b, c⟩ := ends_finish (st := st) rfl h
    exact .answers s _ (.inl ⟨rfl, _, rfl⟩) a b c
  | wait s timeout =>
    simp only [exec] at h
    obtain ⟨hp, e⟩ | ⟨hp, hb, u, hu, e⟩ | ⟨hp, hb, ht, u, hu, e⟩ | ⟨hp, hb, hc, e⟩ | ⟨hp, hb, hc, e⟩ :=
      execWait_cases s timeout st <;> rw [e] at h
    · obtain ⟨a, b, c⟩ := ends_fail (.refl st) h
      exact .fails _ rfl a b c
    · obtain ⟨a, b, c⟩ := ends_fail hu h
      exact .fails _ rfl a b c
    · cases h
      exact .holds s (.inl ⟨_, rfl⟩) u hu hp hb rfl
    · obtain ⟨a, b, c⟩ := ends_finish (st := st) rfl h
      exact .clears s (.inl ⟨_, rfl⟩) hp hb hc a b c
    · obtain ⟨a, b, c⟩ := ends_finish (st := st) rfl h
      exact .answers s _ (.inr ⟨⟨_, rfl⟩, rfl⟩) a b c
  | free s =>
    simp only [exec] at h
    obtain ⟨hp, e⟩ | ⟨hp, hb, e⟩ | ⟨hp, hb, e⟩ := execFree_cases s st <;> rw [e] at h
    · obtain ⟨a, b, c⟩ := ends_fail (.refl st) h
      exact .fails _ rfl a b c
    · cases h
      exact .faults _ rfl rfl rfl
    · have hd := ask_onlyDraws st st.cfg.chan
      obtain ⟨a, b, c⟩ := ends_finish (st := st) (by rw [hd.eq]; rfl) h
      exact .releases s _ _ rfl (by split <;> simp) hp hb a (by rw [b]; simp [hd.sym])
        (by rw [c]; simp [hd.strips]; rfl)
  | encReset s =>
    simp only [exec] at h
    obtain ⟨hp, e⟩ | ⟨hp, hb, e⟩ | ⟨hp, hb, e⟩ := execEncReset_cases s st <;> rw [e] at h
    · obtain ⟨a, b, c⟩ := ends_fail (.refl st) h
      exact .fails _ rfl a b c
    · cases h
      exact .faults _ rfl rfl rfl
    · obtain ⟨a, b, c⟩ := ends_finish (st := st) rfl h
      exact .resets s rfl hp hb a b c
  | encode s space =>
    simp only [exec, execEncode] at h
    obtain e | ⟨a, _, e⟩ | ⟨out, status, x, hx, e⟩ := invokeEncode_cases st s.toNat space.toNat <;> rw [e] at h
    · cases h
      exact .refuses _ _ rfl rfl
    · cases h
    · cases h
      exact .encodes s space out status x rfl hx rfl

end Sys2Proof.Machine
end

