-- ==== Sys2Proof/Laws/PerInstr.lean ====
section
/-! SUPPORT. Laws/PerInstr.lean: one statement about every command as syntax, one lemma per constructor: its byte
string has the length R75 and R77 give it. -/

namespace Sys2Proof.Laws.EncodedLength

/-- The byte string of a command has the length of its format (R75, R77). -/
def Statement (i : Instr) : Prop := (Sys2Proof.encode i).length = i.byteLength

theorem compile (v : Byte) : Statement (.compile v) := rfl
theorem init (s v : Byte) (length : Word32) (white : Bool) : Statement (.init s v length white) := rfl
theorem setPixel (s : Byte) (index : Word32) (color : Color) : Statement (.setPixel s index color) := rfl
theorem setPixels (s : Byte) (start : Word32) (colors : List Color) : Statement (.setPixels s start colors) := by
  have h : ∀ cs : List Color, (cs.flatMap Color.bytes).length = 3 * cs.length := by
    intro cs
    induction cs with
    | nil => rfl
    | cons c cs ih =>
      rw [List.flatMap_cons, List.length_append, ih, List.length_cons]
      simp [Color.bytes]
      omega
  simp only [Statement, encode, Instr.fieldBytes, Instr.byteLength, List.length_cons, List.length_append, h]
  simp [writeU32]
  omega
theorem fill (s : Byte) (start len : Word32) (color : Color) : Statement (.fill s start len color) := rfl
theorem flush (s : Byte) : Statement (.flush s) := rfl
theorem busy (s : Byte) : Statement (.busy s) := rfl
theorem wait (s : Byte) (timeout : Word32) : Statement (.wait s timeout) := rfl
theorem free (s : Byte) : Statement (.free s) := rfl
theorem encReset (s : Byte) : Statement (.encReset s) := rfl
theorem encode (s : Byte) (space : Word32) : Statement (.encode s space) := rfl

end Sys2Proof.Laws.EncodedLength
end

