-- ==== Sys2Proof/Laws/Schedule.lean ====
section
/-! SUPPORT. Laws/Schedule.lean: which step comes next, what choosing it changes, and that a fair step that stays
enabled comes ever nearer to being taken (R5, R176, R198). -/

namespace Sys2Proof.Machine

variable {st t u : State} {c m : Move}

/-! ## What choosing a step changes -/

/-- Two states that differ in the schedule and the draws only. -/
def OnlySchedule (st u : State) : Prop :=
  u = { st with agenda := u.agenda, waiting := u.waiting, script := u.script, draws := u.draws }

theorem OnlySchedule.trans (h : OnlySchedule st t) (g : OnlySchedule t u) : OnlySchedule st u := by
  unfold OnlySchedule at *
  rw [g, h]

theorem withWaiting_onlySchedule (st : State) (w : List (Move × Nat)) : OnlySchedule st { st with waiting := w } := rfl

theorem withAgenda_onlySchedule (st : State) (a : List Move) : OnlySchedule st { st with agenda := a } := rfl

theorem draw_onlySchedule (st : State) : OnlySchedule st st.draw.2 := by
  unfold OnlySchedule
  rw [(draw_onlyDraws st).eq]

theorem take_onlySchedule (st : State) (m : Move) : OnlySchedule st (st.take m) := by
  unfold State.take
  split <;> rfl

/-- Taking a step that is not fair changes nothing. -/
theorem take_of_not_fair (st : State) (h : m.isFair = false) : st.take m = st := by
  simp [State.take, h]

@[simp] theorem take_agenda (st : State) (m : Move) : (st.take m).agenda = st.agenda := by
  unfold State.take
  split <;> rfl

theorem take_waiting (st : State) (h : m.isFair = true) :
    (st.take m).waiting = st.waiting.filter fun e => decide (e.1 ≠ m) := by
  simp [State.take, h]

/-- Steps begin to wait behind those that wait already; then every fair step of the list waits. -/
theorem enlist_spec (st : State) (ms : List Move) :
    OnlySchedule st (st.enlist ms) ∧ (st.enlist ms).agenda = st.agenda ∧
      (∃ new, (st.enlist ms).waiting = st.waiting ++ new ∧ ∀ e ∈ new, e.1.isFair = true ∧ e.1 ∈ ms) ∧
      ∀ m ∈ ms, m.isFair = true → m ∈ (st.enlist ms).waiting.map Prod.fst := by
  induction ms generalizing st with
  | nil => exact ⟨rfl, rfl, ⟨[], by simp [State.enlist], by simp⟩, by simp⟩
  | cons x ms ih =>
    unfold State.enlist
    split
    · rename_i h
      obtain ⟨a, b, ⟨new, hn, hf⟩, hall⟩ := ih { st.draw.2 with waiting := st.waiting ++ [(x, st.draw.1)] }
      refine ⟨.trans ?_ a, b.trans (draw_onlyDraws st).agenda, ⟨(x, st.draw.1) :: new, by simp [hn], ?_⟩, ?_⟩
      · unfold OnlySchedule
        rw [(draw_onlyDraws st).eq]
      · rintro e (_ | ⟨_, he⟩)
        · exact ⟨by simpa using (Bool.and_eq_true _ _ ▸ h).1, by simp⟩
        · exact ⟨(hf e he).1, by simp [(hf e he).2]⟩
      · rintro m (_ | ⟨_, hm⟩) hfm
        · simp [hn]
        · exact hall m hm hfm
    · rename_i h
      obtain ⟨a, b, ⟨new, hn, hf⟩, hall⟩ := ih st
      refine ⟨a, b, ⟨new, hn, fun e he => ⟨(hf e he).1, by simp [(hf e he).2]⟩⟩, ?_⟩
      rintro m (_ | ⟨_, hm⟩) hfm
      · have : x ∈ st.waiting.map Prod.fst := by simpa [hfm] using h
        rw [hn, List.map_append]
        exact List.mem_append_left _ this
      · exact hall m hm hfm

/-- Before a choice exactly the enabled fair steps wait. -/
theorem updateWaiting_spec (st : State) (ms : List Move) :
    OnlySchedule st (st.updateWaiting ms) ∧ (st.updateWaiting ms).agenda = st.agenda ∧
      (∀ e ∈ (st.updateWaiting ms).waiting, e.1.isFair = true ∧ e.1 ∈ ms) ∧
      ∀ m ∈ ms, m.isFair = true → m ∈ (st.updateWaiting ms).waiting.map Prod.fst := by
  obtain ⟨a, b, ⟨new, hn, hf⟩, hall⟩ :=
    enlist_spec { st with waiting := st.waiting.filter fun e => e.1.isFair && decide (e.1 ∈ ms) } ms
  refine ⟨(withWaiting_onlySchedule st _).trans a, b, ?_, hall⟩
  intro e he
  rw [State.updateWaiting, hn] at he
  rcases List.mem_append.1 he with h | h
  · simpa using (List.mem_filter.1 h).2
  · exact hf e h

theorem dueMove_mem (h : st.dueMove = some m) : (m, 0) ∈ st.waiting := by
  obtain ⟨⟨x, z⟩, he, rfl⟩ := Option.map_eq_some_iff.1 h
  have hz : z = 0 := by simpa using List.find?_some he
  exact hz ▸ List.mem_of_find?_eq_some he

theorem chooseMove_mem {ms : List Move} (h : st.chooseMove ms = some (m, u)) :
    m ∈ ms ∧ OnlySchedule st u ∧ u.agenda = st.agenda := by
  unfold State.chooseMove at h
  split at h
  · cases h
  · cases h
    exact ⟨by simp, rfl, rfl⟩
  · rename_i x ms _
    obtain ⟨a, b, c, _⟩ := updateWaiting_spec st (x :: ms)
    dsimp only at h
    split at h
    · rename_i d hd
      cases h
      exact ⟨(c _ (dueMove_mem hd)).2, (a.trans (take_onlySchedule _ m)).trans rfl, (take_agenda _ _).trans b⟩
    · simp only [Option.some.injEq, Prod.mk.injEq] at h
      obtain ⟨rfl, rfl⟩ := h
      refine ⟨?_, ((a.trans (draw_onlySchedule _)).trans (take_onlySchedule _ _)).trans rfl,
        (take_agenda _ _).trans ((draw_onlyDraws _).agenda.trans b)⟩
      rw [List.getD_eq_getElem _ _ (Nat.mod_lt _ (by simp))]
      exact List.getElem_mem _

/-- Some step is chosen where some step is enabled. -/
theorem chooseMove_isSome (st : State) {ms : List Move} (h : ms ≠ []) : ∃ m u, st.chooseMove ms = some (m, u) := by
  unfold State.chooseMove
  split
  · exact absurd rfl h
  · exact ⟨_, _, rfl⟩
  · dsimp only
    split <;> exact ⟨_, _, rfl⟩

/-- The step taken next is an enabled one, and choosing it changes the schedule and the draws only. -/
theorem nextMove_spec (h : st.nextMove = some (m, u)) : m ∈ st.moves ∧ OnlySchedule st u := by
  unfold State.nextMove at h
  split at h
  · obtain ⟨a, b, _⟩ := chooseMove_mem h
    exact ⟨a, b⟩
  · split at h
    · cases h
      exact ⟨‹_›, (withAgenda_onlySchedule st _).trans (take_onlySchedule _ _)⟩
    · obtain ⟨a, b, _⟩ := chooseMove_mem h
      exact ⟨a, (withAgenda_onlySchedule st _).trans b⟩

/-! ## One step -/

/-- A step that answers a next state is one enabled agent's step. -/
theorem step_cases (h : step st = .next t) :
    st.isStopped = false ∧
      ∃ m u, st.nextMove = some (m, u) ∧ m ∈ st.moves ∧ OnlySchedule st u ∧ u.runMove m = .next t := by
  simp only [step, State.stepOnce] at h
  split at h
  · cases h
  · cases h
  · rename_i h1 h2
    split at h
    · cases h
    · rename_i m u hm
      obtain ⟨a, b⟩ := nextMove_spec hm
      exact ⟨by simp [State.isStopped, h1, h2], m, u, hm, a, b, h⟩

/-- What is stepped next is what `step` runs. -/
theorem step_eq_runMove (h : st.isStopped = false) (hm : st.nextMove = some (m, u)) : step st = u.runMove m := by
  obtain ⟨a, b⟩ : st.fault = none ∧ st.refused = none := by simpa [State.isStopped] using h
  simp [step, State.stepOnce, a, b, hm]

/-! ## Runs (R180) -/

@[simp] theorem after_zero (st : State) : st.after 0 = st := rfl

/-- A run goes on with what the step answers. -/
theorem after_succ_of_next {n : Nat} (h : step (st.after n) = .next t) : st.after (n + 1) = t := by
  simp [State.after, h]

/-- What comes after some steps of a run is a run of its own. -/
theorem after_add (st : State) (a b : Nat) : st.after (a + b) = (st.after a).after b := by
  induction b with
  | zero => rfl
  | succ b ih =>
    rw [← Nat.add_assoc]
    simp only [State.after]
    rw [ih]

/-! ## What a step leaves of the schedule -/

/-- The host's bytes depend on the parameters, the program and the pc alone. -/
theorem hostBytes_congr (h1 : u.cfg = st.cfg) (h2 : u.pc = st.pc) (h3 : u.prog = st.prog) :
    u.hostBytes = st.hostBytes := by
  simp [State.hostBytes, h1, h2, h3]

/-- A command leaves the schedule as it is. -/
theorem exec_schedule {i : Instr} (h : exec i st = .next t) : t.agenda = st.agenda ∧ t.waiting = st.waiting := by
  cases exec_cases h with
  | faults f eq => simp [eq]
  | refuses s space instr eq => simp [eq]
  | holds s instr u draws present busy eq => simp [eq, draws.agenda, draws.waiting]
  | encodes s space out status x instr answer eq => simp [eq]
  | fails e may ends => rw [ends.eq]; simp
  | compiles v p instr known fits ends => rw [ends.eq]; simp
  | creates s v length white syms bytes instr absent nonzero compiled size ends => rw [ends.eq]; simp
  | writes s start colors instr present idle nonempty range ends => rw [ends.eq]; simp
  | answers s r instr ends => rw [ends.eq]; simp
  | clears s instr present idle pending ends => rw [ends.eq]; simp
  | starts s instr present idle noFault ends => rw [ends.eq]; simp
  | releases s r draw instr response present idle ends => rw [ends.eq]; simp
  | resets s instr present idle ends => rw [ends.eq]; simp

/-- An agent's step leaves the schedule as it is. -/
theorem runMove_schedule (h : st.runMove m = .next t) : t.agenda = st.agenda ∧ t.waiting = st.waiting := by
  cases m with
  | host =>
    simp only [State.runMove, State.hostStep] at h
    split at h
    · exact exec_schedule h
    · cases h
      exact ⟨rfl, rfl⟩
  | expire =>
    cases h
    exact ⟨rfl, rfl⟩
  | port =>
    simp only [State.runMove, State.portStep] at h
    split at h
    · rename_i rest _
      exact exec_schedule (st := { st with chanPort := rest }) h
    · cases h
      exact ⟨rfl, rfl⟩
  | drain k =>
    cases h
    exact ⟨rfl, rfl⟩
  | encode k =>
    simp only [State.runMove, State.chanEncode] at h
    generalize st.cfg.slotCap - (st.strip k).slot.length = free at h
    obtain e | ⟨a, _, e⟩ | ⟨out, status, x, _, e⟩ := invokeEncode_cases st k free <;> rw [e] at h <;> cases h <;>
      exact ⟨rfl, rfl⟩
  | done k =>
    cases h
    exact ⟨rfl, rfl⟩
  | fail k =>
    cases h
    have hd := (drawBit_onlyDraws st).trans (draw_onlyDraws st.drawBit.2)
    exact ⟨hd.agenda, hd.waiting⟩

/-! ## A fair step comes ever nearer (R176) -/

/-- How near the step `m` is to being taken: how many choices may still pass it over, and how many steps wait before
it. -/
def waitRank (m : Move) : List (Move × Nat) → Nat
  | [] => 0
  | e :: w => if e.1 = m then e.2 else waitRank m w + 1

theorem waitRank_append {w : List (Move × Nat)} (new : List (Move × Nat)) (h : m ∈ w.map Prod.fst) :
    waitRank m (w ++ new) = waitRank m w := by
  induction w with
  | nil => simp at h
  | cons e w ih =>
    simp only [List.cons_append, waitRank]
    split
    · rfl
    · rename_i hne
      rw [ih (by simpa [Ne.symm hne] using h)]

/-- Steps that stop waiting bring `m` no farther away. -/
theorem waitRank_filter (p : Move × Nat → Bool) (hp : ∀ e, e.1 = m → p e = true) (w : List (Move × Nat)) :
    waitRank m (w.filter p) ≤ waitRank m w := by
  induction w with
  | nil => simp
  | cons e w ih =>
    by_cases he : e.1 = m
    · simp [hp e he, waitRank, he]
    · by_cases hpe : p e = true
      · simpa [List.filter_cons, hpe, waitRank, he] using ih
      · simp only [List.filter_cons, hpe, waitRank, he, if_false]
        exact Nat.le_succ_of_le ih

theorem waitRank_passOver (w : List (Move × Nat)) :
    waitRank m (w.map fun e => (e.1, e.2 - 1)) ≤ waitRank m w := by
  induction w with
  | nil => simp
  | cons e w ih =>
    simp only [List.map_cons, waitRank]
    split
    · omega
    · omega

/-- A choice of another step brings `m` nearer: where a step is due, it waited before `m` and waits no more, or `m`
itself may be passed over once less; where none is due, the latter. -/
theorem waitRank_lt (p : Move × Nat → Bool) (hp : ∀ e, e.1 = m → p e = true) (w : List (Move × Nat))
    (hm : m ∈ w.map Prod.fst)
    (hdue : ∀ e, w.find? (fun e => decide (e.2 = 0)) = some e → e.1 ≠ m ∧ p e = false) :
    waitRank m ((w.filter p).map fun e => (e.1, e.2 - 1)) < waitRank m w := by
  induction w with
  | nil => simp at hm
  | cons e w ih =>
    by_cases hz : e.2 = 0
    · obtain ⟨hne, hpe⟩ := hdue e (by simp [hz])
      simp only [List.filter_cons, hpe, waitRank, hne, if_false]
      exact Nat.lt_succ_of_le ((waitRank_passOver _).trans (waitRank_filter p hp w))
    · by_cases he : e.1 = m
      · simp only [List.filter_cons, hp e he, if_true, List.map_cons, waitRank, he]
        omega
      · have hlt := ih (by simpa [Ne.symm he] using hm) (by simpa [hz] using hdue)
        by_cases hpe : p e = true
        · simpa [List.filter_cons, hpe, waitRank, he] using hlt
        · simp only [List.filter_cons, hpe, waitRank, he, if_false]
          exact Nat.lt_succ_of_lt hlt

/-- A choice that does not take the enabled fair step `m` leaves it waiting, nearer than it was. -/
theorem chooseMove_waits {ms : List Move} (h : st.chooseMove ms = some (c, u)) (hm : m ∈ ms) (hf : m.isFair = true)
    (hc : c ≠ m) :
    m ∈ u.waiting.map Prod.fst ∧
      (m ∈ st.waiting.map Prod.fst → waitRank m u.waiting < waitRank m st.waiting) := by
  -- what the choice makes of the waiting steps, and that it brings `m` nearer
  have key : ∀ (p : Move × Nat → Bool), (∀ e, e.1 = m → p e = true) →
      (∀ e, (st.updateWaiting ms).waiting.find? (fun e => decide (e.2 = 0)) = some e → e.1 ≠ m ∧ p e = false) →
      u.waiting = ((st.updateWaiting ms).waiting.filter p).map (fun e => (e.1, e.2 - 1)) →
      m ∈ u.waiting.map Prod.fst ∧
        (m ∈ st.waiting.map Prod.fst → waitRank m u.waiting < waitRank m st.waiting) := by
    intro p hp hdue hu
    have hmem := (updateWaiting_spec st ms).2.2.2 m hm hf
    refine ⟨?_, fun hw => ?_⟩
    · obtain ⟨e, he, rfl⟩ := List.mem_map.1 hmem
      rw [hu, List.map_map]
      exact List.mem_map.2 ⟨e, List.mem_filter.2 ⟨he, hp e rfl⟩, rfl⟩
    · rw [hu]
      refine (waitRank_lt p hp _ hmem hdue).trans_le ?_
      obtain ⟨_, _, ⟨new, hn, _⟩, _⟩ :=
        enlist_spec { st with waiting := st.waiting.filter fun e => e.1.isFair && decide (e.1 ∈ ms) } ms
      have hkeep : ∀ e : Move × Nat, e.1 = m → (e.1.isFair && decide (e.1 ∈ ms)) = true := by
        rintro e rfl
        simp [hf, hm]
      rw [State.updateWaiting, hn, waitRank_append]
      · exact waitRank_filter _ hkeep _
      · obtain ⟨e, he, rfl⟩ := List.mem_map.1 hw
        exact List.mem_map.2 ⟨e, List.mem_filter.2 ⟨he, hkeep e rfl⟩, rfl⟩
  unfold State.chooseMove at h
  split at h
  · cases h
  · cases h
    exact absurd (by simpa using hm) hc.symm
  · rename_i x ms _
    dsimp only at h
    split at h
    · rename_i d hd
      cases h
      have hfair := ((updateWaiting_spec st (x :: ms)).2.2.1 _ (dueMove_mem hd)).1
      refine key (fun e => decide (e.1 ≠ c)) ?_ ?_ ?_
      · rintro e rfl
        simpa using hc.symm
      · intro e he
        have : e.1 = c := by simpa [State.dueMove, he] using hd
        simpa [this] using hc
      · simp only [State.passOver, take_waiting _ hfair]
    · rename_i hd
      have hnone : (st.updateWaiting (x :: ms)).waiting.find? (fun e => decide (e.2 = 0)) = none := by
        simpa only [State.dueMove, Option.map_eq_none_iff] using hd
      simp only [Option.some.injEq, Prod.mk.injEq] at h
      obtain ⟨hcm, hu⟩ := h
      rw [hcm] at hu
      have hw := (draw_onlyDraws (st.updateWaiting (x :: ms))).waiting
      by_cases hcf : c.isFair = true
      · refine key (fun e => decide (e.1 ≠ c)) ?_ (by simp [hnone]) ?_
        · rintro e rfl
          simpa using hc.symm
        · rw [← hu]
          simp only [State.passOver, take_waiting _ hcf, hw]
      · refine key (fun _ => true) (by simp) (by simp [hnone]) ?_
        rw [← hu]
        simp only [State.passOver, State.take, hcf, Bool.false_eq_true, if_false, hw, List.filter_true]

/-- A step that does not take the enabled fair step `m`: while the agenda lasts it grows shorter; behind it `m` waits
on, nearer than it was. -/
theorem nextMove_waits (h : st.nextMove = some (c, u)) (hm : m ∈ st.moves) (hf : m.isFair = true) (hc : c ≠ m) :
    u.agenda = st.agenda.tail ∧
      (st.agenda = [] →
        m ∈ u.waiting.map Prod.fst ∧
          (m ∈ st.waiting.map Prod.fst → waitRank m u.waiting < waitRank m st.waiting)) := by
  unfold State.nextMove at h
  split at h
  · rename_i ha
    exact ⟨by rw [(chooseMove_mem h).2.2, ha]; rfl, fun _ => chooseMove_waits h hm hf hc⟩
  · rename_i x rest ha
    rw [ha]
    refine ⟨?_, by simp⟩
    split at h
    · cases h
      exact take_agenda _ _
    · exact (chooseMove_mem h).2.2

end Sys2Proof.Machine
end

