-- ==== Sys2Proof/Tests/Slice0.lean ====
section
/-! SUPPORT. Tests/Slice0.lean: the smoke test of WellFormed, every command decoded from a word written out from the
spec, vectors of spec/95_test_vectors.md, and for every statement with hypotheses a state and operands that meet
them. -/

namespace Sys2Proof.Tests

open Sys2Proof Sys2Proof.Machine

/-! ## WellFormed: an ill-formed term for each check, which the check refuses -/

theorem test_wf_init : (Instr.init 2 0 4 false).wf 2 = false := by decide
theorem test_wf_setPixel : (Instr.setPixel 2 0 ⟨1, 1, 1⟩).wf 2 = false := by decide
theorem test_wf_setPixels : (Instr.setPixels 2 0 []).wf 2 = false := by decide
theorem test_wf_fill : (Instr.fill 2 0 1 ⟨1, 1, 1⟩).wf 2 = false := by decide
theorem test_wf_flush : (Instr.flush 2).wf 2 = false := by decide
theorem test_wf_busy : (Instr.busy 2).wf 2 = false := by decide
theorem test_wf_wait : (Instr.wait 2 0).wf 2 = false := by decide
theorem test_wf_free : (Instr.free 2).wf 2 = false := by decide
theorem test_wf_encReset : (Instr.encReset 2).wf 2 = false := by decide
theorem test_wf_encode : (Instr.encode 2 64).wf 2 = false := by decide
/-- A color list that does not fit the field `len`; the strip id is in range. -/
theorem test_wf_colors : (Instr.setPixels 0 0 (List.replicate 4294967296 ⟨0, 0, 0⟩)).wf 2 = false := by
  simp only [Instr.wf, List.length_replicate]
  rfl
theorem test_wf_last_strip : (Instr.flush 1).wf 2 = true := by decide
theorem test_wf_compile : (Instr.compile 255).wf 1 = true := by decide

theorem test_cfg_reference : Config.reference.wf = true := by decide
theorem test_cfg_resolution : { Config.reference with resolutionHz := 0 }.wf = false := by decide
theorem test_cfg_durWidth : { Config.reference with durWidth := 0 }.wf = false := by decide
theorem test_cfg_slotCap : { Config.reference with slotCap := 0 }.wf = false := by decide
theorem test_cfg_flushTimeout : { Config.reference with flushTimeout := 0 }.wf = false := by decide
theorem test_cfg_maxStrips :
    { Config.reference with maxStrips := 0 }.wf = false ∧ { Config.reference with maxStrips := 257 }.wf = false ∧
      { Config.reference with maxStrips := 256 }.wf = true := by decide
theorem test_cfg_variants :
    { Config.reference with variants := [(0, Config.profileDoc), (0, Config.profileDoc)] }.wf = false ∧
      { Config.reference with variants := [(256, Config.profileDoc)] }.wf = false := by decide

/-! ## Decoding: one word per command, written out from the programs of 95_test_vectors.md section 3 -/

/-- P1 `compile 0`, an FV word. -/
theorem test_decode_compile : decode .host 2 [0x01, 0x00] = .ok (.compile 0, []) := rfl
/-- P2 `init 1, 0, 2, 1`, an FI word. -/
theorem test_decode_init :
    decode .host 2 [0x02, 0x01, 0x00, 0x02, 0x00, 0x00, 0x00, 0x01] = .ok (.init 1 0 2 true, []) := rfl
/-- P2 `set_pixel 1, 2, (1,1,1)`, an FP word; the colors here are told apart. -/
theorem test_decode_setPixel :
    decode .host 2 [0x03, 0x01, 0x02, 0x00, 0x00, 0x00, 0x0A, 0x14, 0x1E] = .ok (.setPixel 1 2 ⟨10, 20, 30⟩, []) := rfl
/-- P2 `set_pixels 1, 1, [(200,100,50)]`, an FM word, with the next command behind it. -/
theorem test_decode_setPixels :
    decode .host 2 [0x04, 0x01, 0x01, 0x00, 0x00, 0x00, 0x01, 0x00, 0x00, 0x00, 0xC8, 0x64, 0x32, 0x06, 0x01]
      = .ok (.setPixels 1 1 [⟨200, 100, 50⟩], [0x06, 0x01]) := rfl
/-- P2 `fill 1, 0, 2, (10,20,30)`, an FF word. -/
theorem test_decode_fill :
    decode .host 2 [0x05, 0x01, 0x00, 0x00, 0x00, 0x00, 0x02, 0x00, 0x00, 0x00, 0x0A, 0x14, 0x1E]
      = .ok (.fill 1 0 2 ⟨10, 20, 30⟩, []) := rfl
/-- P2 `flush 1`, an FS word. -/
theorem test_decode_flush : decode .host 2 [0x06, 0x01] = .ok (.flush 1, []) := rfl
/-- P5 `busy 0`, an FS word. -/
theorem test_decode_busy : decode .host 2 [0x07, 0x00] = .ok (.busy 0, []) := rfl
/-- P1 `wait 0, 100`, an FT word; and a timeout whose four bytes differ, to fix the byte order of R73. -/
theorem test_decode_wait :
    decode .host 2 [0x08, 0x00, 0x64, 0x00, 0x00, 0x00] = .ok (.wait 0 100, []) ∧
      decode .host 2 [0x08, 0x01, 0x04, 0x03, 0x02, 0x01] = .ok (.wait 1 0x01020304, []) := ⟨rfl, rfl⟩
/-- P2 `free 1`, an FS word. -/
theorem test_decode_free : decode .host 2 [0x09, 0x01] = .ok (.free 1, []) := rfl
/-- P2 `enc_reset 1`, an FS word. -/
theorem test_decode_encReset : decode .host 2 [0x0A, 0x01] = .ok (.encReset 1, []) := rfl
/-- P5 `encode 0, 64`, an FE word: on its own port, and on the host port (R80). -/
theorem test_decode_encode :
    decode .channel 2 [0x0B, 0x00, 0x40, 0x00, 0x00, 0x00] = .ok (.encode 0 64, []) ∧
      decode .host 2 [0x0B, 0x00, 0x40, 0x00, 0x00, 0x00] = .error .encodeFromHost := ⟨rfl, rfl⟩
/-- V2.71 to V2.76. -/
theorem test_decode_illegal :
    decode .host 2 [0x00] = .error .illegal ∧ decode .host 2 [0x0C, 0x00] = .error .illegal ∧
      decode .host 2 [0x06, 0x02] = .error .illegal ∧
      decode .host 2 [0x02, 0x00, 0x00, 0x04, 0x00, 0x00, 0x00, 0x02] = .error .illegal ∧
      decode .host 2 [0x03, 0x00, 0x00, 0x00] = .error .illegal ∧
      decode .host 2 [0x04, 0x00, 0x00, 0x00, 0x00, 0x00, 0x02, 0x00, 0x00, 0x00, 0x01, 0x02, 0x03]
        = .error .illegal := ⟨rfl, rfl, rfl, rfl, rfl, rfl⟩
/-- The encodings of the same commands, as the spec writes them. -/
theorem test_encode_words :
    encode (.setPixels 1 1 [⟨200, 100, 50⟩])
        = [0x04, 0x01, 0x01, 0x00, 0x00, 0x00, 0x01, 0x00, 0x00, 0x00, 0xC8, 0x64, 0x32] ∧
      encode (.wait 1 0x01020304) = [0x08, 0x01, 0x04, 0x03, 0x02, 0x01] := by decide

/-! ## Small states -/

/-- The symbols of P_doc at the reference configuration: `b0`, `b1`, `rst` of 95_test_vectors.md section 0. -/
def b0 : PulseSymbol := ⟨.high, 4, .low, 10⟩
def b1 : PulseSymbol := ⟨.high, 10, .low, 4⟩
def rst : PulseSymbol := ⟨.low, 25, .low, 25⟩
def docSymbols : SymbolSet := { bit0 := b0, bit1 := b1, reset := rst, order := .grb }

/-- A strip of variant 0 with the given bytes, just created; the byte count need not be a multiple of `cpp`. -/
def stripOf (white : Bool) (pixels : Nat) (bytes : List Byte) : Strip :=
  initStrip Strip.powerOn { variant := 0, pixels := pixels, white := white, syms := docSymbols } bytes

/-- The strip of program P1 before its FLUSH. -/
def p1Strip : Strip := stripOf false 1 [0x14, 0x0A, 0x1E]

/-- Power-on with variant 0 compiled and strip 0 as given. -/
def demo (x : Strip) : State := { State.reset with sym := [(0, docSymbols)], strips := [(0, x)] }

/-- The same with oracles that may refuse and report faults, and given draws. -/
def oracles (x : Strip) (script : List Nat) : State :=
  { demo x with cfg := { Config.reference with alloc := .external, chan := .external }, script := script }

/-- Variant 0 compiled, no strip. -/
def compiled : State := { State.reset with sym := [(0, docSymbols)] }

def busyStrip : Strip := { p1Strip with busy := true }
def faultedStrip : Strip := { p1Strip with chErr := true }
def doneStripDemo : Strip := { busyStrip with encDone := true }

/-- Whether an answer is a next state that passes a check. -/
def nextIs (a : Answer) (p : State → Bool) : Bool :=
  match a with
  | .next t => p t
  | .fault _ => false
  | .refused _ => false

/-- Whether a command ends in a response. -/
def responds (i : Instr) (st : State) (r : Response) : Bool :=
  nextIs (exec i st) fun t => decide (t.hostResp = st.hostResp ++ [r] ∧ t.pc = st.pc + 1)

/-- Whether a command raises a fault. -/
def raises (i : Instr) (st : State) (f : FaultRecord) : Bool :=
  nextIs (exec i st) fun t => decide (t = { st with fault := some f })

/-- The bytes of strip 0's buffer after a command. -/
def bufAfter (i : Instr) (st : State) (bytes : List Byte) : Bool :=
  nextIs (exec i st) fun t => decide ((t.strip 0).buf.bytes = bytes)

/-- The configuration with one profile changed at id 0, or another resolution. -/
def withProfile (p : TimingProfile) (hz : Nat) : Config :=
  { Config.reference with variants := [(0, p)], resolutionHz := hz }

/-! ## Vectors of the spec -/

/-- V2.1. -/
theorem test_compile_doc :
    nextIs (exec (.compile 0) State.reset) fun t => decide (t.symbols 0 = some docSymbols) := by decide +kernel
/-- V2.8 and V2.10: a duration above DUR_MAX, and one that rounds to 0. -/
theorem test_compile_range :
    raises (.compile 0)
        { State.reset with cfg := withProfile { Config.profileDoc with tReset := 6553500 } 10000000 }
        { code := .symRange, info := 0, pc := 0 } ∧
      raises (.compile 0)
        { State.reset with cfg := withProfile { Config.profileDoc with t0High := 40 } 10000000 }
        { code := .symRange, info := 0, pc := 0 } := by decide +kernel
/-- V2.3 and V2.5: other resolutions, a tie, an odd reset time. -/
theorem test_symbolSet_resolutions :
    ((withProfile Config.profileDoc 40000000).symbolSet Config.profileDoc).reset = ⟨.low, 100, .low, 100⟩ ∧
      (withProfile Config.profileDoc 5000000).symbolSet ⟨300, 1000, 1000, 300, 5000, .grb⟩
        = { bit0 := ⟨.high, 2, .low, 5⟩, bit1 := ⟨.high, 5, .low, 2⟩, reset := ⟨.low, 13, .low, 13⟩, order := .grb } :=
  by decide +kernel
/-- Section 0: the symbol words. -/
theorem test_symbol_words : b0.word 15 = 0x000A8004 ∧ b1.word 15 = 0x0004800A ∧ rst.word 15 = 0x00190019 := by decide

/-- V2.46. -/
theorem test_init :
    nextIs (exec (.init 0 0 4 false) compiled) fun t =>
      decide ((t.strip 0).present = true ∧ (t.strip 0).buf.length = 12 ∧ (t.strip 0).conf.syms = docSymbols
        ∧ (t.strip 0).busy = false) := by decide +kernel
/-- V2.49 and V2.50. -/
theorem test_init_faults :
    raises (.init 0 1 4 false) State.reset { code := .notCompiled, info := 1, pc := 0 } ∧
      raises (.init 0 0 4 false) (demo p1Strip) { code := .reinit, info := 0, pc := 0 } := by decide +kernel

/-- V2.14 and V2.13: the last pixel, and the index after it. -/
theorem test_setPixel :
    bufAfter (.setPixel 0 1 ⟨10, 20, 30⟩) (demo (stripOf false 2 [1, 2, 3, 4, 5, 6])) [1, 2, 3, 20, 10, 30] ∧
      responds (.setPixel 0 2 ⟨1, 1, 1⟩) (demo (stripOf false 2 [1, 2, 3, 4, 5, 6])) (.err .outOfRange) := by
  decide +kernel
/-- V2.22 and V2.21. -/
theorem test_setPixels :
    bufAfter (.setPixels 0 2 [⟨1, 2, 3⟩, ⟨4, 5, 6⟩]) (demo (stripOf false 4 (List.replicate 12 9)))
        [9, 9, 9, 9, 9, 9, 2, 1, 3, 5, 4, 6] ∧
      responds (.setPixels 0 2 [⟨1, 1, 1⟩, ⟨2, 2, 2⟩, ⟨3, 3, 3⟩]) (demo (stripOf false 4 (List.replicate 12 9)))
        (.err .outOfRange) := by decide +kernel
/-- V2.28 and V2.23: a white channel, and a range whose end does not wrap. -/
theorem test_fill :
    bufAfter (.fill 0 0 2 ⟨10, 20, 30⟩) (demo (stripOf true 2 (List.replicate 8 9)))
        [20, 10, 30, 10, 20, 10, 30, 10] ∧
      responds (.fill 0 0xFFFFFFFF 2 ⟨1, 1, 1⟩) (demo (stripOf false 4 (List.replicate 12 9))) (.err .outOfRange) := by
  decide +kernel
/-- V2.27a to V2.27c. -/
theorem test_write_while_busy :
    raises (.setPixel 0 0 ⟨1, 1, 1⟩) (demo busyStrip) { code := .bufWriteBusy, info := 0, pc := 0 } ∧
      responds (.setPixel 0 1 ⟨1, 1, 1⟩) (demo busyStrip) (.err .outOfRange) ∧
      responds (.fill 0 0 0 ⟨1, 1, 1⟩) (demo busyStrip) (.err .invalidArgument) := by decide +kernel

/-- V2.56, and V2.65: a pending channel fault. -/
theorem test_flush :
    nextIs (exec (.flush 0) (demo p1Strip)) (fun t => decide (t.strip 0 = busyStrip)) ∧
      nextIs (exec (.flush 0) (demo faultedStrip)) (fun t =>
        decide (t.strip 0 = p1Strip ∧ t.hostResp = [.err .channelFailure])) := by decide +kernel
/-- V2.54 and V1.11. -/
theorem test_busy :
    responds (.busy 0) State.reset (.busy false) ∧ responds (.busy 0) (demo busyStrip) (.busy true) := by
  decide +kernel
/-- V2.60, and V2.61 with either draw. -/
theorem test_wait :
    responds (.wait 0 0) (demo busyStrip) (.err .timeout) ∧
      responds (.wait 0 100) (oracles busyStrip [1]) (.err .timeout) ∧
      nextIs (exec (.wait 0 100) (oracles busyStrip [0])) (fun t => decide (t.holding = some 0 ∧ t.pc = 0)) := by
  decide +kernel
/-- V2.63, and V2.68: released although the channel reports a fault. -/
theorem test_free :
    raises (.free 0) (demo busyStrip) { code := .freeBusy, info := 0, pc := 0 } ∧
      nextIs (exec (.free 0) (oracles p1Strip [0])) (fun t =>
        decide ((t.strip 0).present = false ∧ t.hostResp = [.err .channelFailure])) := by decide +kernel
/-- V2.44, and V2.43's reset of a drawn encoder state. -/
theorem test_encReset :
    raises (.encReset 0) (demo busyStrip) { code := .encResetBusy, info := 0, pc := 0 } ∧
      nextIs (exec (.encReset 0) (demo { p1Strip with enc := ⟨.sendReset, 1, 3, 0⟩ })) (fun t =>
        decide (t.strip 0 = p1Strip)) := by decide +kernel

/-- One byte of buffer in a session, as in V2.30 to V2.39. -/
def oneByte : Strip := { stripOf false 1 [0xA5] with busy := true }
/-- The symbols of `B(0xA5)`. -/
def bA5 : List PulseSymbol := [b1, b0, b1, b0, b0, b1, b0, b1]

/-- V2.33: free 3 three times. -/
theorem test_encode_by_threes :
    encodeRun 64 oneByte [3, 3, 3] =
      { out := bA5 ++ [rst]
        statuses := [⟨false, true⟩, ⟨false, true⟩, ⟨true, true⟩]
        after := { oneByte with slot := [b0, b1, rst] }
        completed := true } := by decide +kernel
/-- V2.35: the data phase ends at the slot's end, then no place, then one. -/
theorem test_encode_reset_phase :
    encodeRun 64 oneByte [8, 0, 1] =
      { out := bA5 ++ [rst]
        statuses := [⟨false, true⟩, ⟨false, true⟩, ⟨true, true⟩]
        after := { oneByte with slot := [rst] }
        completed := true } := by decide +kernel
/-- V2.40: an empty buffer. -/
theorem test_encode_empty :
    (encodeRun 64 { stripOf false 0 [] with busy := true } [5]).out = [rst] := by decide +kernel
/-- V2.42. -/
theorem test_encode_response :
    (Response.encode ⟨true, false⟩ (bA5 ++ [rst])).bytes 15 =
      [0x00, 0x09, 0x00, 0x00, 0x00, 0x01] ++ [0x0A, 0x80, 0x04, 0x00] ++ [0x04, 0x80, 0x0A, 0x00]
        ++ [0x0A, 0x80, 0x04, 0x00] ++ [0x04, 0x80, 0x0A, 0x00] ++ [0x04, 0x80, 0x0A, 0x00] ++ [0x0A, 0x80, 0x04, 0x00]
        ++ [0x04, 0x80, 0x0A, 0x00] ++ [0x0A, 0x80, 0x04, 0x00] ++ [0x19, 0x00, 0x19, 0x00] ∧
      (Response.encode ⟨false, true⟩ []).bytes 15 = [0x00, 0x00, 0x00, 0x00, 0x00, 0x02] := by decide +kernel
/-- V2.45. -/
theorem test_encode_outside :
    (∀ x ∈ [p1Strip, doneStripDemo],
      nextIs (exec (.encode 0 1) (demo x)) fun t =>
        decide (t.refused = some { reason := .encodeOutsideSession, pc := 0 })) ∧
      (nextIs (exec (.encode 0 65) (demo busyStrip)) fun t => t.refused.isSome) ∧
      nextIs (exec (.encode 0 64) (demo { busyStrip with slot := [b0] })) fun t => t.refused.isSome := by
  decide +kernel

/-! ## Every row of the opcode table is fetched and run by the next step -/

/-- The words of spec/opcode_table.json with every operand 0 are read by the decoder. -/
theorem test_table_words :
    decodeTableWord 16 0x01 = some (.compile 0) ∧ decodeTableWord 64 0x02 = some (.init 0 0 0 false) ∧
      decodeTableWord 72 0x03 = some (.setPixel 0 0 ⟨0, 0, 0⟩) ∧ decodeTableWord 80 0x04 = some (.setPixels 0 0 []) ∧
      decodeTableWord 104 0x05 = some (.fill 0 0 0 ⟨0, 0, 0⟩) ∧ decodeTableWord 16 0x06 = some (.flush 0) ∧
      decodeTableWord 16 0x07 = some (.busy 0) ∧ decodeTableWord 48 0x08 = some (.wait 0 0) ∧
      decodeTableWord 16 0x09 = some (.free 0) ∧ decodeTableWord 16 0x0A = some (.encReset 0) ∧
      decodeTableWord 48 0x0B = some (.encode 0 0) := by decide +kernel

/-- After reset, a placed `compile 0` is what the next step runs; a placed ENCODE is refused as outside a session. -/
theorem test_placed_words :
    (nextIs (step (State.reset.withFetchWord 16 0x01)) fun t => decide (t.symbols 0 = some docSymbols)) ∧
      (nextIs (step (State.reset.withFetchWord 48 0x0B)) fun t =>
        decide (t.refused = some { reason := .encodeOutsideSession, pc := 0 })) := by decide +kernel

/-! ## Fairness (R176): two steps enabled, with drawn numbers of choices that may pass them over -/

/-- P1 in flight with one symbol in its slot: CHAN_DRAIN and CHAN_ENCODE are enabled. -/
def twoEnabled (waiting : List (Move × Nat)) (script : List Nat) : State :=
  { demo { busyStrip with slot := [b0] } with waiting := waiting, script := script }

/-- CHAN_DRAIN may still be passed over and CHAN_ENCODE may not: it is taken, and CHAN_DRAIN comes nearer. -/
theorem test_fair_due :
    (twoEnabled [(.drain 0, 5), (.encode 0, 0)] []).nextMove
      = some (.encode 0, twoEnabled [(.drain 0, 4)] []) := by decide
/-- Both begin to wait; none is due, and the draw takes the second of the two. -/
theorem test_fair_passed_over :
    (twoEnabled [] [1, 7, 3]).nextMove = some (.encode 0, twoEnabled [(.drain 0, 0)] []) := by decide

/-! ## States and operands that meet the hypotheses of the statements -/

/-- A demo state meets the invariant when its strip does. -/
theorem demo_inv {st : State} (x : Strip) (hc : st.cfg.wf = true) (hr : st.cfg.resolutionHz = 10000000)
    (hv : st.cfg.variants = Config.reference.variants) (ho : st.cfg.rounding = .halfUp) (hd : st.cfg.durWidth = 15)
    (hsym : st.sym = [(0, docSymbols)]) (hstr : st.strips = [(0, x)]) (hh : st.holding = none)
    (hp : x.present = true → x.PresentOk st.cfg fun v => if v = 0 then some docSymbols else none)
    (ha : x.present = false → x.AbsentOk) (he : ∀ p ∈ x.emitted, symbolOk st.cfg p) : st.Inv := by
  have hy : st.symbols = fun v => if v = 0 then some docSymbols else none := by
    funext v
    simp [State.symbols, hsym, tableGet]
  have hs : ∀ k, st.strip k = if k = 0 then x else Strip.powerOn := by
    intro k
    by_cases hk : k = 0 <;> simp [State.strip, hstr, tableGet, hk]
  have hset : st.cfg.symbolSet Config.profileDoc = docSymbols ∧ st.cfg.profileOk Config.profileDoc = true := by
    have hround : ∀ d, st.cfg.ticks d = Config.reference.ticks d := by
      intro d
      simp [Config.ticks, Config.round, ho, hr, Config.reference]
    have hok : ∀ d, st.cfg.durOk d = Config.reference.durOk d := by
      intro d
      unfold Config.durOk Config.durMax
      rw [hd]
      rfl
    refine ⟨?_, ?_⟩
    · have h : st.cfg.symbolSet Config.profileDoc = Config.reference.symbolSet Config.profileDoc := by
        simp [Config.symbolSet, Config.resetHalf, hround]
      rw [h]
      decide +kernel
    · have h : st.cfg.profileOk Config.profileDoc = Config.reference.profileOk Config.profileDoc := by
        simp [Config.profileOk, Config.durations, Config.resetHalf, hround, hok]
      rw [h]
      decide +kernel
  constructor
  · exact hc
  · intro v set h
    rw [hy] at h
    by_cases hv0 : v = 0
    · subst hv0
      simp only [if_pos, Option.some.injEq] at h
      exact ⟨Config.profileDoc, by rw [hv]; rfl, hset.2, by rw [hset.1, h]⟩
    · simp [hv0] at h
  · simp [hsym]
  · simp [hstr]
  · intro k
    rw [hs, hy]
    by_cases hk : k = 0
    · simpa [hk] using hp
    · simp [hk, Strip.powerOn]
  · intro k
    rw [hs]
    by_cases hk : k = 0
    · simpa [hk] using ha
    · intro _
      simp only [hk, if_false]
      exact ⟨rfl, rfl, rfl, rfl, rfl⟩
  · intro k p
    rw [hs]
    by_cases hk : k = 0
    · simpa [hk] using he p
    · simp [hk, Strip.powerOn, Strip.emitted]
  · simp [hh]

theorem p1Strip_ok (busy chErr encDone : Bool) (c : Config) (h : chErr = true → busy = false)
    (h' : busy = false → encDone = false) :
    Strip.PresentOk c (fun v => if v = 0 then some docSymbols else none)
      { p1Strip with busy := busy, chErr := chErr, encDone := encDone } := by
  refine ⟨Nat.le_refl 1, rfl, .inr rfl, rfl, by simp [p1Strip, stripOf, initStrip], ?_, h, rfl⟩
  intro hb
  exact ⟨rfl, h' hb⟩

/-- P1 in flight: with its strip idle, busy, done or with a pending fault, the state meets the invariant. -/
theorem witness_invariant (busy chErr encDone : Bool) (h : chErr = true → busy = false)
    (h' : busy = false → encDone = false) :
    (demo { p1Strip with busy := busy, chErr := chErr, encDone := encDone }).Inv :=
  demo_inv _ test_cfg_reference rfl rfl rfl rfl rfl rfl rfl (fun _ => p1Strip_ok _ _ _ _ h h') (fun hp => by cases hp)
    (by simp [Strip.emitted, p1Strip, stripOf, initStrip, Strip.powerOn])

/-- The same with oracles. -/
theorem witness_invariant_oracles (busy : Bool) (script : List Nat) :
    (oracles { p1Strip with busy := busy } script).Inv :=
  demo_inv _ (by simp [oracles]; decide) rfl rfl rfl rfl rfl rfl rfl
    (fun _ => p1Strip_ok busy false false _ (by simp) (by simp)) (fun hp => by cases hp)
    (by simp [Strip.emitted, p1Strip, stripOf, initStrip, Strip.powerOn])

theorem demo_p1_inv : (demo p1Strip).Inv := witness_invariant false false false (by simp) (by simp)
theorem demo_busy_inv : (demo busyStrip).Inv := witness_invariant true false false (by simp) (by simp)
theorem demo_done_inv : (demo doneStripDemo).Inv := witness_invariant true false true (by simp) (by simp)
theorem demo_fault_inv : (demo faultedStrip).Inv := witness_invariant false true false (by simp) (by simp)
theorem compiled_inv : compiled.Inv := by
  have h := demo_inv (st := { compiled with strips := [(0, Strip.powerOn)] }) Strip.powerOn test_cfg_reference rfl rfl rfl
    rfl rfl rfl rfl (fun hp => by cases hp) (fun _ => ⟨rfl, rfl, rfl, rfl, rfl⟩) (by simp [Strip.emitted, Strip.powerOn])
  have hs : ∀ k, compiled.strip k = State.strip { compiled with strips := [(0, Strip.powerOn)] } k := by
    intro k
    by_cases hk : k = 0 <;> simp [State.strip, compiled, State.reset, tableGet, hk]
  exact ⟨h.config, h.table, h.tableRising, by simp [compiled, State.reset], fun k => hs k ▸ h.present k,
    fun k => hs k ▸ h.absent k, fun k => hs k ▸ h.emitted k, by simp [compiled, State.reset]⟩

/-- A host program and the agents that step next, on a demo state. -/
def running (x : Strip) (prog : List Byte) (agenda : List Move) : State :=
  { demo x with prog := prog, agenda := agenda }

/-! ### Encoding -/

/-- The highest strip id, the lowest bound, and the empty and a longer color list. -/
theorem witness_DecodingAnEncodedCommandGivesItBack :
    (Instr.flush 255).wf 256 = true ∧ (Instr.flush 0).wf 1 = true ∧ (Instr.setPixels 1 0 []).wf 2 = true ∧
      (Instr.setPixels 1 0xFFFFFFFF [⟨1, 2, 3⟩, ⟨4, 5, 6⟩]).wf 2 = true := by decide
theorem witness_DecodedBytesAreTheEncoding :
    decode .host 2 [0x06, 0x01, 0x07] = .ok (.flush 1, [0x07]) ∧
      decode .channel 1 [0x0B, 0x00, 0xFF, 0xFF, 0xFF, 0xFF] = .ok (.encode 0 0xFFFFFFFF, []) := ⟨rfl, rfl⟩
/-- Nothing left, and one byte short. -/
theorem witness_TruncatedCommandsAreIllegal :
    (Instr.setPixels 1 0 [⟨1, 2, 3⟩]).wf 2 = true ∧ 0 < (encode (.setPixels 1 0 [⟨1, 2, 3⟩])).length ∧
      12 < (encode (.setPixels 1 0 [⟨1, 2, 3⟩])).length := by decide
theorem witness_IllegalEncodingsAreRefused :
    ((0x00 : Byte).toNat = 0 ∧ 12 ≤ (0x0C : Byte).toNat ∧ 12 ≤ (0xFF : Byte).toNat) ∧
      ((Instr.flush 2).stripId = some 2 ∧ (2 : Nat) ≤ 2 ∧ (Instr.encode 255 0).stripId = some 255 ∧ (1 : Nat) ≤ 255) ∧
      ((2 : Byte) ≠ 0 ∧ (2 : Byte) ≠ 1 ∧ (255 : Byte) ≠ 0 ∧ (255 : Byte) ≠ 1) ∧
      ((0 : Byte).toNat < 1 ∧ (255 : Byte).toNat < 256) := by decide
theorem witness_SymbolWordFields :
    (⟨.low, 32767, .high, 32767⟩ : PulseSymbol).duration0 < 2 ^ 15 ∧ b0.duration0 < 2 ^ 15 ∧ b0.duration1 < 2 ^ 15 := by
  decide

/-! ### Steps and agents -/

theorem witness_EveryStepKeepsTheInvariant : (demo busyStrip).Inv ∧ ∃ t, step (demo busyStrip) = .next t :=
  ⟨demo_busy_inv, _, rfl⟩
/-- A finished state and one that is not, neither of them stopped; and a session in flight. -/
theorem witness_NoReachableStateIsStuck :
    (demo p1Strip).Inv ∧ (demo p1Strip).isStopped = false ∧ (demo p1Strip).isFinished ∧ (demo busyStrip).Inv ∧
      (demo busyStrip).isStopped = false ∧ ((demo busyStrip).strip 0).busy = true ∧
      ¬ (demo busyStrip).isFinished := by
  refine ⟨demo_p1_inv, rfl, ⟨rfl, rfl, rfl, rfl, ?_⟩, demo_busy_inv, rfl, rfl, ?_⟩
  · intro k
    by_cases hk : k = 0 <;> simp [State.strip, demo, tableGet, hk, p1Strip, stripOf, initStrip, Strip.powerOn]
  · intro h
    exact absurd (h.2.2.2.2 0) (by decide)
/-- The host next by the agenda, the port next, and a lone host. -/
theorem witness_StepRunsTheDecodedCommand :
    ((running busyStrip [0x07, 0x00] [.host]).nextMove = some (.host, running busyStrip [0x07, 0x00] []) ∧
      decode .host 2 (running busyStrip [0x07, 0x00] [.host]).hostBytes = .ok (.busy 0, [])) ∧
      (State.nextMove { demo busyStrip with chanPort := [0x0B, 0, 1, 0, 0, 0], agenda := [.port] }
          = some (.port, { demo busyStrip with chanPort := [0x0B, 0, 1, 0, 0, 0] }) ∧
        decode .channel 2 [0x0B, 0, 1, 0, 0, 0] = .ok (.encode 0 1, [])) ∧
      (running p1Strip [0x07, 0x00] []).isStopped = false ∧ (running p1Strip [0x07, 0x00] []).agenda = [] ∧
        (running p1Strip [0x07, 0x00] []).moves = [.host] := ⟨⟨rfl, rfl⟩, ⟨rfl, rfl⟩, rfl, rfl, rfl⟩
theorem witness_PlacedCommandRunsNext :
    State.reset.isStopped = false ∧ 1 ≤ State.reset.cfg.maxStrips ∧
      decodeCommand 2 (tableBytes 16 0x0106) = .ok (.flush 1, [0, 0, 0, 0, 0, 0, 0, 0, 0, 0, 0]) ∧
      (Instr.flush 1).port = .host ∧
      decodeCommand 2 (tableBytes 48 0x0B) = .ok (.encode 0 0, [0, 0, 0, 0, 0, 0, 0]) ∧
      (Instr.encode 0 0).port = .channel := ⟨rfl, by decide, rfl, rfl, rfl, rfl⟩
theorem witness_StoppedMachineTakesNoStep :
    State.fault { State.reset with fault := some ⟨.freeBusy, 0, 0⟩ } = some ⟨.freeBusy, 0, 0⟩ ∧
      (State.refused { State.reset with refused := some ⟨.illegal, 0⟩ } = some ⟨.illegal, 0⟩ ∧
        State.reset.fault = none) ∧
      ((running p1Strip [0x00] []).isStopped = false ∧
        (running p1Strip [0x00] []).nextMove = some (.host, running p1Strip [0x00] []) ∧
        decode .host 2 (running p1Strip [0x00] []).hostBytes = .error .illegal) ∧
      ((State.isStopped { demo p1Strip with chanPort := [0x06, 0x00] }) = false ∧
        State.nextMove { demo p1Strip with chanPort := [0x06, 0x00] }
          = some (.port, { demo p1Strip with chanPort := [0x06, 0x00] }) ∧
        decode .channel 2 [0x06, 0x00] = .error .illegal) := ⟨rfl, ⟨rfl, rfl⟩, ⟨rfl, rfl, rfl⟩, rfl, rfl, rfl⟩
theorem witness_AnyEnabledAgentMayStepNext :
    ((running busyStrip [0x07, 0x00] []).isStopped = false ∧
      (∀ m ∈ [Move.host, Move.encode 0], m ∈ (running busyStrip [0x07, 0x00] []).moves)) ∧
      (demo busyStrip).nextMove = some (.encode 0, demo busyStrip) ∧ .fail 0 ∈ (oracles busyStrip []).moves :=
  ⟨by decide, rfl, by decide⟩
/-- A command that ends, one that holds, one that faults. -/
theorem witness_HostCommandEndsHoldsOrFaults :
    (Instr.busy 0).port = .host ∧ (∃ t, exec (.busy 0) (demo p1Strip) = .next t) ∧
      (∃ t, exec (.wait 0 100) (oracles busyStrip [0]) = .next t) ∧ ∃ t, exec (.free 0) (demo busyStrip) = .next t :=
  ⟨rfl, ⟨_, rfl⟩, ⟨_, rfl⟩, _, rfl⟩
theorem witness_OnlyWaitAndFlushHold :
    ((oracles busyStrip [0]).holding = none ∧ ∃ t, exec (.wait 0 1) (oracles busyStrip [0]) = .next t ∧ t.holding ≠ none) ∧
      (∃ t, exec (.flush 0) (oracles busyStrip [0]) = .next t ∧ t.holding ≠ none) ∧
      State.isStopped { demo busyStrip with holding := some 0 } = false ∧
      State.isHeld { demo busyStrip with holding := some 0 } = true :=
  ⟨⟨rfl, _, rfl, by decide⟩, ⟨_, rfl, by decide⟩, rfl, rfl⟩
theorem witness_FaultsAndRefusalsArePrecise :
    ((demo busyStrip).fault = none ∧ ∃ t f, exec (.free 0) (demo busyStrip) = .next t ∧ t.fault = some f) ∧
      (demo p1Strip).refused = none ∧ ∃ t r, exec (.encode 0 1) (demo p1Strip) = .next t ∧ t.refused = some r :=
  ⟨⟨rfl, _, _, rfl, rfl⟩, rfl, _, _, rfl, rfl⟩
/-- An error that writes nothing, the two that clear a pending fault, and FREE's. -/
theorem witness_ErrorReturnsArePrecise :
    (∃ t, exec (.flush 1) (demo p1Strip) = .next t ∧ t.hostResp = [] ++ [.err .invalidArgument]) ∧
      (∃ t, exec (.wait 0 0) (demo faultedStrip) = .next t ∧ t.hostResp = [] ++ [.err .channelFailure]) ∧
      (∃ t, exec (.flush 0) (demo faultedStrip) = .next t ∧ t.hostResp = [] ++ [.err .channelFailure]) ∧
      ∃ t, exec (.free 0) (oracles p1Strip [0]) = .next t ∧ t.hostResp = [] ++ [.err .channelFailure] :=
  ⟨⟨_, rfl, rfl⟩, ⟨_, rfl, rfl⟩, ⟨_, rfl, rfl⟩, _, rfl, rfl⟩
/-- One command for each error kind. -/
theorem witness_ErrorKindsByCommand :
    responds (.compile 7) State.reset (.err .invalidArgument) ∧
      responds (.setPixel 0 1 ⟨0, 0, 0⟩) (demo p1Strip) (.err .outOfRange) ∧
      responds (.init 1 0 1 false) (oracles p1Strip [0]) (.err .outOfMemory) ∧
      responds (.wait 0 0) (demo busyStrip) (.err .timeout) ∧
      responds (.init 1 0 1 false) (oracles p1Strip [1, 0]) (.err .channelFailure) := by decide +kernel

/-! ### Isolation -/

theorem witness_OtherStripsAreNeverWritten :
    ((∃ t, exec (.flush 0) (demo p1Strip) = .next t) ∧ (Instr.flush 0).stripId ≠ some 1 ∧
        (Instr.compile 0).stripId ≠ some 0) ∧
      (∃ t, (demo { busyStrip with slot := [b0] }).runMove (.drain 0) = .next t) ∧
      (∃ t, (demo busyStrip).runMove (.encode 0) = .next t) ∧
      (∃ t, (demo doneStripDemo).runMove (.done 0) = .next t) ∧
      ∃ t, (oracles busyStrip [1, 5]).runMove (.fail 0) = .next t :=
  ⟨⟨⟨_, rfl⟩, by decide, by decide⟩, ⟨_, rfl⟩, ⟨_, rfl⟩, ⟨_, rfl⟩, _, rfl⟩
/-- The same strip 0 beside an absent and beside a busy strip 1. -/
theorem witness_OtherStripsAreNeverRead :
    (∃ t, exec (.flush 0) (demo p1Strip) = .next t) ∧
      (let st' : State := { demo p1Strip with strips := [(0, p1Strip), (1, busyStrip)] }
       st' = { demo p1Strip with strips := st'.strips } ∧
         ∀ k, (Instr.flush 0).stripId = some k → st'.strip k = (demo p1Strip).strip k) := by
  refine ⟨⟨_, rfl⟩, rfl, ?_⟩
  intro k hk
  cases hk
  rfl
theorem witness_SymbolTableIsWrittenOnce :
    ((running p1Strip [0x01, 0x00] []).Inv ∧ (∃ t, step (running p1Strip [0x01, 0x00] []) = .next t) ∧
        (running p1Strip [0x01, 0x00] []).symbols 0 = some docSymbols) ∧
      (∃ t, exec (.flush 0) (demo p1Strip) = .next t) ∧ ∀ v, Instr.flush 0 ≠ .compile v := by
  refine ⟨⟨?_, ⟨_, rfl⟩, rfl⟩, ⟨_, rfl⟩, by simp⟩
  exact ⟨demo_p1_inv.config, demo_p1_inv.table, demo_p1_inv.tableRising, demo_p1_inv.stripsRising,
    demo_p1_inv.present, demo_p1_inv.absent, demo_p1_inv.emitted, by simp [running, demo, State.reset]⟩
theorem witness_ParametersAndProgramNeverChange : ∃ t, step (running p1Strip [0x01, 0x00] []) = .next t := ⟨_, rfl⟩
theorem witness_TxlogKeepsEverySession : ∃ t, step (demo doneStripDemo) = .next t := ⟨_, rfl⟩

/-! ### The symbol compiler -/

/-- An exact quotient and its largest neighbour below the next tick. -/
theorem witness_TicksAreTheRoundedScaledDuration :
    1000000000 ∣ 400 * Config.reference.resolutionHz ∧ ¬ 1000000000 ∣ 499 * Config.reference.resolutionHz ∧
      (400 : Nat) ≤ 499 := by decide
/-- An even and an odd reset time (V2.1, V2.5). -/
theorem witness_ResetHalvesCoverTheResetTime :
    Config.reference.ticks Config.profileDoc.tReset % 2 = 0 ∧
      (withProfile Config.profileDoc 5000000).ticks Config.profileDoc.tReset % 2 = 1 := by decide
/-- V2.7: a half of exactly DUR_MAX; and durations of 1. -/
theorem witness_CompileWritesTheSymbols :
    (∀ p ∈ [{ Config.profileDoc with tReset := 6553400 }, ⟨100, 100, 100, 100, 100, .rgb⟩],
      tableGet (withProfile p 10000000).variants (0 : Byte).toNat = some p ∧
      ∀ d ∈ [(withProfile p 10000000).ticks p.t0High, (withProfile p 10000000).ticks p.t0Low,
        (withProfile p 10000000).ticks p.t1High, (withProfile p 10000000).ticks p.t1Low,
        ((withProfile p 10000000).ticks p.tReset + 1) / 2],
        1 ≤ d ∧ d ≤ 2 ^ (withProfile p 10000000).durWidth - 1) := by decide +kernel
theorem witness_CompileOfAnUnknownVariantFails :
    tableGet Config.reference.variants (3 : Byte).toNat = none ∧
      tableGet Config.reference.variants (255 : Byte).toNat = none := by decide
/-- V2.8 and V2.10: one tick above DUR_MAX, and 0. -/
theorem witness_CompileFaultsOutsideTheDurationField :
    (tableGet (withProfile { Config.profileDoc with tReset := 6553500 } 10000000).variants (0 : Byte).toNat
        = some { Config.profileDoc with tReset := 6553500 } ∧
      2 ^ 15 - 1 <
        ((withProfile { Config.profileDoc with tReset := 6553500 } 10000000).ticks 6553500 + 1) / 2) ∧
      (withProfile { Config.profileDoc with t0High := 40 } 10000000).ticks 40 = 0 := by decide +kernel
theorem witness_CompilingTwiceChangesNothing :
    (Config.reference.resolutionHz = (withProfile Config.profileDoc 10000000).resolutionHz ∧
      Config.reference.rounding = (withProfile Config.profileDoc 10000000).rounding ∧
      Config.reference.durWidth = (withProfile Config.profileDoc 10000000).durWidth) ∧
      (demo p1Strip).Inv ∧ (demo p1Strip).symbols (0 : Byte).toNat = some docSymbols :=
  ⟨⟨rfl, rfl, rfl⟩, demo_p1_inv, rfl⟩

/-! ### The pixel buffer -/

/-- The last pixel of a strip. -/
theorem witness_SetPixelWritesOnePixel :
    ((demo p1Strip).strip 0).present = true ∧ (0 : Word32).toNat < ((demo p1Strip).strip 0).conf.pixels ∧
      ((demo p1Strip).strip 0).busy = false := by decide

def fourPixels : State := demo (stripOf false 4 (List.replicate 12 9))

/-- A range that ends at the strip's end, the whole strip among them. -/
theorem witness_SetPixelsWritesTheRange :
    (fourPixels.strip 0).present = true ∧ [(⟨1, 2, 3⟩ : Color), ⟨4, 5, 6⟩] ≠ [] ∧
      (2 : Word32).toNat + [(⟨1, 2, 3⟩ : Color), ⟨4, 5, 6⟩].length ≤ (fourPixels.strip 0).conf.pixels ∧
      (fourPixels.strip 0).busy = false := by decide
theorem witness_FillWritesTheRange :
    (fourPixels.strip 0).present = true ∧ (4 : Word32).toNat ≠ 0 ∧ (1 : Word32).toNat ≠ 0 ∧
      (0 : Word32).toNat + (4 : Word32).toNat ≤ (fourPixels.strip 0).conf.pixels ∧
      (3 : Word32).toNat + (1 : Word32).toNat ≤ (fourPixels.strip 0).conf.pixels ∧
      (fourPixels.strip 0).busy = false := by decide
theorem witness_WholeStripWritersAgree :
    (fourPixels.strip 0).present = true ∧ (fourPixels.strip 0).busy = false ∧
      (List.replicate 4 (⟨1, 2, 3⟩ : Color)).length = (fourPixels.strip 0).conf.pixels ∧
      List.replicate 4 (⟨1, 2, 3⟩ : Color) ≠ [] ∧ (List.replicate 4 (⟨1, 2, 3⟩ : Color)).length < 4294967296 := by
  decide
/-- An index of exactly P; a range one pixel too long; an empty range that starts at P; one that starts behind P. -/
theorem witness_PixelBoundsErrors :
    ((fourPixels.strip 0).present = true ∧ (fourPixels.strip 0).conf.pixels ≤ (4 : Word32).toNat) ∧
      ([(⟨1, 2, 3⟩ : Color)].length = (1 : Word32).toNat ∧ (1 : Word32).toNat ≠ 0 ∧
        (fourPixels.strip 0).conf.pixels < (4 : Word32).toNat + (1 : Word32).toNat) ∧
      (([] : List Color).length = (0 : Word32).toNat ∧ (4 : Word32).toNat ≤ (fourPixels.strip 0).conf.pixels) ∧
      ((fourPixels.strip 0).conf.pixels < (5 : Word32).toNat ∧
        State.script { fourPixels with script := [1] } = 1 :: [] ∧
        State.script { fourPixels with script := [0] } = 0 :: []) := by decide
theorem witness_WritingWhileBusyFaults :
    ((demo busyStrip).strip 0).present = true ∧ ((demo busyStrip).strip 0).busy = true ∧
      ((0 : Word32).toNat < ((demo busyStrip).strip 0).conf.pixels ∧
        ((demo busyStrip).strip 0).conf.pixels ≤ (1 : Word32).toNat) ∧
      [(⟨1, 2, 3⟩ : Color)].length = (1 : Word32).toNat ∧
      ((1 : Word32).toNat ≠ 0 ∧ (0 : Word32).toNat + (1 : Word32).toNat ≤ ((demo busyStrip).strip 0).conf.pixels) ∧
      ((demo busyStrip).strip 0).conf.pixels < (1 : Word32).toNat + (1 : Word32).toNat ∧
      ([] : List Color).length = (0 : Word32).toNat := by decide

/-! ### The encoder -/

/-- The whole slot, and no place at all; and a session that starts at a drawn position in `SendReset`. -/
theorem witness_EncodeEmitsTheNextSymbols :
    ((demo busyStrip).strip 0).present = true ∧ ((demo busyStrip).strip 0).busy = true ∧
      ((demo busyStrip).strip 0).encDone = false ∧
      (64 : Word32).toNat + ((demo busyStrip).strip 0).slot.length ≤ (demo busyStrip).cfg.slotCap ∧
      (0 : Word32).toNat + ((demo busyStrip).strip 0).slot.length ≤ (demo busyStrip).cfg.slotCap ∧
      ((demo busyStrip).strip 0).buf.map Prod.fst = List.range ((demo busyStrip).strip 0).conf.size ∧
      bitPosition ((demo busyStrip).strip 0).enc ≤ 8 * ((demo busyStrip).strip 0).conf.size ∧
      (let x := (demo { busyStrip with enc := ⟨.sendReset, 1, 3, 0⟩ }).strip 0
       x.present = true ∧ x.busy = true ∧ x.encDone = false ∧ x.buf.map Prod.fst = List.range x.conf.size ∧
         bitPosition x.enc ≤ 8 * x.conf.size) := by decide
theorem witness_EncodeOutsideASessionIsRefused :
    ((demo p1Strip).strip 1).present = false ∧ ((demo p1Strip).strip 0).busy = false ∧
      ((demo doneStripDemo).strip 0).encDone = true ∧
      (demo busyStrip).cfg.slotCap < (65 : Word32).toNat + ((demo busyStrip).strip 0).slot.length ∧
      (demo busyStrip).cfg.slotCap <
        (64 : Word32).toNat + ((demo { busyStrip with slot := [b0] }).strip 0).slot.length := by decide
/-- A session that completes, one that does not yet, and `8N + 1` places offered one at a time. -/
theorem witness_SessionEmitsExactlyTheStream :
    (busyStrip.present = true ∧ busyStrip.busy = true ∧ busyStrip.encDone = false ∧
      busyStrip.buf.map Prod.fst = List.range busyStrip.conf.size ∧ busyStrip.enc.isInitial) ∧
      (∀ f ∈ [64, 0, 8], f ≤ 64) ∧ (encodeRun 64 busyStrip [64]).completed = true ∧
      (encodeRun 64 busyStrip [8, 0]).completed = false ∧
      8 * busyStrip.conf.size + 1 ≤ ((List.replicate 25 1).filter fun f => decide (1 ≤ f)).length := by
  refine ⟨⟨rfl, rfl, rfl, rfl, rfl⟩, by decide, by decide +kernel, by decide +kernel, by decide⟩
theorem witness_EncResetRestoresTheInitialState :
    ((demo p1Strip).strip 0).present = true ∧ ((demo p1Strip).strip 0).busy = false := by decide
/-- V2.43's encoder state. -/
theorem witness_ResetThenFlushSendsTheWholeStream :
    let st := demo { p1Strip with enc := ⟨.sendReset, 1, 3, 0⟩ }
    (st.strip 0).present = true ∧ (st.strip 0).busy = false ∧ (st.strip 0).chErr = false ∧ st.cfg.chan = .never := by
  decide

/-! ### The strip lifecycle -/

/-- Oracles that cannot refuse, and oracles whose three answers accept. -/
theorem witness_InitCreatesTheStrip :
    ((compiled.strip 0).present = false ∧ (1 : Word32).toNat ≠ 0 ∧
      tableGet compiled.cfg.variants (0 : Byte).toNat = some Config.profileDoc ∧
      compiled.symbols (0 : Byte).toNat = some docSymbols ∧
      ([] : List Nat).length = (initCalls compiled.cfg).length ∧ compiled.script = [] ++ []) ∧
      (let st := oracles Strip.powerOn [1, 3, 5, 9]
       (st.strip 0).present = false ∧ tableGet st.cfg.variants (0 : Byte).toNat = some Config.profileDoc ∧
         st.symbols (0 : Byte).toNat = some docSymbols ∧ [1, 3, 5].length = (initCalls st.cfg).length ∧
         (∀ a ∈ [1, 3, 5], a % 2 = 1) ∧ st.script = [1, 3, 5] ++ [9]) := by
  decide
/-- Three given bytes, without oracles and with them; and each of the three calls refused. -/
theorem witness_InitDrawsAreFree :
    ((compiled.strip 0).present = false ∧ (1 : Word32).toNat ≠ 0 ∧
      compiled.symbols (0 : Byte).toNat = some docSymbols ∧
      tableGet compiled.cfg.variants (0 : Byte).toNat = some Config.profileDoc) ∧
      [(0 : Byte), 7, 255].length = (1 : Word32).toNat * 3 ∧
      (([] : List Nat).length = (initCalls compiled.cfg).length ∧
        State.script { compiled with script := [0, 7, 255, 4] } = [] ++ [(0 : Byte), 7, 255].map BitVec.toNat ++ [4]) ∧
      (let st := oracles Strip.powerOn [1, 1, 1, 0, 7, 255]
       (st.strip 0).present = false ∧ st.symbols (0 : Byte).toNat = some docSymbols ∧
         [1, 1, 1].length = (initCalls st.cfg).length ∧
         st.script = [1, 1, 1] ++ [(0 : Byte), 7, 255].map BitVec.toNat ++ []) ∧
      (∀ answers ∈ [[], [1], [1, 3]],
        (∀ a ∈ answers, a % 2 = 1) ∧ (oracles Strip.powerOn (answers ++ [0])).script = answers ++ 0 :: [] ∧
        ((oracles Strip.powerOn (answers ++ [0])).strip 0).present = false) ∧
      initCalls (oracles Strip.powerOn []).cfg = [.outOfMemory, .channelFailure, .outOfMemory] := by decide
theorem witness_InitChecksInOrder :
    ((demo p1Strip).strip 0).present = true ∧
      ((compiled.strip 0).present = false ∧ (0 : Word32).toNat = 0 ∧
        tableGet compiled.cfg.variants (3 : Byte).toNat = none) ∧
      ((1 : Word32).toNat ≠ 0 ∧ (tableGet compiled.cfg.variants (1 : Byte).toNat).isSome = true ∧
        compiled.symbols (1 : Byte).toNat = none) := by decide
theorem witness_FailedInitHoldsNothing :
    compiled.Inv ∧
      ∃ t, exec (.init 0 0 0 false) compiled = .next t ∧ t.hostResp = compiled.hostResp ++ [.err .invalidArgument] :=
  ⟨compiled_inv, _, rfl, rfl⟩
theorem witness_WaitOnAnIdleStripEndsAtOnce :
    (((demo p1Strip).strip 0).present = true ∧ ((demo p1Strip).strip 0).busy = false ∧
      ((demo p1Strip).strip 0).chErr = false) ∧
      ((demo faultedStrip).strip 0).present = true ∧ ((demo faultedStrip).strip 0).busy = false ∧
        ((demo faultedStrip).strip 0).chErr = true := by decide
/-- Both answers of the poll. -/
theorem witness_PollingIsWaitingZero :
    ((demo busyStrip).strip 0).present = true ∧ responds (.busy 0) (demo busyStrip) (.busy true) ∧
      ((demo p1Strip).strip 0).present = true ∧ responds (.busy 0) (demo p1Strip) (.busy false) := by decide +kernel
theorem witness_WaitingOnABusyStripTimesOutOrHolds :
    (∀ n ∈ [0, 1], ((oracles busyStrip [n]).strip 0).present = true ∧ ((oracles busyStrip [n]).strip 0).busy = true ∧
      (oracles busyStrip [n]).script = n :: [] ∧ (oracles busyStrip [n]).cfg.flushTimeout ≠ 0) ∧
      (1 : Word32).toNat ≠ 0 := by decide
theorem witness_FlushStartsASession :
    (((demo p1Strip).strip 0).present = true ∧ ((demo p1Strip).strip 0).busy = false ∧
      ((demo p1Strip).strip 0).chErr = false ∧ (demo p1Strip).cfg.chan = .never) ∧
      (oracles p1Strip [1]).script = 1 :: [] ∧ ((oracles p1Strip [1]).strip 0).present = true ∧
        ((oracles p1Strip [1]).strip 0).busy = false ∧ ((oracles p1Strip [1]).strip 0).chErr = false := by decide
theorem witness_FailedFlushStartsNoSession :
    (((demo faultedStrip).strip 0).present = true ∧ ((demo faultedStrip).strip 0).busy = false ∧
      ((demo faultedStrip).strip 0).chErr = true) ∧
      ((oracles p1Strip [0]).strip 0).present = true ∧ ((oracles p1Strip [0]).strip 0).busy = false ∧
        ((oracles p1Strip [0]).strip 0).chErr = false ∧ (oracles p1Strip [0]).cfg.chan = .external ∧
        (oracles p1Strip [0]).script = 0 :: [] := by decide
theorem witness_FreeReleasesTheStrip :
    (((demo p1Strip).strip 0).present = true ∧ ((demo p1Strip).strip 0).busy = false ∧
      (demo p1Strip).cfg.chan = .never) ∧
      ∀ n ∈ [0, 1], ((oracles p1Strip [n]).strip 0).present = true ∧ ((oracles p1Strip [n]).strip 0).busy = false ∧
        (oracles p1Strip [n]).cfg.chan = .external ∧ (oracles p1Strip [n]).script = n :: [] := by decide
theorem witness_ResetAndFreeWhileBusyFault :
    ((demo busyStrip).strip 0).present = true ∧ ((demo busyStrip).strip 0).busy = true := by decide
theorem witness_AbsentStripIsAnInvalidArgument : ((demo p1Strip).strip 1).present = false := by decide

/-! ### The channel agent -/

theorem witness_DrainMovesTheOldestSymbolToTheWire :
    ((demo { busyStrip with slot := [b0, b1] }).strip 0).slot = b0 :: [b1] ∧
      .drain 0 ∈ (demo { busyStrip with slot := [b0, b1] }).moves := by decide
theorem witness_ChannelEncodeFillsTheSlot : (demo busyStrip).Inv ∧ .encode 0 ∈ (demo busyStrip).moves :=
  ⟨demo_busy_inv, by decide⟩
theorem witness_DoneLogsTheSession : .done 0 ∈ (demo doneStripDemo).moves := by decide
/-- A drawn position at the last data bit. -/
theorem witness_FailedSessionLeavesADrawnPosition :
    .fail 0 ∈ (oracles busyStrip [1, 23]).moves ∧ (oracles busyStrip [1, 23]).script = 1 :: 23 :: [] ∧
      23 < 8 * ((oracles busyStrip [1, 23]).strip 0).conf.size := by decide
/-- P1's FLUSH starts the session; a busy strip tracks it and has a next step; so do a drained and a failing one. -/
theorem witness_TransmissionSendsExactlyTheBuffer :
    (((demo p1Strip).strip 0).present = true ∧ ((demo p1Strip).strip 0).enc.isInitial ∧
      ∃ t, exec (.flush 0) (demo p1Strip) = .next t ∧ t.hostResp = (demo p1Strip).hostResp ++ [.ok]) ∧
      (demo busyStrip).Inv ∧ ((demo busyStrip).strip 0).Tracks ∧ (∃ t, step (demo busyStrip) = .next t) ∧
      (oracles busyStrip [1, 23]).Inv ∧ ((oracles busyStrip [1, 23]).strip 0).Tracks ∧
      ∃ t, step { oracles busyStrip [1, 23] with agenda := [.fail 0] } = .next t := by
  have tracks : busyStrip.Tracks := ⟨rfl, rfl, by decide +kernel, fun _ => rfl, by decide, rfl⟩
  exact ⟨⟨rfl, rfl, _, rfl, rfl⟩, demo_busy_inv, tracks, ⟨_, rfl⟩, witness_invariant_oracles true _, tracks, _, rfl⟩

end Sys2Proof.Tests
end

section
/-! PROOF. What the step of each agent does, said once, and that no step writes the parameters or the host program
(spec/00_scope.md R6, spec/20_memory.md R67). -/

namespace Sys2Proof.Machine

variable {st t u : State} {i : Instr} {m : Move} {r : Response}

/-! ## One agent's step -/

/-- Everything an agent's step that answers a next state can have done; what a command does is `ExecCase`. -/
inductive MoveCase (st t : State) : Move → Prop
  /-- The host ran the command at `pc` (R22). -/
  | hostRuns (i : Instr) (rest : List Byte) (fetched : decode .host st.cfg.maxStrips st.hostBytes = .ok (i, rest))
      (run : exec i st = .next t) : MoveCase st t .host
  /-- The host's input at `pc` was refused (R80, R195). -/
  | hostRefuses (e : DecodeError) (fetched : decode .host st.cfg.maxStrips st.hostBytes = .error e)
      (eq : t = { st with refused := some { reason := refusalOf e, pc := st.pc } }) : MoveCase st t .host
  /-- The bound of the held command elapsed (R164). -/
  | expires (ends : Ends st t (.err .timeout)) (sym : t.sym = st.sym) (strips : t.strips = st.strips) :
      MoveCase st t .expire
  /-- The command offered on the channel port was taken off it and ran (R79). -/
  | portRuns (i : Instr) (rest : List Byte) (fetched : decode .channel st.cfg.maxStrips st.chanPort = .ok (i, rest))
      (run : exec i { st with chanPort := rest } = .next t) : MoveCase st t .port
  /-- The input on the channel port was refused (R80, R195). -/
  | portRefuses (e : DecodeError) (fetched : decode .channel st.cfg.maxStrips st.chanPort = .error e)
      (eq : t = { st with refused := some { reason := refusalOf e, pc := st.pc } }) : MoveCase st t .port
  /-- CHAN_DRAIN (R171). -/
  | drains (k : Nat) (eq : t = st.setStrip k (drainStrip (st.strip k))) : MoveCase st t (.drain k)
  /-- CHAN_ENCODE outside a session (R140, R195). -/
  | encodeRefuses (k : Nat)
      (eq : t = { st with refused := some { reason := .encodeOutsideSession, pc := st.pc } }) :
      MoveCase st t (.encode k)
  /-- CHAN_ENCODE in a session (R172). -/
  | encodes (k : Nat) (out : List PulseSymbol) (status : EncStatus) (x : Strip)
      (answer : encodeStrip st.cfg.slotCap (st.strip k) (st.cfg.slotCap - (st.strip k).slot.length)
        = .ok out status x)
      (eq : t = { st.setStrip k (noteStatus x status) with
        chanResp := st.chanResp ++ [.encode status out] }) : MoveCase st t (.encode k)
  /-- CHAN_DONE (R174). -/
  | finishes (k : Nat) (eq : t = st.setStrip k (doneStrip (st.strip k))) : MoveCase st t (.done k)
  /-- CHAN_FAIL, with a drawn phase and a drawn position (R175). -/
  | fails (k : Nat) (phase : Phase) (n : Nat) (u : State) (draws : OnlyDraws st u)
      (eq : t = u.setStrip k (failStrip (st.strip k) phase (drawnPosition (st.strip k) n))) : MoveCase st t (.fail k)

/-- What an agent's step can have done when it answers a next state. -/
theorem runMove_cases (h : st.runMove m = .next t) : MoveCase st t m := by
  cases m with
  | host =>
    simp only [State.runMove, State.hostStep] at h
    split at h
    · exact .hostRuns _ _ ‹_› h
    · cases h
      exact .hostRefuses _ ‹_› rfl
  | expire =>
    obtain ⟨ends, sym, strips⟩ := ends_fail (.refl st) h
    exact .expires ends sym strips
  | port =>
    simp only [State.runMove, State.portStep] at h
    split at h
    · exact .portRuns _ _ ‹_› h
    · cases h
      exact .portRefuses _ ‹_› rfl
  | drain k =>
    cases h
    exact .drains k rfl
  | encode k =>
    simp only [State.runMove, State.chanEncode] at h
    obtain e | ⟨a, _, e⟩ | ⟨out, status, x, answer, e⟩ :=
      invokeEncode_cases st k (st.cfg.slotCap - (st.strip k).slot.length) <;> rw [e] at h
    · cases h
      exact .encodeRefuses k rfl
    · cases h
    · cases h
      exact .encodes k out status x answer rfl
  | done k =>
    cases h
    exact .finishes k rfl
  | fail k =>
    cases h
    exact .fails k _ _ _ ((drawBit_onlyDraws st).trans (draw_onlyDraws _)) rfl

/-! ## The parameters and the program (R6, R67) -/

/-- The configuration and the host program are as before. -/
def SameParameters (st t : State) : Prop := t.cfg = st.cfg ∧ t.prog = st.prog

theorem SameParameters.trans (h : SameParameters st u) (g : SameParameters u t) : SameParameters st t :=
  ⟨g.1.trans h.1, g.2.trans h.2⟩

theorem OnlyDraws.sameParameters (h : OnlyDraws st t) : SameParameters st t := ⟨h.cfg, h.prog⟩

theorem OnlySchedule.sameParameters (h : OnlySchedule st t) : SameParameters st t := by
  rw [h]
  exact ⟨rfl, rfl⟩

theorem Ends.sameParameters (h : Ends st t r) : SameParameters st t := by
  rw [h.eq]
  exact ⟨rfl, rfl⟩

/-- No command writes the parameters or the program. -/
theorem exec_sameParameters (h : exec i st = .next t) : SameParameters st t := by
  cases exec_cases h with
  | faults _ eq | refuses _ _ _ eq | encodes _ _ _ _ _ _ _ eq =>
    subst eq
    exact ⟨rfl, rfl⟩
  | holds _ _ u draws _ _ eq =>
    subst eq
    exact draws.sameParameters
  | fails _ _ ends | compiles _ _ _ _ _ ends | creates _ _ _ _ _ _ _ _ _ _ _ ends | writes _ _ _ _ _ _ _ _ ends
  | answers _ _ _ ends | clears _ _ _ _ _ ends | starts _ _ _ _ _ ends | releases _ _ _ _ _ _ _ ends
  | resets _ _ _ _ ends => exact ends.sameParameters

/-- No agent's step writes the parameters or the program. -/
theorem runMove_sameParameters (h : st.runMove m = .next t) : SameParameters st t := by
  cases runMove_cases h with
  | hostRuns _ _ _ run => exact exec_sameParameters run
  | portRuns _ rest _ run => exact exec_sameParameters (st := { st with chanPort := rest }) run
  | expires ends => exact ends.sameParameters
  | fails _ _ _ _ draws eq =>
    subst eq
    exact draws.sameParameters
  | hostRefuses _ _ eq | portRefuses _ _ eq | drains _ eq | encodeRefuses _ eq | encodes _ _ _ _ _ eq
  | finishes _ eq =>
    subst eq
    exact ⟨rfl, rfl⟩

/-- Settles O23: choosing the next step changes the schedule and the draws only, and no agent's step writes the
parameters or the program. -/
theorem parametersAndProgramNeverChange : Obligations.ParametersAndProgramNeverChange := by
  intro st t h
  obtain ⟨_, _, _, _, _, chosen, run⟩ := step_cases h
  exact chosen.sameParameters.trans (runMove_sameParameters run)

end Sys2Proof.Machine
end

section
/-! PROOF. The one strip a step can write: everything a command or an agent's step can make of it, said once
(spec/43_strip_lifecycle.md, spec/42_strip_encoder.md), and that no session leaves its log (spec/10_state.md R36). -/

namespace Sys2Proof.Machine

variable {st t u : State} {i : Instr} {m : Move} {c : Config} {sym : Nat → Option SymbolSet} {x y : Strip}

/-! ## Which channel steps are enabled (R170 to R175) -/

/-- The strip's condition for a channel step; the other agents' steps have none. -/
def Move.Enabled (st : State) : Move → Prop
  | .host => True
  | .expire => True
  | .port => True
  | .drain k => canDrain (st.strip k) = true
  | .encode k => canEncode (st.strip k) = true
  | .done k => canFinish (st.strip k) = true
  | .fail k => canFail st.cfg.chan (st.strip k) = true

theorem enabled_of_mem_stripMoves {k : Nat} (h : m ∈ st.stripMoves k) : m.Enabled st := by
  simp only [State.stripMoves, List.mem_append, List.mem_ite_nil_right, List.mem_singleton] at h
  obtain ((⟨can, rfl⟩ | ⟨can, rfl⟩) | ⟨can, rfl⟩) | ⟨can, rfl⟩ := h <;> exact can

/-- A step among the enabled ones meets its strip's condition. -/
theorem enabled_of_mem_moves (h : m ∈ st.moves) : m.Enabled st := by
  simp only [State.moves, List.mem_append, List.mem_flatMap] at h
  obtain (hhost | hport) | ⟨e, _, hstrip⟩ := h
  · unfold State.hostMoves at hhost
    split at hhost
    · obtain rfl := List.mem_singleton.1 hhost
      trivial
    · obtain ⟨_, rfl⟩ : _ ∧ m = .host := by simpa using hhost
      trivial
  · obtain ⟨_, rfl⟩ : _ ∧ m = .port := by simpa using hport
    trivial
  · exact enabled_of_mem_stripMoves hstrip

/-- Choosing a step leaves every step as enabled as it was. -/
theorem OnlySchedule.enabled (h : OnlySchedule st u) (hm : m.Enabled st) : m.Enabled u := by
  rw [h]
  exact hm

/-! ## ENCODE writes the slot and the encoder registers only (R54, R140) -/

/-- Only the slot and the encoder registers differ. -/
def Strip.OnlyEncoder (x y : Strip) : Prop := y = { x with slot := y.slot, enc := y.enc }

theorem Strip.OnlyEncoder.trans {z : Strip} (h : x.OnlyEncoder y) (g : y.OnlyEncoder z) : x.OnlyEncoder z := by
  unfold Strip.OnlyEncoder at *
  rw [g, h]

/-- A phase is set, or is not. -/
theorem onlyEncoder_setPhase_ite (b : Bool) (x : Strip) (p : Phase) :
    x.OnlyEncoder (if b then setPhase x p else x) := by
  cases b <;> rfl

theorem rstEncode_onlyEncoder {free : Nat} {out : List PulseSymbol} {status : EncStatus}
    (h : rstEncode x free = .ok out status y) : x.OnlyEncoder y := by
  unfold rstEncode at h
  split at h <;> cases h <;> rfl

theorem encodeReset_onlyEncoder {free : Nat} {before out : List PulseSymbol} {status : EncStatus}
    (h : encodeReset x free before = .ok out status y) : x.OnlyEncoder y := by
  unfold encodeReset at h
  split at h
  · cases h
  · cases h
  · cases h
    exact (rstEncode_onlyEncoder ‹_›).trans (onlyEncoder_setPhase_ite _ _ _)

theorem dataEncode_onlyEncoder {free : Nat} {out : List PulseSymbol} {status : EncStatus}
    (h : dataEncode x free = .ok out status y) : x.OnlyEncoder y := by
  simp only [dataEncode] at h
  split at h
  · cases h
  · cases h
    rfl

/-- An ENCODE that answers is inside a session and has room, and writes the slot and the encoder registers only. -/
theorem encodeStrip_frame {slotCap free : Nat} {out : List PulseSymbol} {status : EncStatus}
    (h : encodeStrip slotCap x free = .ok out status y) :
    (x.present = true ∧ x.busy = true ∧ x.encDone = false ∧ free + x.slot.length ≤ slotCap) ∧ x.OnlyEncoder y := by
  unfold encodeStrip at h
  split at h
  case isFalse => cases h
  case isTrue session =>
    refine ⟨by simpa [and_assoc] using session, ?_⟩
    split at h
    · exact encodeReset_onlyEncoder h
    · split at h
      · cases h
      · cases h
      · rename_i ds x1 hdata
        have hx2 := (dataEncode_onlyEncoder hdata).trans (onlyEncoder_setPhase_ite ds.complete x1 .sendReset)
        dsimp only at h
        split at h
        · cases h
          exact hx2
        · exact hx2.trans (encodeReset_onlyEncoder h)

/-! ## What a step can make of a strip -/

/-- Everything a command or an agent's step can make of the strip `x` it writes, in a machine with the parameters `c`
and the symbol table `sym`. -/
inductive StripChange (c : Config) (sym : Nat → Option SymbolSet) (x : Strip) : Strip → Prop
  /-- INIT (R161). -/
  | creates (conf : StripConf) (bytes : List Byte) (absent : x.present = false) (nonzero : conf.pixels ≠ 0)
      (compiled : sym conf.variant.toNat = some conf.syms) (size : bytes.length = conf.size) :
      StripChange c sym x (initStrip x conf bytes)
  /-- A pixel write inside the buffer (R114 to R116). -/
  | writes (buf : Memory) (present : x.present = true) (idle : x.busy = false)
      (keys : x.buf.map Prod.fst = List.range x.conf.size → buf.map Prod.fst = List.range x.conf.size) :
      StripChange c sym x { x with buf := buf }
  /-- WAIT or FLUSH reported a pending channel fault (R164). -/
  | clears (present : x.present = true) (idle : x.busy = false) (pending : x.chErr = true) :
      StripChange c sym x { x with chErr := false }
  /-- FLUSH started a session (R167). -/
  | starts (present : x.present = true) (idle : x.busy = false) (noFault : x.chErr = false) :
      StripChange c sym x (startSession x)
  /-- FREE (R168). -/
  | releases (draw : Nat) (present : x.present = true) (idle : x.busy = false) :
      StripChange c sym x (freeStrip x draw)
  /-- ENC_RESET (R143). -/
  | resets (present : x.present = true) (idle : x.busy = false) :
      StripChange c sym x { x with enc := { phase := .sendData, dbyte := 0, dbit := 0, rcount := 0 } }
  /-- ENCODE, from the port or the channel agent (R140, R172). -/
  | encodes (free : Nat) (out : List PulseSymbol) (status : EncStatus) (y : Strip)
      (answer : encodeStrip c.slotCap x free = .ok out status y) : StripChange c sym x (noteStatus y status)
  /-- CHAN_DRAIN (R171). -/
  | drains (enabled : canDrain x = true) : StripChange c sym x (drainStrip x)
  /-- CHAN_DONE (R174). -/
  | finishes (enabled : canFinish x = true) : StripChange c sym x (doneStrip x)
  /-- CHAN_FAIL (R175). -/
  | fails (phase : Phase) (n : Nat) (enabled : inFlight x = true) :
      StripChange c sym x (failStrip x phase (drawnPosition x n))

/-- The strips are as before, but perhaps for one, which a step has written. -/
def StripsChange (st t : State) : Prop :=
  t.strips = st.strips ∨
    ∃ k y, StripChange st.cfg st.symbols (st.strip k) y ∧ t.strips = tableSet st.strips k y

/-- What holds of every strip as it is and after every change holds of every strip after a step. -/
theorem StripsChange.strip_rel {p : Strip → Strip → Prop} (h : StripsChange st t) (refl : ∀ x, p x x)
    (change : ∀ k y, StripChange st.cfg st.symbols (st.strip k) y → p (st.strip k) y) (k : Nat) :
    p (st.strip k) (t.strip k) := by
  obtain same | ⟨j, y, hy, strips⟩ := h
  · rw [strip_congr same]
    exact refl _
  · rw [strip_of_tableSet strips]
    split
    · rename_i hk
      subst hk
      exact change k y hy
    · exact refl _

/-- A pixel write inside the strip keeps the buffer's addresses (R51, R114, R115). -/
theorem writePixels_keys {k i : Nat} {cs : List Color} (st : State)
    (range : i + cs.length ≤ (st.strip k).conf.pixels)
    (keys : (st.strip k).buf.map Prod.fst = List.range (st.strip k).conf.size) :
    ((st.writePixels k i cs).strip k).buf.map Prod.fst = List.range (st.strip k).conf.size := by
  induction cs generalizing st i with
  | nil => exact keys
  | cons c cs ih =>
    rw [List.length_cons] at range
    have hfit : st.pixelAddress k i + (st.colorBytes k c).length ≤ (st.strip k).conf.size := by
      rw [colorBytes_length, State.pixelAddress, ← Nat.mul_succ, StripConf.size, Nat.mul_comm]
      exact Nat.mul_le_mul_right _ (by omega)
    have hkeys := memWrite_keys _ _ _ _ keys hfit
    have hrange : i + 1 + cs.length ≤ (st.strip k).conf.pixels := by omega
    rw [State.writePixels]
    have rest := ih (i := i + 1)
      (st.setStrip k { st.strip k with buf := memWrite (st.strip k).buf (st.pixelAddress k i) (st.colorBytes k c) })
      (by rwa [strip_setStrip_same]) (by rwa [strip_setStrip_same])
    rwa [strip_setStrip_same] at rest

/-- What a pixel write inside the strip makes of it. -/
theorem writePixels_stripsChange {k i : Nat} {cs : List Color} (present : (st.strip k).present = true)
    (idle : (st.strip k).busy = false) (nonempty : cs ≠ []) (range : i + cs.length ≤ (st.strip k).conf.pixels) :
    StripsChange st (st.writePixels k i cs) := by
  obtain ⟨buf, eq⟩ := writePixels_eq st k i cs nonempty
  refine .inr ⟨k, _, .writes buf present idle fun keys => ?_, by rw [eq]; rfl⟩
  simpa [eq] using writePixels_keys st range keys

/-- What a command makes of the strips. -/
theorem exec_stripsChange (h : exec i st = .next t) : StripsChange st t := by
  cases exec_cases h with
  | faults _ eq | refuses _ _ _ eq => exact .inl (by rw [eq])
  | holds _ _ u draws _ _ eq => exact .inl (by rw [eq]; exact draws.strips)
  | fails _ _ _ _ strips | compiles _ _ _ _ _ _ _ strips | answers _ _ _ _ _ strips => exact .inl strips
  | creates _ v length white syms bytes _ absent nonzero compiled size _ _ strips =>
    exact .inr ⟨_, _, .creates ⟨v, length.toNat, white, syms⟩ bytes absent nonzero compiled size, strips⟩
  | writes s start colors _ present idle nonempty range _ _ strips =>
    have change := writePixels_stripsChange present idle nonempty range
    rwa [StripsChange, ← strips] at change
  | clears _ _ present idle pending _ _ strips => exact .inr ⟨_, _, .clears present idle pending, strips⟩
  | starts _ _ present idle noFault _ _ strips => exact .inr ⟨_, _, .starts present idle noFault, strips⟩
  | releases _ _ draw _ _ present idle _ _ strips => exact .inr ⟨_, _, .releases draw present idle, strips⟩
  | resets _ _ present idle _ _ strips => exact .inr ⟨_, _, .resets present idle, strips⟩
  | encodes _ _ _ _ _ _ answer eq => exact .inr ⟨_, _, .encodes _ _ _ _ answer, by rw [eq]; rfl⟩

/-- What an enabled step of an agent makes of the strips. -/
theorem runMove_stripsChange (enabled : m.Enabled st) (h : st.runMove m = .next t) : StripsChange st t := by
  cases runMove_cases h with
  | hostRuns _ _ _ run => exact exec_stripsChange run
  | portRuns _ rest _ run => exact exec_stripsChange (st := { st with chanPort := rest }) run
  | hostRefuses _ _ eq | portRefuses _ _ eq | encodeRefuses _ eq => exact .inl (by rw [eq])
  | expires _ _ strips => exact .inl strips
  | drains _ eq => exact .inr ⟨_, _, .drains enabled, by rw [eq]; rfl⟩
  | encodes _ _ _ _ answer eq => exact .inr ⟨_, _, .encodes _ _ _ _ answer, by rw [eq]; rfl⟩
  | finishes _ eq => exact .inr ⟨_, _, .finishes enabled, by rw [eq]; rfl⟩
  | fails _ phase n _ draws eq =>
    have flight := (Bool.and_eq_true_iff.1 enabled).1
    exact .inr ⟨_, _, .fails phase n flight, by rw [eq, setStrip_strips, draws.strips]⟩

/-- What a step makes of the strips. -/
theorem step_stripsChange (h : step st = .next t) : StripsChange st t := by
  obtain ⟨_, m, u, _, mem, chosen, run⟩ := step_cases h
  have change := runMove_stripsChange (chosen.enabled (enabled_of_mem_moves mem)) run
  rw [chosen] at change
  exact change

/-! ## The log of sessions (R36) -/

/-- No change of a strip takes a session out of its log. -/
theorem StripChange.txlog_prefix (h : StripChange c sym x y) : x.txlog <+: y.txlog := by
  cases h with
  | creates | writes | clears | starts | releases | resets => exact List.prefix_rfl
  | finishes | fails => exact List.prefix_append _ _
  | encodes _ _ status y answer =>
    have only : x.OnlyEncoder y := (encodeStrip_frame answer).2
    rw [only]
    unfold noteStatus
    split <;> exact List.prefix_rfl
  | drains =>
    unfold drainStrip
    split <;> exact List.prefix_rfl

/-- Settles O24: no change of a strip takes a session out of its log. -/
theorem txlogKeepsEverySession : Obligations.TxlogKeepsEverySession := fun _ _ k h =>
  (step_stripsChange h).strip_rel (p := fun x y => x.txlog <+: y.txlog) (fun _ => List.prefix_rfl)
    (fun _ _ change => change.txlog_prefix) k

end Sys2Proof.Machine
end

section
/-! PROOF. The symbol table is written once (spec/10_state.md R25). -/

namespace Sys2Proof.Machine

variable {st t u : State} {i : Instr} {m : Move}

/-- The symbol table is as before, or the symbols COMPILE makes of a known variant's profile are written to it. -/
def SymbolsChange (st t : State) : Prop :=
  t.sym = st.sym ∨
    ∃ v p, tableGet st.cfg.variants v = some p ∧ st.cfg.profileOk p = true ∧
      t.sym = tableSet st.sym v (st.cfg.symbolSet p)

/-- No command but COMPILE writes the symbol table. -/
theorem exec_sym (h : exec i st = .next t) (other : ∀ v, i ≠ .compile v) : t.sym = st.sym := by
  cases exec_cases h with
  | faults _ eq | refuses _ _ _ eq | encodes _ _ _ _ _ _ _ eq =>
    subst eq
    rfl
  | holds _ _ u draws _ _ eq =>
    subst eq
    exact draws.sym
  | compiles v _ instr => exact absurd instr (other v)
  | fails _ _ _ sym | creates _ _ _ _ _ _ _ _ _ _ _ _ sym | writes _ _ _ _ _ _ _ _ _ sym | answers _ _ _ _ sym
  | clears _ _ _ _ _ _ sym | starts _ _ _ _ _ _ sym | releases _ _ _ _ _ _ _ _ sym | resets _ _ _ _ _ sym =>
    exact sym

theorem exec_symbolsChange (h : exec i st = .next t) : SymbolsChange st t := by
  by_cases hc : ∃ v, i = .compile v
  · obtain ⟨v, rfl⟩ := hc
    obtain ⟨_, e⟩ | ⟨p, known, fits, e⟩ | ⟨p, _, _, e⟩ := execCompile_cases v st <;>
      (rw [exec, e] at h; cases h)
    · exact .inl rfl
    · exact .inr ⟨_, p, known, fits, rfl⟩
    · exact .inl rfl
  · exact .inl (exec_sym h fun v hv => hc ⟨v, hv⟩)

theorem runMove_symbolsChange (h : st.runMove m = .next t) : SymbolsChange st t := by
  cases runMove_cases h with
  | hostRuns _ _ _ run => exact exec_symbolsChange run
  | portRuns _ rest _ run => exact exec_symbolsChange (st := { st with chanPort := rest }) run
  | expires _ sym => exact .inl sym
  | fails _ _ _ _ draws eq =>
    subst eq
    exact .inl draws.sym
  | hostRefuses _ _ eq | portRefuses _ _ eq | drains _ eq | encodeRefuses _ eq | encodes _ _ _ _ _ eq
  | finishes _ eq =>
    subst eq
    exact .inl rfl

theorem step_symbolsChange (h : step st = .next t) : SymbolsChange st t := by
  obtain ⟨_, m, u, _, _, chosen, run⟩ := step_cases h
  have change := runMove_symbolsChange run
  rw [chosen] at change
  exact change

/-- Every entry of the table is what COMPILE makes of its variant's profile (R25, R95). -/
def TableOk (c : Config) (sym : Nat → Option SymbolSet) : Prop :=
  ∀ v set, sym v = some set → ∃ p, tableGet c.variants v = some p ∧ c.profileOk p = true ∧ set = c.symbolSet p

theorem SymbolsChange.tableOk (h : SymbolsChange st t) (ok : TableOk st.cfg st.symbols) :
    TableOk st.cfg t.symbols := by
  obtain same | ⟨v, p, known, fits, sym⟩ := h
  · rwa [show t.symbols = st.symbols from funext (symbols_congr same)]
  · intro w set hw
    rw [State.symbols, sym, tableGet_tableSet] at hw
    split at hw
    · rename_i hwv
      subst hwv
      exact ⟨p, known, fits, (Option.some.inj hw).symm⟩
    · exact ok w set hw

/-- Compiling a variant again writes what is there already (R97). -/
theorem SymbolsChange.keeps (h : SymbolsChange st t) (ok : TableOk st.cfg st.symbols) {v : Nat} {set : SymbolSet}
    (entry : st.symbols v = some set) : t.symbols v = some set := by
  obtain same | ⟨w, p, known, _, sym⟩ := h
  · rwa [symbols_congr same]
  · rw [State.symbols, sym, tableGet_tableSet]
    split
    · rename_i hvw
      subst hvw
      obtain ⟨q, hq, _, rfl⟩ := ok v set entry
      rw [Option.some.inj (known.symm.trans hq)]
    · exact entry

theorem SymbolsChange.rising (h : SymbolsChange st t) (rising : (st.sym.map Prod.fst).Pairwise (· < ·)) :
    (t.sym.map Prod.fst).Pairwise (· < ·) := by
  obtain same | ⟨v, p, _, _, sym⟩ := h
  · rwa [same]
  · rw [sym]
    exact tableSet_rising _ _ _ rising

/-- Settles O22: COMPILE alone writes the table, and what it writes to an entry is there already. -/
theorem symbolTableIsWrittenOnce : Obligations.SymbolTableIsWrittenOnce :=
  ⟨fun _ _ _ _ inv h entry => (step_symbolsChange h).keeps inv.table entry, fun _ _ _ h other => exec_sym h other⟩

end Sys2Proof.Machine
end

section
/-! PROOF. The invariant of reachable states holds at power-on and is kept by every step (spec/10_state.md R39). -/

namespace Sys2Proof

/-- A port's decoder accepts what decodes to a command of that port (R79, R80). -/
theorem decode_eq_ok_iff {port : Port} {m : Nat} {bs rest : List Byte} {i : Instr} :
    decode port m bs = .ok (i, rest) ↔ decodeCommand m bs = .ok (i, rest) ∧ i.port = port := by
  unfold decode
  split
  · rename_i e he
    simp [he]
  · rename_i j rest' hj
    rw [hj]
    split <;> grind

/-- The end of the stream is no command. -/
theorem ne_nil_of_decode_ok {port : Port} {m : Nat} {bs rest : List Byte} {i : Instr}
    (h : decode port m bs = .ok (i, rest)) : bs ≠ [] := by
  rintro rfl
  cases h

end Sys2Proof

namespace Sys2Proof.Machine

variable {st t u : State} {i : Instr} {m : Move} {c : Config} {sym : Nat → Option SymbolSet} {x y : Strip}

/-! ## The symbols ENCODE emits (R72, R132, R136) -/

theorem mem_byteSymbols {syms : SymbolSet} {b : Byte} {p : PulseSymbol} (h : p ∈ byteSymbols syms b) :
    p = syms.bit0 ∨ p = syms.bit1 := by
  obtain ⟨j, _, rfl⟩ := List.mem_map.1 h
  split
  · exact .inr rfl
  · exact .inl rfl

theorem mem_stream {syms : SymbolSet} {bytes : List Byte} {p : PulseSymbol} (h : p ∈ stream syms bytes) :
    p = syms.bit0 ∨ p = syms.bit1 ∨ p = syms.reset := by
  rcases List.mem_append.1 h with data | reset
  · obtain ⟨b, _, hp⟩ := List.mem_flatMap.1 data
    exact (mem_byteSymbols hp).imp_right .inl
  · exact .inr (.inr (List.mem_singleton.1 reset))

/-- What is still to come are symbols of the strip's own set. -/
theorem mem_pending {p : PulseSymbol} (h : p ∈ x.pending) :
    p = x.conf.syms.bit0 ∨ p = x.conf.syms.bit1 ∨ p = x.conf.syms.reset := by
  unfold Strip.pending at h
  split at h
  · cases h
  · split at h
    · exact mem_stream (List.mem_of_mem_drop h)
    · exact .inr (.inr (List.mem_singleton.1 h))

/-- The symbols of a profile that compiles have durations in `1..DUR_MAX` (R95, R96). -/
theorem symbolSet_symbolOk {prof : TimingProfile} (h : c.profileOk prof = true) :
    symbolOk c (c.symbolSet prof).bit0 ∧ symbolOk c (c.symbolSet prof).bit1 ∧ symbolOk c (c.symbolSet prof).reset := by
  simp only [Config.profileOk_iff, List.forall_mem_cons] at h
  obtain ⟨h0, l0, h1, l1, half, _⟩ := h
  exact ⟨⟨h0, l0⟩, ⟨h1, l1⟩, half, half⟩

/-- What a strip with compiled symbols has still to emit has durations in `1..DUR_MAX` (R72). -/
theorem pending_symbolOk (table : TableOk c sym) (compiled : sym x.conf.variant.toNat = some x.conf.syms)
    {p : PulseSymbol} (h : p ∈ x.pending) : symbolOk c p := by
  obtain ⟨prof, _, fits, eq⟩ := table _ _ compiled
  obtain ⟨bit0, bit1, reset⟩ := symbolSet_symbolOk fits
  rw [← eq] at bit0 bit1 reset
  rcases mem_pending h with rfl | rfl | rfl
  · exact bit0
  · exact bit1
  · exact reset

/-! ## The cursors after an ENCODE (R31, R32) -/

theorem encoderAfter_cursor {n : Nat} {e : Encoder} (free : Nat) (h : bitPosition e < n ∨ bitPosition e = 0) :
    bitPosition (encoderAfter n e free) < n ∨ bitPosition (encoderAfter n e free) = 0 := by
  unfold encoderAfter
  split
  · split <;> exact h
  · split
    · exact .inl (by rwa [bitPosition_setBitPosition])
    · split <;> exact .inr (bitPosition_setBitPosition e 0)

theorem encoderAfter_rcount {n : Nat} {e : Encoder} (free : Nat) (h : e.rcount = 0) :
    (encoderAfter n e free).rcount = 0 := by
  unfold encoderAfter
  split
  · split
    · exact h
    · rfl
  · split
    · exact h
    · split
      · exact h
      · rfl

/-! ## One strip -/

/-- What the invariant says of one strip. -/
structure StripOk (c : Config) (sym : Nat → Option SymbolSet) (x : Strip) : Prop where
  present : x.present = true → x.PresentOk c sym
  absent : x.present = false → x.AbsentOk
  emitted : ∀ p, p ∈ x.emitted → symbolOk c p

theorem State.Inv.stripOk (h : st.Inv) (k : Nat) : StripOk st.cfg st.symbols (st.strip k) :=
  ⟨h.present k, h.absent k, h.emitted k⟩

/-- A table that keeps its entries keeps what holds of a strip. -/
theorem StripOk.mono {sym' : Nat → Option SymbolSet} (h : StripOk c sym x)
    (keeps : ∀ v set, sym v = some set → sym' v = some set) : StripOk c sym' x :=
  ⟨fun hp => { h.present hp with compiled := keeps _ _ (h.present hp).compiled }, h.absent, h.emitted⟩

theorem noteStatus_eq (x : Strip) (status : EncStatus) :
    noteStatus x status = { x with encDone := status.complete || x.encDone } := by
  unfold noteStatus
  cases status.complete <;> rfl

/-- ENCODE keeps what holds of a strip. -/
theorem StripOk.encodes (h : StripOk c sym x) (table : TableOk c sym) {free : Nat} {out : List PulseSymbol}
    {status : EncStatus} (answer : encodeStrip c.slotCap x free = .ok out status y) :
    StripOk c sym (noteStatus y status) := by
  obtain ⟨⟨present, busy, notDone, fits⟩, _⟩ := encodeStrip_frame answer
  have ok := h.present present
  have inside : bitPosition x.enc ≤ 8 * x.conf.size := by
    have := ok.cursor
    omega
  rw [encodeStrip_eq present busy notDone fits ok.addresses inside] at answer
  cases answer
  rw [noteStatus_eq]
  refine ⟨fun _ => ?_, fun absent => absurd (present.symm.trans absent) (by simp), fun p hp => ?_⟩
  · exact {
      pixels := ok.pixels
      addresses := ok.addresses
      cursor := encoderAfter_cursor free ok.cursor
      rcount := encoderAfter_rcount free ok.rcount
      slotFits := by
        simp only [List.length_append, List.length_take]
        omega
      idle := fun idle => absurd (busy.symm.trans idle) (by simp)
      error := ok.error
      compiled := ok.compiled }
  · have old := h.emitted p
    simp only [Strip.emitted, List.mem_append] at hp old
    obtain ((slot | new) | wire) | log := hp
    · exact old (.inl (.inl slot))
    · exact pending_symbolOk table ok.compiled (List.mem_of_mem_take new)
    · exact old (.inl (.inr wire))
    · exact old (.inr log)

theorem StripOk.drains (h : StripOk c sym x) (enabled : canDrain x = true) : StripOk c sym (drainStrip x) := by
  obtain ⟨⟨present, busy⟩, nonempty⟩ : (x.present = true ∧ x.busy = true) ∧ x.slot ≠ [] := by
    simpa [canDrain, inFlight] using enabled
  obtain ⟨p, rest, slot⟩ := List.exists_cons_of_ne_nil nonempty
  rw [show drainStrip x = { x with slot := rest, wire := x.wire ++ [p] } by simp [drainStrip, slot]]
  have ok := h.present present
  have fits := ok.slotFits
  rw [slot, List.length_cons] at fits
  refine ⟨fun _ => ?_, fun absent => by simp_all, fun q hq => h.emitted q ?_⟩
  · exact { ok with slotFits := Nat.le_of_succ_le fits, idle := fun idle => by simp_all }
  · simp only [Strip.emitted, slot, List.mem_append, List.mem_cons, List.not_mem_nil] at hq ⊢
    tauto

/-- CHAN_FAIL leaves the data cursor within the buffer (R31, R175). -/
theorem failStrip_cursor (x : Strip) (phase : Phase) (n : Nat) :
    bitPosition (failStrip x phase (drawnPosition x n)).enc < 8 * x.conf.size ∨
      bitPosition (failStrip x phase (drawnPosition x n)).enc = 0 := by
  simp only [failStrip, bitPosition_setBitPosition, drawnPosition]
  split
  · exact .inl ‹_›
  · exact .inr rfl

/-- Everything a step can make of a strip keeps what holds of it (R39). -/
theorem StripOk.change (h : StripOk c sym x) (table : TableOk c sym) (change : StripChange c sym x y) :
    StripOk c sym y := by
  cases change with
  | encodes _ _ _ _ answer => exact h.encodes table answer
  | creates conf bytes absent nonzero compiled size =>
    refine ⟨fun _ => ?_, nofun, fun p hp => h.emitted p (List.mem_append_right _ hp)⟩
    exact {
      pixels := Nat.one_le_iff_ne_zero.2 nonzero
      addresses := by
        rw [List.range_eq_range', initStrip, ← size]
        exact memFrom_keys 0 bytes
      cursor := .inr rfl
      rcount := rfl
      slotFits := Nat.zero_le _
      idle := fun _ => ⟨rfl, rfl⟩
      error := nofun
      compiled := compiled }
  | writes buf present idle keys =>
    have ok := h.present present
    exact ⟨fun _ => { ok with addresses := keys ok.addresses }, fun absent => by simp_all, h.emitted⟩
  | clears present idle =>
    exact ⟨fun _ => { h.present present with error := nofun }, fun absent => by simp_all, h.emitted⟩
  | starts present idle noFault =>
    have ok := h.present present
    refine ⟨fun _ => ?_, fun absent => by simp_all [startSession],
      fun p hp => h.emitted p (List.mem_append_right _ hp)⟩
    exact { ok with slotFits := Nat.zero_le _, idle := nofun, error := fun err => by simp_all [startSession] }
  | releases draw present idle =>
    refine ⟨nofun, fun _ => ⟨rfl, idle, rfl, rfl, rfl⟩, fun p hp => h.emitted p ?_⟩
    simp only [Strip.emitted, freeStrip, encDelete, List.nil_append, List.append_assoc] at hp ⊢
    exact List.mem_append_right _ hp
  | resets present idle =>
    have ok := h.present present
    exact ⟨fun _ => { ok with cursor := .inr rfl, rcount := rfl }, fun absent => by simp_all, h.emitted⟩
  | drains enabled => exact h.drains enabled
  | finishes enabled =>
    obtain ⟨⟨present, busy⟩, done, empty⟩ : (x.present = true ∧ x.busy = true) ∧ x.encDone = true ∧ x.slot = [] := by
      simpa [canFinish, inFlight, and_assoc] using enabled
    have ok := h.present present
    refine ⟨fun _ => ?_, fun absent => by simp_all [doneStrip], fun p hp => h.emitted p ?_⟩
    · exact { ok with idle := fun _ => ⟨empty, rfl⟩, error := fun _ => rfl }
    · simp only [Strip.emitted, doneStrip, List.flatMap_append, List.flatMap_singleton, List.mem_append] at hp ⊢
      tauto
  | fails phase n flight =>
    obtain ⟨present, busy⟩ : x.present = true ∧ x.busy = true := by simpa [inFlight] using flight
    have ok := h.present present
    refine ⟨fun _ => ?_, fun absent => by simp_all [failStrip], fun p hp => h.emitted p ?_⟩
    · exact { ok with
        cursor := failStrip_cursor x phase n
        rcount := rfl
        slotFits := Nat.zero_le _
        idle := fun _ => ⟨rfl, rfl⟩
        error := fun _ => rfl }
    · simp only [Strip.emitted, failStrip, List.flatMap_append, List.flatMap_singleton, List.mem_append,
        List.not_mem_nil] at hp ⊢
      tauto

/-! ## The held command (R22) -/

/-- The host holds only while a command is there to hold. -/
def Held (st : State) : Prop := st.holding.isSome = true → st.hostBytes ≠ []

/-- A state with the same hold, pc, parameters and program. -/
theorem Held.congr (h : Held st) (holding : t.holding = st.holding) (pc : t.pc = st.pc)
    (same : SameParameters st t) : Held t := by
  unfold Held
  rwa [holding, hostBytes_congr same.1 pc same.2]

/-- No hold is left when a command has ended. -/
theorem Ends.held {r : Response} (h : Ends st t r) : Held t := by
  unfold Held
  rw [h.eq]
  nofun

/-- A command holds only where the host has bytes for it. -/
theorem exec_held (h : exec i st = .next t) (held : Held st) (bytes : i.port = .host → st.hostBytes ≠ []) : Held t := by
  have same := exec_sameParameters h
  cases exec_cases h with
  | faults _ eq | refuses _ _ _ eq | encodes _ _ _ _ _ _ _ eq =>
    subst eq
    exact held.congr rfl rfl same
  | holds _ instr u draws _ _ eq =>
    have pc : t.pc = st.pc := by
      subst eq
      exact draws.pc
    intro _
    rw [hostBytes_congr same.1 pc same.2]
    exact bytes (by obtain ⟨_, rfl⟩ | rfl := instr <;> rfl)
  | fails _ _ ends | compiles _ _ _ _ _ ends | creates _ _ _ _ _ _ _ _ _ _ _ ends | writes _ _ _ _ _ _ _ _ ends
  | answers _ _ _ ends | clears _ _ _ _ _ ends | starts _ _ _ _ _ ends | releases _ _ _ _ _ _ _ ends
  | resets _ _ _ _ ends => exact ends.held

theorem runMove_held (h : st.runMove m = .next t) (held : Held st) : Held t := by
  have same := runMove_sameParameters h
  cases runMove_cases h with
  | hostRuns _ _ fetched run => exact exec_held run held fun _ => ne_nil_of_decode_ok fetched
  | portRuns i rest fetched run =>
    have port := (decode_eq_ok_iff.1 fetched).2
    exact exec_held (st := { st with chanPort := rest }) run held fun host => by simp [port] at host
  | expires ends => exact ends.held
  | fails _ _ _ _ draws eq =>
    subst eq
    exact held.congr draws.holding draws.pc same
  | hostRefuses _ _ eq | portRefuses _ _ eq | drains _ eq | encodeRefuses _ eq | encodes _ _ _ _ _ eq
  | finishes _ eq =>
    subst eq
    exact held.congr rfl rfl same

theorem step_held (h : step st = .next t) (held : Held st) : Held t := by
  obtain ⟨_, m, u, _, _, chosen, run⟩ := step_cases h
  refine runMove_held run ?_
  rw [chosen]
  exact held

/-! ## The whole machine -/

theorem StripsChange.rising (h : StripsChange st t) (rising : (st.strips.map Prod.fst).Pairwise (· < ·)) :
    (t.strips.map Prod.fst).Pairwise (· < ·) := by
  obtain same | ⟨k, y, _, strips⟩ := h
  · rwa [same]
  · rw [strips]
    exact tableSet_rising _ _ _ rising

/-- Settles O9: a step changes one strip, in a way that keeps what holds of it, and keeps the table's entries. -/
theorem everyStepKeepsTheInvariant : Obligations.EveryStepKeepsTheInvariant := by
  intro st t inv h
  have cfg : t.cfg = st.cfg := (parametersAndProgramNeverChange st t h).1
  have strips := step_stripsChange h
  have symbols := step_symbolsChange h
  have table : TableOk st.cfg st.symbols := inv.table
  have stripOk : ∀ k, StripOk t.cfg t.symbols (t.strip k) := fun k => by
    rw [cfg]
    have ok := strips.strip_rel (p := fun x y => StripOk st.cfg st.symbols x → StripOk st.cfg st.symbols y)
      (fun _ => id) (fun _ _ change ok => ok.change table change) k (inv.stripOk k)
    exact ok.mono fun _ _ => symbols.keeps table
  exact {
    config := by rw [cfg]; exact inv.config
    table := by rw [cfg]; exact symbols.tableOk table
    tableRising := symbols.rising inv.tableRising
    stripsRising := strips.rising inv.stripsRising
    present := fun k => (stripOk k).present
    absent := fun k => (stripOk k).absent
    emitted := fun k => (stripOk k).emitted
    held := step_held h inv.held }

/-- Settles O8: nothing is compiled, listed or held at power-on, and every strip is absent and empty. -/
theorem powerOnMeetsTheInvariant : Obligations.PowerOnMeetsTheInvariant where
  config := by decide
  table := nofun
  tableRising := .nil
  stripsRising := .nil
  present := nofun
  absent _ _ := ⟨rfl, rfl, rfl, rfl, rfl⟩
  emitted := nofun
  held := nofun

end Sys2Proof.Machine
end

section
/-! PROOF. How a host command ends (spec/10_state.md R22), and that a step runs the command the decoder reads
(spec/00_scope.md R5). -/

namespace Sys2Proof.Machine

variable {st t u : State} {i : Instr} {m : Move}

/-- Settles O15: what each case of a host command leaves; the two cases of ENCODE are not the host's. -/
theorem hostCommandEndsHoldsOrFaults : Obligations.HostCommandEndsHoldsOrFaults := by
  intro i st t host h
  cases exec_cases h with
  | faults f eq pc =>
    subst eq
    exact .inr ⟨rfl, rfl, .inr ⟨f, rfl, pc⟩⟩
  | refuses _ _ instr | encodes _ _ _ _ _ instr =>
    subst instr
    cases host
  | holds s instr u draws _ _ eq =>
    subst eq
    refine .inr ⟨draws.pc, draws.hostResp, .inl ⟨s.toNat, ?_, rfl, draws.fault⟩⟩
    obtain ⟨_, rfl⟩ | rfl := instr <;> rfl
  | fails _ _ ends | compiles _ _ _ _ _ ends | creates _ _ _ _ _ _ _ _ _ _ _ ends | writes _ _ _ _ _ _ _ _ ends
  | answers _ _ _ ends | clears _ _ _ _ _ ends | starts _ _ _ _ _ ends | releases _ _ _ _ _ _ _ ends
  | resets _ _ _ _ ends => exact .inl ⟨_, ends.hostEnds⟩

/-! ## A step runs the decoded command -/

theorem runMove_host {rest : List Byte} (h : decode .host st.cfg.maxStrips st.hostBytes = .ok (i, rest)) :
    st.runMove .host = exec i st := by
  simp [State.runMove, State.hostStep, h]

theorem runMove_port {rest : List Byte} (h : decode .channel st.cfg.maxStrips st.chanPort = .ok (i, rest)) :
    st.runMove .port = exec i { st with chanPort := rest } := by
  simp [State.runMove, State.portStep, h]

/-- When the host is next, a step runs the command at the pc (R22). -/
theorem step_host {rest : List Byte} (running : st.isStopped = false) (next : st.nextMove = some (.host, u))
    (fetched : decode .host st.cfg.maxStrips st.hostBytes = .ok (i, rest)) : step st = exec i u := by
  rw [step_eq_runMove running next]
  apply runMove_host
  rw [(nextMove_spec next).2]
  exact fetched

/-- When the channel port is next, a step runs the command offered there (R79). -/
theorem step_port {rest : List Byte} (running : st.isStopped = false) (next : st.nextMove = some (.port, u))
    (fetched : decode .channel st.cfg.maxStrips st.chanPort = .ok (i, rest)) :
    step st = exec i { u with chanPort := rest } := by
  rw [step_eq_runMove running next]
  apply runMove_port
  rw [(nextMove_spec next).2]
  exact fetched

/-- The only enabled step is next, and then no step waits. -/
theorem nextMove_of_lone (agenda : st.agenda = []) (lone : st.moves = [m]) :
    st.nextMove = some (m, { st with waiting := [] }) := by
  simp [State.nextMove, agenda, lone, State.chooseMove]

/-- The enabled step at the head of the agenda is next; one that is not fair leaves the waiting steps as they are. -/
theorem nextMove_of_agenda_of_not_fair {rest : List Move} (agenda : st.agenda = m :: rest) (enabled : m ∈ st.moves)
    (unfair : m.isFair = false) : st.nextMove = some (m, { st with agenda := rest }) := by
  simp [State.nextMove, agenda, enabled, take_of_not_fair _ unfair]

/-- Settles O11: the step of the agent that is next runs what the decoder of its port reads. -/
theorem stepRunsTheDecodedCommand : Obligations.StepRunsTheDecodedCommand :=
  ⟨fun _ _ _ _ running next => step_host running next, fun _ _ _ _ running next => step_port running next,
    fun _ _ _ running agenda lone => step_host running (nextMove_of_lone agenda lone)⟩

end Sys2Proof.Machine
end

section
/-! PROOF. The decoder reads an encoded command back, and a placed command runs next (spec/30_encoding.md R73 to
R80). -/

namespace Sys2Proof

variable {m : Nat} {i : Instr} {fields bs rest : List Byte}

/-- A well-formed command is read back from its bytes, whatever follows them (R73, R77). -/
theorem decodeCommand_encode (m : Nat) (i : Instr) (rest : List Byte) (wf : i.wf m = true) :
    decodeCommand m (encode i ++ rest) = .ok (i, rest) := by
  cases i with
  | compile v => rfl
  | init s v length white =>
    cases white <;>
      simpa [encode, Instr.opcode, Instr.fieldBytes, writeU32, decodeCommand, decodeFields, decodeFI,
      readU32_writeU32, acceptStrip, Instr.wf] using wf
  | setPixel s index c =>
    simpa [encode, Instr.opcode, Instr.fieldBytes, writeU32, decodeCommand, decodeFields, decodeFP, Color.bytes,
      readU32_writeU32, acceptStrip, Instr.wf] using wf
  | setPixels s start cs =>
    obtain ⟨ok, fits⟩ : stripIdOk m s = true ∧ cs.length < 4294967296 := by simpa [Instr.wf] using wf
    simp [encode, Instr.opcode, Instr.fieldBytes, writeU32, decodeCommand, decodeFields, decodeFM,
      readU32_writeU32, acceptStrip, Nat.mod_eq_of_lt fits, decodeColors_bytes, ok]
  | fill s start len c =>
    simpa [encode, Instr.opcode, Instr.fieldBytes, writeU32, decodeCommand, decodeFields, decodeFF, Color.bytes,
      readU32_writeU32, acceptStrip, Instr.wf] using wf
  | flush s | busy s | free s | encReset s =>
    simpa [encode, Instr.opcode, Instr.fieldBytes, decodeCommand, decodeFields, decodeFS, acceptStrip, Instr.wf]
      using wf
  | wait s w | encode s w =>
    simpa [Sys2Proof.encode, Instr.opcode, Instr.fieldBytes, writeU32, decodeCommand, decodeFields, decodeFT,
      readU32_writeU32, acceptStrip, Instr.wf] using wf

/-! ## What the decoder accepts (R75, R79, R80) -/

theorem decodeFV_eq_ok (h : decodeFV fields = .ok (i, rest)) : ∃ v, i = .compile v ∧ fields = v :: rest := by
  unfold decodeFV at h
  split at h
  · cases h
    exact ⟨_, rfl, rfl⟩
  · cases h

theorem decodeFI_eq_ok (h : decodeFI m fields = .ok (i, rest)) :
    ∃ s v length white, stripIdOk m s = true ∧ i = .init s v length white ∧
      fields = [s, v] ++ writeU32 length ++ [if white then 1 else 0] ++ rest := by
  unfold decodeFI at h
  split at h
  case h_1 s v l0 l1 l2 l3 w rest' =>
    split at h
    case isTrue hw =>
      obtain ⟨ok, rfl, rfl⟩ := acceptStrip_eq_ok h
      exact ⟨s, v, _, false, ok, rfl, by simp [writeU32_readU32, hw]⟩
    case isFalse =>
      split at h
      case isTrue hw =>
        obtain ⟨ok, rfl, rfl⟩ := acceptStrip_eq_ok h
        exact ⟨s, v, _, true, ok, rfl, by simp [writeU32_readU32, hw]⟩
      case isFalse => cases h
  · cases h

theorem decodeFP_eq_ok (h : decodeFP m fields = .ok (i, rest)) :
    ∃ s index c, stripIdOk m s = true ∧ i = .setPixel s index c ∧
      fields = [s] ++ writeU32 index ++ c.bytes ++ rest := by
  unfold decodeFP at h
  split at h
  · obtain ⟨ok, rfl, rfl⟩ := acceptStrip_eq_ok h
    exact ⟨_, _, _, ok, rfl, by simp [writeU32_readU32, Color.bytes]⟩
  · cases h

theorem decodeFM_eq_ok (h : decodeFM m fields = .ok (i, rest)) :
    ∃ s start colors, stripIdOk m s = true ∧ colors.length < 4294967296 ∧ i = .setPixels s start colors ∧
      fields = [s] ++ writeU32 start ++ writeU32 (BitVec.ofNat 32 colors.length) ++ colors.flatMap Color.bytes
        ++ rest := by
  unfold decodeFM at h
  split at h
  · split at h
    case h_1 colors _ read =>
      obtain ⟨ok, rfl, rfl⟩ := acceptStrip_eq_ok h
      obtain ⟨rfl, length⟩ := decodeColors_eq_some read
      refine ⟨_, _, colors, ok, by rw [length]; exact BitVec.isLt _, rfl, ?_⟩
      rw [length, BitVec.ofNat_toNat, BitVec.setWidth_eq, writeU32_readU32, writeU32_readU32]
      simp
    · cases h
  · cases h

theorem decodeFF_eq_ok (h : decodeFF m fields = .ok (i, rest)) :
    ∃ s start len c, stripIdOk m s = true ∧ i = .fill s start len c ∧
      fields = [s] ++ writeU32 start ++ writeU32 len ++ c.bytes ++ rest := by
  unfold decodeFF at h
  split at h
  · obtain ⟨ok, rfl, rfl⟩ := acceptStrip_eq_ok h
    exact ⟨_, _, _, _, ok, rfl, by simp [writeU32_readU32, Color.bytes]⟩
  · cases h

theorem decodeFS_eq_ok {command : Byte → Instr} (h : decodeFS m command fields = .ok (i, rest)) :
    ∃ s, stripIdOk m s = true ∧ i = command s ∧ fields = [s] ++ rest := by
  unfold decodeFS at h
  split at h
  · obtain ⟨ok, rfl, rfl⟩ := acceptStrip_eq_ok h
    exact ⟨_, ok, rfl, rfl⟩
  · cases h

theorem decodeFT_eq_ok {command : Byte → Word32 → Instr} (h : decodeFT m command fields = .ok (i, rest)) :
    ∃ s w, stripIdOk m s = true ∧ i = command s w ∧ fields = [s] ++ writeU32 w ++ rest := by
  unfold decodeFT at h
  split at h
  · obtain ⟨ok, rfl, rfl⟩ := acceptStrip_eq_ok h
    exact ⟨_, _, ok, rfl, by simp [writeU32_readU32]⟩
  · cases h

/-- What decodes under an opcode is a well-formed command of that opcode, from its own field bytes. -/
theorem decodeFields_eq_ok {op : Nat} (h : decodeFields m op fields = .ok (i, rest)) :
    op = i.opcode.toNat ∧ fields = i.fieldBytes ++ rest ∧ i.wf m = true := by
  unfold decodeFields at h
  split at h
  · obtain ⟨v, rfl, eq⟩ := decodeFV_eq_ok h
    exact ⟨rfl, eq, rfl⟩
  · obtain ⟨s, v, length, white, ok, rfl, eq⟩ := decodeFI_eq_ok h
    exact ⟨rfl, eq, ok⟩
  · obtain ⟨s, index, c, ok, rfl, eq⟩ := decodeFP_eq_ok h
    exact ⟨rfl, eq, ok⟩
  · obtain ⟨s, start, colors, ok, fits, rfl, eq⟩ := decodeFM_eq_ok h
    exact ⟨rfl, eq, by simp [Instr.wf, ok, fits]⟩
  · obtain ⟨s, start, len, c, ok, rfl, eq⟩ := decodeFF_eq_ok h
    exact ⟨rfl, eq, ok⟩
  · obtain ⟨s, ok, rfl, eq⟩ := decodeFS_eq_ok h
    exact ⟨rfl, eq, ok⟩
  · obtain ⟨s, ok, rfl, eq⟩ := decodeFS_eq_ok h
    exact ⟨rfl, eq, ok⟩
  · obtain ⟨s, w, ok, rfl, eq⟩ := decodeFT_eq_ok h
    exact ⟨rfl, eq, ok⟩
  · obtain ⟨s, ok, rfl, eq⟩ := decodeFS_eq_ok h
    exact ⟨rfl, eq, ok⟩
  · obtain ⟨s, ok, rfl, eq⟩ := decodeFS_eq_ok h
    exact ⟨rfl, eq, ok⟩
  · obtain ⟨s, w, ok, rfl, eq⟩ := decodeFT_eq_ok h
    exact ⟨rfl, eq, ok⟩
  · cases h

/-- What decodes is the encoding of a well-formed command and the bytes that are left (R73, R77). -/
theorem decodeCommand_eq_ok (h : decodeCommand m bs = .ok (i, rest)) : bs = encode i ++ rest ∧ i.wf m = true := by
  cases bs with
  | nil => cases h
  | cons op fields =>
    obtain ⟨opcode, rfl, wf⟩ := decodeFields_eq_ok h
    rw [BitVec.eq_of_toNat_eq opcode]
    exact ⟨rfl, wf⟩

end Sys2Proof

namespace Sys2Proof.Machine

variable {i : Instr} {rest : List Byte}

/-- Reading the commands before the pc leaves what was put behind them (R22, log 6). -/
theorem dropCommands_commandPrefix {maxStrips : Nat} (strips : 1 ≤ maxStrips) (n : Nat) (prog bytes : List Byte) :
    dropCommands maxStrips n (commandPrefix maxStrips n prog ++ bytes) = bytes := by
  induction n generalizing prog with
  | zero => rfl
  | succ n ih =>
    unfold commandPrefix
    split
    case h_1 i rest read =>
      have wf := (decodeCommand_eq_ok read).2
      rw [List.append_assoc, dropCommands, decodeCommand_encode _ i _ wf]
      exact ih rest
    case h_2 =>
      have wf : (Instr.busy 0).wf maxStrips = true := decide_eq_true strips
      rw [List.append_assoc, show ([0x07, 0x00] : List Byte) = encode (.busy 0) from rfl, dropCommands,
        decodeCommand_encode _ _ _ wf]
      exact ih []

/-- A host command is placed behind the commands before the pc, and the host is next (log 6). -/
theorem placeBytes_host {bytes : List Byte} (st : State)
    (read : decodeCommand st.cfg.maxStrips bytes = .ok (i, rest)) (host : i.port = .host) :
    st.placeBytes bytes =
      { st with
        prog := commandPrefix st.cfg.maxStrips st.pc st.prog ++ bytes
        holding := none
        agenda := .host :: st.agenda } := by
  simp [State.placeBytes, decode, read, host]

/-- An ENCODE is offered on the channel port, and the port is next (log 11). -/
theorem placeBytes_channel {bytes : List Byte} (st : State)
    (read : decodeCommand st.cfg.maxStrips bytes = .ok (i, rest)) (channel : i.port = .channel) :
    st.placeBytes bytes = { st with chanPort := bytes, agenda := .port :: st.agenda } := by
  simp [State.placeBytes, decode, read, channel]

theorem host_mem_moves {st : State} (free : st.holding = none) (bytes : st.hostBytes ≠ []) : .host ∈ st.moves := by
  simp [State.moves, State.hostMoves, State.isHeld, free, bytes]

theorem port_mem_moves {st : State} (offered : st.chanPort ≠ []) : .port ∈ st.moves := by
  simp [State.moves, offered]

/-- Settles O12: the placed bytes are what the next step's agent reads, and that agent is at the head of the agenda. -/
theorem placedCommandRunsNext : Obligations.PlacedCommandRunsNext := by
  intro st nbits w i rest running strips read
  refine ⟨fun host => ?_, fun channel => ?_⟩
  · have placed : st.withFetchWord nbits w = _ := placeBytes_host st read host
    have bytes : (st.withFetchWord nbits w).hostBytes = tableBytes nbits w := by
      rw [placed]
      exact dropCommands_commandPrefix strips _ _ _
    have fetched : decode .host (st.withFetchWord nbits w).cfg.maxStrips (st.withFetchWord nbits w).hostBytes =
        .ok (i, rest) := by
      rw [bytes, placed]
      exact decode_eq_ok_iff.2 ⟨read, host⟩
    have enabled := host_mem_moves (by rw [placed]) (ne_nil_of_decode_ok fetched)
    exact step_host (by rw [placed]; exact running)
      (nextMove_of_agenda_of_not_fair (by rw [placed]) enabled rfl) fetched
  · have placed : st.withFetchWord nbits w = _ := placeBytes_channel st read channel
    have fetched : decode .channel (st.withFetchWord nbits w).cfg.maxStrips (st.withFetchWord nbits w).chanPort =
        .ok (i, rest) := by
      rw [placed]
      exact decode_eq_ok_iff.2 ⟨read, channel⟩
    have enabled := port_mem_moves (ne_nil_of_decode_ok fetched)
    exact step_port (by rw [placed]; exact running)
      (nextMove_of_agenda_of_not_fair (by rw [placed]) enabled rfl) fetched

end Sys2Proof.Machine
end

section
/-! PROOF. A step writes no strip but its own, and a command reads no strip but the one it names
(spec/20_memory.md R62, spec/60_exceptions.md R206). -/

namespace Sys2Proof.Machine

variable {st st' t u : State} {i : Instr} {m : Move} {o : Option Nat} {k : Nat}

/-! ## The strip a command or a channel step writes -/

/-- The strips are as before, but perhaps for the strip `o` names. -/
def WritesAtMost (o : Option Nat) (st t : State) : Prop :=
  t.strips = st.strips ∨ ∃ k x, o = some k ∧ t.strips = tableSet st.strips k x

theorem WritesAtMost.strip_other (h : WritesAtMost o st t) (hk : o ≠ some k) : t.strip k = st.strip k := by
  obtain same | ⟨j, x, rfl, strips⟩ := h
  · exact strip_congr same k
  · rw [strip_of_tableSet strips, if_neg]
    rintro rfl
    exact hk rfl

/-- A command writes at most the strip it names. -/
theorem exec_writesAtMost (h : exec i st = .next t) : WritesAtMost i.stripId st t := by
  cases exec_cases h with
  | faults _ eq | refuses _ _ _ eq => exact .inl (by rw [eq])
  | holds _ _ u draws _ _ eq => exact .inl (by rw [eq]; exact draws.strips)
  | fails _ _ _ _ strips | compiles _ _ _ _ _ _ _ strips | answers _ _ _ _ _ strips => exact .inl strips
  | creates _ _ _ _ _ _ instr _ _ _ _ _ _ strips | starts _ instr _ _ _ _ _ strips
  | releases _ _ _ instr _ _ _ _ _ strips | resets _ instr _ _ _ _ strips =>
    exact .inr ⟨_, _, by rw [instr]; rfl, strips⟩
  | encodes _ _ _ _ _ instr _ eq => exact .inr ⟨_, _, by rw [instr]; rfl, by rw [eq]; rfl⟩
  | clears _ instr _ _ _ _ _ strips =>
    refine .inr ⟨_, _, ?_, strips⟩
    obtain ⟨_, rfl⟩ | rfl := instr <;> rfl
  | writes s start colors instr _ _ nonempty _ _ _ strips =>
    obtain ⟨_, eq⟩ := writePixels_eq st s.toNat start colors nonempty
    refine .inr ⟨s.toNat, _, ?_, by rw [strips, eq]; rfl⟩
    obtain ⟨_, _, rfl⟩ | ⟨_, _, rfl⟩ | ⟨_, _, _, rfl⟩ := instr <;> rfl

/-- The strip whose channel agent takes the step, if it is a channel agent's. -/
def Move.channelStrip : Move → Option Nat
  | .drain k | .encode k | .done k | .fail k => some k
  | .host | .expire | .port => none

/-- A channel agent's step writes at most its own strip. -/
theorem runMove_writesAtMost (hm : m.channelStrip = some k) (h : st.runMove m = .next t) :
    WritesAtMost (some k) st t := by
  cases runMove_cases h with
  | hostRuns | hostRefuses | expires | portRuns | portRefuses => cases hm
  | encodeRefuses _ eq => exact .inl (by rw [eq])
  | drains _ eq | encodes _ _ _ _ _ eq | finishes _ eq => exact .inr ⟨_, _, hm.symm, by rw [eq]; rfl⟩
  | fails _ _ _ _ draws eq => exact .inr ⟨_, _, hm.symm, by rw [eq, setStrip_strips, draws.strips]⟩

/-- Settles O20: a command writes at most the strip it names, a channel agent's step at most its own. -/
theorem otherStripsAreNeverWritten : Obligations.OtherStripsAreNeverWritten := by
  refine ⟨fun i st t h j hj => (exec_writesAtMost h).strip_other hj, fun st t k m hm h j hj => ?_⟩
  have channel : m.channelStrip = some k := by obtain rfl | rfl | rfl | rfl := hm <;> rfl
  exact (runMove_writesAtMost channel h).strip_other (by simpa using Ne.symm hj)

/-! ## The strip a command reads

`st.view o` forgets every strip but the one `o` names.  Each operation commutes with it: run on the view, it answers the
view of its answer, so what it does depends on the view alone. -/

/-- The state with no strip listed but the one `o` names. -/
def State.view (st : State) (o : Option Nat) : State :=
  { st with strips := (o.map fun k => (k, st.strip k)).toList }

/-- The view of an answer. -/
def Answer.view (o : Option Nat) : Answer → Answer
  | .next t => .next (t.view o)
  | .fault f => .fault f
  | .refused r => .refused r

section
variable (st : State) (o : Option Nat) (k : Nat) (x : Strip)

@[simp] theorem view_cfg : (st.view o).cfg = st.cfg := rfl
@[simp] theorem view_symbols (v : Nat) : (st.view o).symbols v = st.symbols v := rfl
@[simp] theorem view_script : (st.view o).script = st.script := rfl
@[simp] theorem view_draws : (st.view o).draws = st.draws := rfl

@[simp] theorem view_finish (r : Response) : (st.view o).finish r = Answer.view o (st.finish r) := rfl
@[simp] theorem view_fail (e : ErrorKind) : (st.view o).fail e = Answer.view o (st.fail e) := rfl
@[simp] theorem view_raise (c : FaultCode) (n : Nat) : (st.view o).raise c n = Answer.view o (st.raise c n) := rfl
@[simp] theorem view_refuse (r : RefusalReason) : (st.view o).refuse r = Answer.view o (st.refuse r) := rfl

@[simp] theorem view_strip : (st.view (some k)).strip k = st.strip k := by
  simp [State.view, State.strip, tableGet]

@[simp] theorem view_setStrip : (st.view (some k)).setStrip k x = (st.setStrip k x).view (some k) := by
  simp [State.view, State.setStrip, State.strip, tableSet]

@[simp] theorem view_draw : (st.view o).draw = (st.draw.1, st.draw.2.view o) := by
  simp only [State.draw, view_script, view_draws]
  split <;> rfl

@[simp] theorem view_drawBit : (st.view o).drawBit = (st.drawBit.1, st.drawBit.2.view o) := by
  simp [State.drawBit]

@[simp] theorem view_ask (a : Oracle) : (st.view o).ask a = ((st.ask a).1, (st.ask a).2.view o) := by
  cases a with
  | never => rfl
  | external => exact view_drawBit st o

@[simp] theorem view_drawBytes (n : Nat) :
    (st.view o).drawBytes n = ((st.drawBytes n).1, (st.drawBytes n).2.view o) := by
  induction n generalizing st with
  | zero => rfl
  | succ n ih => simp [State.drawBytes, ih]

@[simp] theorem view_acquire : (st.view o).acquire = (st.acquire.1, st.acquire.2.view o) := by
  simp only [State.acquire, view_cfg, view_ask]
  split_ifs <;> rfl

@[simp] theorem view_waitDone (t : Nat) :
    (st.view (some k)).waitDone k t = ((st.waitDone k t).1, (st.waitDone k t).2.view (some k)) := by
  simp only [State.waitDone, view_strip, view_drawBit, view_setStrip]
  split_ifs <;> rfl

@[simp] theorem view_rangeError (start len : Nat) :
    (st.view (some k)).rangeError k start len =
      ((st.rangeError k start len).1, (st.rangeError k start len).2.view (some k)) := by
  simp only [State.rangeError, view_strip, view_drawBit]
  split_ifs <;> rfl

@[simp] theorem view_writePixels (start : Nat) (cs : List Color) :
    (st.view (some k)).writePixels k start cs = (st.writePixels k start cs).view (some k) := by
  induction cs generalizing st start with
  | nil => rfl
  | cons c cs ih => simp [State.writePixels, State.pixelAddress, State.colorBytes, ih]

/-! ## Each command commutes with the view of its own strip -/

theorem view_execCompile (v : Byte) : execCompile v (st.view o) = Answer.view o (execCompile v st) := by
  cases hp : st.cfg.profile v with
  | none => simp [execCompile, hp]
  | some p =>
    cases hok : st.cfg.profileOk p with
    | true =>
      simp only [execCompile, view_cfg, hp, hok, if_true]
      rfl
    | false => simp [execCompile, hp, hok]

theorem view_execInit (s v : Byte) (length : Word32) (white : Bool) :
    execInit s v length white (st.view (some s.toNat)) =
      Answer.view (some s.toNat) (execInit s v length white st) := by
  simp only [execInit, view_strip, view_cfg, view_symbols, view_acquire]
  split
  · simp
  · split
    · simp
    · split
      · simp
      · split
        · simp
        · obtain ⟨_ | e, u⟩ := st.acquire <;> simp

theorem view_execSetPixel (s : Byte) (index : Word32) (c : Color) :
    execSetPixel s index c (st.view (some s.toNat)) = Answer.view (some s.toNat) (execSetPixel s index c st) := by
  simp only [execSetPixel, view_strip]
  split_ifs <;> simp

theorem view_writeRange (start len : Nat) (cs : List Color) :
    (st.view (some k)).writeRange k start len cs = Answer.view (some k) (st.writeRange k start len cs) := by
  simp only [State.writeRange, view_strip, view_rangeError]
  split
  · simp
  · obtain ⟨_ | e, u⟩ := st.rangeError k start len
    · simp only [view_strip]
      split <;> simp
    · simp

theorem view_execWait (s : Byte) (timeout : Word32) :
    execWait s timeout (st.view (some s.toNat)) = Answer.view (some s.toNat) (execWait s timeout st) := by
  simp only [execWait, view_strip, view_waitDone]
  split
  · simp
  · obtain ⟨a, u⟩ := st.waitDone s.toNat timeout.toNat
    cases a <;> simp [Answer.view]

theorem view_execFlush (s : Byte) :
    execFlush s (st.view (some s.toNat)) = Answer.view (some s.toNat) (execFlush s st) := by
  simp only [execFlush, view_strip, view_cfg, view_waitDone]
  split
  · simp
  · obtain ⟨a, u⟩ := st.waitDone s.toNat st.cfg.flushTimeout
    cases a with
    | ok =>
      simp only [view_strip, view_ask]
      split <;> simp
    | timeout | channelFailure | hold => rfl

theorem view_execFree (s : Byte) :
    execFree s (st.view (some s.toNat)) = Answer.view (some s.toNat) (execFree s st) := by
  simp only [execFree, view_strip, view_cfg, view_ask, view_setStrip, view_draws]
  split_ifs <;> rfl

theorem view_execEncReset (s : Byte) :
    execEncReset s (st.view (some s.toNat)) = Answer.view (some s.toNat) (execEncReset s st) := by
  simp only [execEncReset, view_strip]
  split_ifs <;> simp

theorem view_invokeEncode (free : Nat) :
    (st.view (some k)).invokeEncode k free = Answer.view (some k) (st.invokeEncode k free) := by
  simp only [State.invokeEncode, view_strip, view_cfg, view_setStrip]
  split <;> rfl

end

/-- Two states have the same view when they differ in the strips only and agree on the strip `o` names. -/
theorem view_eq_iff : st'.view o = st.view o ↔
    st' = { st with strips := st'.strips } ∧ ∀ k, o = some k → st'.strip k = st.strip k := by
  constructor
  · intro h
    have others : st' = { st'.view o with strips := st'.strips } := rfl
    refine ⟨others.trans (by rw [h]; rfl), ?_⟩
    rintro k rfl
    rw [← view_strip st', h, view_strip]
  · rintro ⟨others, own⟩
    have strips : (o.map fun k => (k, st'.strip k)) = o.map fun k => (k, st.strip k) :=
      Option.map_congr fun k hk => by rw [own k hk]
    rw [State.view, strips, others]
    rfl

/-- What a command does to the view of its own strip is the view of what it does. -/
theorem view_exec (i : Instr) (st : State) :
    exec i (st.view i.stripId) = Answer.view i.stripId (exec i st) := by
  cases i with
  | compile v => exact view_execCompile st none v
  | init s v length white => exact view_execInit st s v length white
  | setPixel s index c => exact view_execSetPixel st s index c
  | setPixels s start cs => exact view_writeRange st _ _ _ cs
  | fill s start len c => exact view_writeRange st _ _ _ _
  | flush s => exact view_execFlush st s
  | busy s => simp [exec, execBusy, Instr.stripId]
  | wait s timeout => exact view_execWait st s timeout
  | free s => exact view_execFree st s
  | encReset s => exact view_execEncReset st s
  | encode s space => exact view_invokeEncode st _ _

/-- An answer whose view is a next state is a next state with that view. -/
theorem next_of_view_eq {a : Answer} (h : Answer.view o a = .next u) : ∃ t, a = .next t ∧ t.view o = u := by
  cases a with
  | next t => exact ⟨t, rfl, by cases h; rfl⟩
  | fault | refused => cases h

/-- Settles O21: the two states have one view, and what a command does commutes with it. -/
theorem otherStripsAreNeverRead : Obligations.OtherStripsAreNeverRead := by
  intro i st st' t h others own
  have views : st'.view i.stripId = st.view i.stripId := view_eq_iff.2 ⟨others, own⟩
  have answers : Answer.view i.stripId (exec i st') = .next (t.view i.stripId) := by
    rw [← view_exec, views, view_exec, h, Answer.view]
  obtain ⟨t', run, same⟩ := next_of_view_eq answers
  exact ⟨t', run, view_eq_iff.1 same⟩

end Sys2Proof.Machine
end

section
/-! PROOF. The decoder and the encoder agree, what is no encoding is refused, and the fields of a symbol word
(spec/30_encoding.md R71 to R81). -/

namespace Sys2Proof

variable {p : Port} {m : Nat} {i j : Instr} {fields bs rest rest' : List Byte}

/-- Settles O2: the port's check passes what is read from the bytes of a command of that port. -/
theorem decodingAnEncodedCommandGivesItBack : Obligations.DecodingAnEncodedCommandGivesItBack :=
  fun m i rest wf => decode_eq_ok_iff.2 ⟨decodeCommand_encode m i rest wf, rfl⟩

/-- Settles O3: a port accepts only what was read as a command of its own, and that is read from its encoding. -/
theorem decodedBytesAreTheEncoding : Obligations.DecodedBytesAreTheEncoding := by
  intro p m bs i rest h
  obtain ⟨read, port⟩ := decode_eq_ok_iff.1 h
  obtain ⟨bytes, wf⟩ := decodeCommand_eq_ok read
  exact ⟨bytes, wf, port⟩

/-! ## Why a byte string is refused (R80) -/

/-- The outcome is not a refusal by another name than ILLEGAL. -/
def Decoded.RefusesOnlyIllegal (d : Decoded) : Prop := ∀ e, d = .error e → e = .illegal

@[simp] theorem refusesOnlyIllegal_ok (x : Instr × List Byte) : Decoded.RefusesOnlyIllegal (.ok x) := by
  intro e h
  cases h

@[simp] theorem refusesOnlyIllegal_illegal : Decoded.RefusesOnlyIllegal (.error .illegal) := by
  intro e h
  cases h
  rfl

@[simp] theorem acceptStrip_refusesOnlyIllegal (m : Nat) (s : Byte) (i : Instr) (rest : List Byte) :
    Decoded.RefusesOnlyIllegal (acceptStrip m s i rest) := by
  unfold acceptStrip
  split <;> simp

@[simp] theorem decodeFV_refusesOnlyIllegal : Decoded.RefusesOnlyIllegal (decodeFV fields) := by
  unfold decodeFV
  split <;> simp

@[simp] theorem decodeFI_refusesOnlyIllegal : Decoded.RefusesOnlyIllegal (decodeFI m fields) := by
  unfold decodeFI
  split
  · split_ifs <;> simp
  · simp

@[simp] theorem decodeFP_refusesOnlyIllegal : Decoded.RefusesOnlyIllegal (decodeFP m fields) := by
  unfold decodeFP
  split <;> simp

@[simp] theorem decodeFM_refusesOnlyIllegal : Decoded.RefusesOnlyIllegal (decodeFM m fields) := by
  unfold decodeFM
  split
  · split <;> simp
  · simp

@[simp] theorem decodeFF_refusesOnlyIllegal : Decoded.RefusesOnlyIllegal (decodeFF m fields) := by
  unfold decodeFF
  split <;> simp

@[simp] theorem decodeFS_refusesOnlyIllegal (command : Byte → Instr) :
    Decoded.RefusesOnlyIllegal (decodeFS m command fields) := by
  unfold decodeFS
  split <;> simp

@[simp] theorem decodeFT_refusesOnlyIllegal (command : Byte → Word32 → Instr) :
    Decoded.RefusesOnlyIllegal (decodeFT m command fields) := by
  unfold decodeFT
  split <;> simp

/-- Whatever the opcode, bytes that are no command are refused as ILLEGAL, before the port is looked at. -/
theorem decodeCommand_refusesOnlyIllegal : Decoded.RefusesOnlyIllegal (decodeCommand m bs) := by
  cases bs with
  | nil => exact refusesOnlyIllegal_illegal
  | cons op fields =>
    show Decoded.RefusesOnlyIllegal (decodeFields m op.toNat fields)
    unfold decodeFields
    split <;> simp

/-- Bytes that are read as no command are ILLEGAL on either port. -/
theorem decode_eq_illegal (unread : ∀ i rest, decodeCommand m bs ≠ .ok (i, rest)) :
    decode p m bs = .error .illegal := by
  unfold decode
  split
  case h_1 e refused => rw [decodeCommand_refusesOnlyIllegal e refused]
  case h_2 i rest read => exact absurd read (unread i rest)

/-! ## Truncation (R77) -/

/-- A beginning of a command's bytes that is read as a command is the whole of them: with the cut-off bytes put back,
the one byte string would otherwise be read in two ways. -/
theorem length_le_of_decodeCommand_take {n : Nat} (wf : i.wf m = true)
    (read : decodeCommand m ((encode i).take n) = .ok (j, rest)) : (encode i).length ≤ n := by
  obtain ⟨bytes, wfj⟩ := decodeCommand_eq_ok read
  have parts : encode i ++ [] = encode j ++ (rest ++ (encode i).drop n) := by
    rw [← List.append_assoc, ← bytes, List.take_append_drop, List.append_nil]
  have both : decodeCommand m (encode i ++ []) = .ok (j, rest ++ (encode i).drop n) := by
    rw [parts, decodeCommand_encode m j _ wfj]
  rw [decodeCommand_encode m i [] wf] at both
  have left : [] = rest ++ (encode i).drop n := (Prod.mk.inj (Except.ok.inj both)).2
  exact List.drop_eq_nil_iff.1 (List.append_eq_nil_iff.1 left.symm).2

/-- Settles O4: no proper beginning of an encoding is read as a command. -/
theorem truncatedCommandsAreIllegal : Obligations.TruncatedCommandsAreIllegal :=
  fun _ _ _ _ wf short =>
    decode_eq_illegal fun _ _ read => Nat.not_le_of_lt short (length_le_of_decodeCommand_take wf read)

/-! ## Opcodes, strip ids and `has_white` (R79, R80) -/

/-- The assigned opcodes are 0x01 to 0x0B. -/
theorem opcode_assigned (i : Instr) : 1 ≤ i.opcode.toNat ∧ i.opcode.toNat ≤ 11 := by
  cases i <;> simp [Instr.opcode]

/-- The first field byte of a command is its strip id, but for COMPILE. -/
theorem exists_fieldBytes_eq_cons (i : Instr) :
    ∃ b bs, i.fieldBytes = b :: bs ∧ i.stripId = if i.opcode = 0x01 then none else some b.toNat := by
  cases i <;> exact ⟨_, _, rfl, rfl⟩

/-- The bytes of a command fix its strip id, whether it is in range or not. -/
theorem stripId_eq_of_encode_eq (same : encode i ++ rest = encode j ++ rest') : i.stripId = j.stripId := by
  obtain ⟨b, bs, fields, strip⟩ := exists_fieldBytes_eq_cons i
  obtain ⟨b', bs', fields', strip'⟩ := exists_fieldBytes_eq_cons j
  simp only [encode, fields, fields', List.cons_append, List.cons.injEq] at same
  obtain ⟨opcode, first, -⟩ := same
  rw [strip, strip', opcode, first]

/-- The strip id of a well-formed command is in range. -/
theorem stripId_lt_of_wf {s : Nat} (wf : i.wf m = true) (strip : i.stripId = some s) : s < m := by
  cases i with
  | compile v => cases strip
  | setPixels s start colors =>
    cases strip
    exact of_decide_eq_true (Bool.and_eq_true_iff.1 wf).1
  | init | setPixel | fill | flush | busy | wait | free | encReset | encode =>
    cases strip
    exact of_decide_eq_true wf

/-- An INIT that is read has a `has_white` byte of 0 or 1. -/
theorem hasWhite_of_decodeFI {s v w : Byte} {length : Word32}
    (read : decodeFI m ([s, v] ++ writeU32 length ++ [w] ++ rest) = .ok (i, rest')) : w = 0 ∨ w = 1 := by
  obtain ⟨_, _, length', white, -, -, bytes⟩ := decodeFI_eq_ok read
  have byte : w = if white then 1 else 0 := by
    simp only [writeU32, List.cons_append, List.nil_append, List.cons.injEq] at bytes
    obtain ⟨-, -, -, -, -, -, byte, -⟩ := bytes
    exact byte
  cases white
  · exact .inl byte
  · exact .inr byte

/-- On the host port a command that is read and is the channel agent's is refused by its own name. -/
theorem decode_host_of_channel (read : decodeCommand m bs = .ok (i, rest)) (channel : i.port = .channel) :
    decode .host m bs = .error .encodeFromHost := by
  simp [decode, read, channel]

/-- Settles O5: what is read has an assigned opcode, a strip id in range and a `has_white` byte of 0 or 1. -/
theorem illegalEncodingsAreRefused : Obligations.IllegalEncodingsAreRefused := by
  refine ⟨?opcode, ?strip, ?white, ?host⟩
  case opcode =>
    intro p m op bs unassigned
    refine decode_eq_illegal fun i rest read => ?_
    have op_eq : op = i.opcode := (List.cons.inj (decodeCommand_eq_ok read).1).1
    have assigned := opcode_assigned i
    rw [op_eq] at unassigned
    omega
  case strip =>
    intro p m i s rest strip out
    refine decode_eq_illegal fun j rest' read => ?_
    obtain ⟨bytes, wf⟩ := decodeCommand_eq_ok read
    rw [stripId_eq_of_encode_eq bytes] at strip
    exact Nat.not_lt_of_le out (stripId_lt_of_wf wf strip)
  case white =>
    intro p m s v length w rest not0 not1
    exact decode_eq_illegal fun i rest' read => (hasWhite_of_decodeFI read).elim not0 not1
  case host =>
    intro m s space rest inRange
    have wf : (Instr.encode s space).wf m = true := decide_eq_true inRange
    exact decode_host_of_channel (decodeCommand_encode m _ rest wf) rfl

/-! ## Symbol words (R10, R71) -/

theorem levelBit_lt_two (l : Level) : levelBit l < 2 := by
  cases l <;> decide

/-- The symbol word with its fields packed one above the other, from the low end up. -/
theorem word_eq_packed (w : Nat) (p : PulseSymbol) :
    p.word w =
      p.duration0 + 2 ^ w * (levelBit p.level0 + 2 * (p.duration1 + 2 ^ w * levelBit p.level1)) := by
  unfold PulseSymbol.word
  ring

/-- Settles O6: each field in turn is taken off the low end of the packed word. -/
theorem symbolWordFields : Obligations.SymbolWordFields := by
  intro w p fits0 fits1
  have pos : 0 < 2 ^ w := Nat.two_pow_pos w
  obtain ⟨above0, duration0⟩ := (Nat.div_mod_unique pos
    (d := levelBit p.level0 + 2 * (p.duration1 + 2 ^ w * levelBit p.level1))).2 ⟨rfl, fits0⟩
  obtain ⟨above1, level0⟩ := (Nat.div_mod_unique Nat.two_pos
    (d := p.duration1 + 2 ^ w * levelBit p.level1)).2 ⟨rfl, levelBit_lt_two p.level0⟩
  obtain ⟨level1, duration1⟩ := (Nat.div_mod_unique pos (d := levelBit p.level1)).2 ⟨rfl, fits1⟩
  have shift1 : 2 ^ (w + 1) = 2 ^ w * 2 := pow_succ 2 w
  have shift2 : 2 ^ (2 * w + 1) = 2 ^ w * 2 * 2 ^ w := by ring
  simp only [word_eq_packed, shift1, shift2, ← Nat.div_div_eq_div_mul, above0, above1]
  exact ⟨duration0, level0, duration1, level1⟩

/-- Settles O1: each word is read by the format of its opcode. -/
theorem specWordsDecode : Obligations.SpecWordsDecode :=
  ⟨rfl, rfl, rfl, rfl, rfl, rfl, rfl, rfl, rfl, rfl, rfl⟩

end Sys2Proof
end

section
/-! PROOF. Scaling and the reset half (spec/40_symbol_compiler.md R93, R94), and that the symbols depend on `R`,
`ROUND`, `DUR_WIDTH` and the profile alone (R97). -/

namespace Sys2Proof

variable {c c' : Config}

/-! ## Rounding (R6) -/

/-- Either rounding takes one of the two naturals next to `a / 10^9`, so it is less than one away from it. -/
theorem Config.round_near (c : Config) (a : Nat) :
    c.round a * 1000000000 < a + 1000000000 ∧ a < c.round a * 1000000000 + 1000000000 := by
  cases rounding : c.rounding with
  | halfUp =>
    simp only [Config.round, rounding]
    omega
  | external =>
    simp only [Config.round, rounding]
    split <;> omega

/-- Less than one away from a natural is that natural: no `ROUND` moves an exact quotient. -/
theorem Config.round_exact {a : Nat} (exact : 1000000000 ∣ a) : c.round a = a / 1000000000 := by
  obtain ⟨below, above⟩ := c.round_near a
  omega

/-- An open `ROUND` is monotone whatever its thresholds are: one threshold serves all values between two neighbours,
and values further apart are kept apart by the natural between them. -/
theorem Config.round_mono {a b : Nat} (le : a ≤ b) : c.round a ≤ c.round b := by
  cases rounding : c.rounding with
  | halfUp =>
    simp only [Config.round, rounding]
    omega
  | external =>
    by_cases same : a / 1000000000 = b / 1000000000
    · simp only [Config.round, rounding, same]
      split <;> split <;> omega
    · have between : a / 1000000000 + 1 ≤ b / 1000000000 := by omega
      simp only [Config.round, rounding]
      split <;> split <;> omega

/-- Settles O25: scaling is monotone, and so is rounding. -/
theorem ticksAreTheRoundedScaledDuration : Obligations.TicksAreTheRoundedScaledDuration :=
  fun c d => ⟨Config.round_exact, c.round_near (d * c.resolutionHz),
    fun _ le => Config.round_mono (Nat.mul_le_mul_right c.resolutionHz le)⟩

/-! ## The reset half (R94) -/

theorem Config.two_mul_resetHalf (c : Config) (d : Nat) : 2 * c.resetHalf d = c.ticks d + c.ticks d % 2 := by
  unfold Config.resetHalf
  omega

/-- Settles O26: the two halves exceed the scaled reset time by its remainder modulo 2. -/
theorem resetHalvesCoverTheResetTime : Obligations.ResetHalvesCoverTheResetTime := by
  intro c p
  refine ⟨rfl, fun even => ?_, fun odd => ?_⟩
  · rw [Config.two_mul_resetHalf, even, Nat.add_zero]
  · rw [Config.two_mul_resetHalf, odd]

/-! ## What the symbols depend on (R97) -/

theorem Config.ticks_congr (resolution : c.resolutionHz = c'.resolutionHz) (rounding : c.rounding = c'.rounding)
    (d : Nat) : c.ticks d = c'.ticks d := by
  simp only [Config.ticks, Config.round, resolution, rounding]

theorem Config.symbolSet_congr (ticks : ∀ d, c.ticks d = c'.ticks d) (p : TimingProfile) :
    c.symbolSet p = c'.symbolSet p := by
  simp only [Config.symbolSet, Config.resetHalf, ticks]

theorem Config.profileOk_congr (ticks : ∀ d, c.ticks d = c'.ticks d) (width : c.durWidth = c'.durWidth)
    (p : TimingProfile) : c.profileOk p = c'.profileOk p := by
  rw [Bool.eq_iff_iff]
  simp only [Config.profileOk_iff, ticks, width]

end Sys2Proof
end

section
/-! PROOF. What COMPILE answers (spec/40_symbol_compiler.md R95 to R98). -/

namespace Sys2Proof.Machine

variable {st : State} {v : Byte} {p : TimingProfile}

/-! ## The three outcomes of COMPILE -/

theorem exec_compile_unknown (unknown : tableGet st.cfg.variants v.toNat = none) :
    exec (.compile v) st = st.fail .invalidArgument := by
  simp only [exec, execCompile, Config.profile, unknown]

theorem exec_compile_of_fits (known : tableGet st.cfg.variants v.toNat = some p) (fits : st.cfg.profileOk p = true) :
    exec (.compile v) st = State.finish { st with sym := tableSet st.sym v.toNat (st.cfg.symbolSet p) } .ok := by
  simp only [exec, execCompile, Config.profile, known, fits, if_true]

theorem exec_compile_of_not_fits (known : tableGet st.cfg.variants v.toNat = some p)
    (unfit : st.cfg.profileOk p = false) : exec (.compile v) st = st.raise .symRange v.toNat := by
  simp only [exec, execCompile, Config.profile, known, unfit, Bool.false_eq_true, if_false]

/-! ## A variant whose durations fit (R95, R97, R98) -/

/-- Afterwards the variant's entry is what its profile compiles to, and every other entry is as before. -/
theorem compile_writes_entry (known : tableGet st.cfg.variants v.toNat = some p)
    (fits : st.cfg.profileOk p = true) :
    ∃ t, exec (.compile v) st = .next t ∧ HostEnds st t .ok ∧ NoDraw st t ∧ t.strips = st.strips ∧
      ∀ u, t.symbols u = if u = v.toNat then some (st.cfg.symbolSet p) else st.symbols u := by
  obtain ⟨ends, _, strips⟩ := ends_finish (st := st) (u := { st with sym := _ }) (r := .ok) rfl rfl
  exact ⟨_, exec_compile_of_fits known fits, ends.hostEnds, ⟨rfl, rfl⟩, strips, fun u => tableGet_tableSet ..⟩

/-- Settles O27: five durations in `1..DUR_MAX` make the profile fit, and its entry is the one written. -/
theorem compileWritesTheSymbols : Obligations.CompileWritesTheSymbols := by
  intro v p st known fit
  obtain ⟨t, run, ends, noDraw, strips, entry⟩ := compile_writes_entry known ((st.cfg.profileOk_iff p).2 fit)
  refine ⟨t, run, ends, noDraw, strips, ?own, fun u other => ?others⟩
  case own =>
    rw [entry, if_pos rfl]
    rfl
  case others => rw [entry, if_neg other]

/-- Settles O30: in a state that meets the invariant the entry is what the profile compiles to already (R25). -/
theorem compilingTwiceChangesNothing : Obligations.CompilingTwiceChangesNothing := by
  refine ⟨fun c c' p resolution rounding width => ?pure, fun v x st inv compiled => ?again⟩
  case pure =>
    have ticks := Config.ticks_congr resolution rounding
    exact ⟨Config.symbolSet_congr ticks p, Config.profileOk_congr ticks width p⟩
  case again =>
    obtain ⟨p, known, fits, rfl⟩ := inv.table _ x compiled
    obtain ⟨t, run, ends, _, strips, entry⟩ := compile_writes_entry known fits
    refine ⟨t, run, ends, strips, fun u => ?_⟩
    rw [entry]
    split
    · next own => rw [own, compiled]
    · rfl

/-! ## An unknown variant, and a duration that does not fit (R91, R95, R96) -/

/-- Settles O28: the command ends in the error at once, before any write or draw. -/
theorem compileOfAnUnknownVariantFails : Obligations.CompileOfAnUnknownVariantFails := by
  intro v st unknown
  obtain ⟨ends, same⟩ := ends_fail (.refl st) (e := .invalidArgument) rfl
  exact ⟨_, exec_compile_unknown unknown, ⟨ends.hostEnds, same⟩, rfl, rfl⟩

/-- Settles O29: one duration outside `1..DUR_MAX` and the profile does not fit. -/
theorem compileFaultsOutsideTheDurationField : Obligations.CompileFaultsOutsideTheDurationField := by
  rintro v p st known ⟨d, mem, out⟩
  refine exec_compile_of_not_fits known (Bool.eq_false_iff.2 fun fits => ?_)
  obtain ⟨low, high⟩ := (st.cfg.profileOk_iff p).1 fits d mem
  omega

end Sys2Proof.Machine
end

section
/-! PROOF. What a pixel write leaves in the buffer, and what SET_PIXEL, SET_PIXELS and FILL answer inside their bounds
(spec/41_pixel_buffer.md R110 to R117). -/

namespace Sys2Proof.Machine

variable {st t : State} {k start : Nat} {s : Byte} {cs : List Color} {c : Color}

/-- Settles O31: the model's layout, order by order and with or without the white channel. -/
theorem layoutOfAColor : Obligations.LayoutOfAColor :=
  fun _ _ _ _ => ⟨rfl, rfl, rfl, rfl⟩

/-! ## What the buffer reads after a pixel write (R52, R113) -/

/-- In a concatenation of blocks of one width, the bytes of block `n` stand from `width * n` on. -/
theorem getElem?_flatMap_of_width {α β : Type} {f : α → List β} {width : Nat} (hwidth : ∀ x, (f x).length = width)
    {xs : List α} {n : Nat} {x : α} (hx : xs[n]? = some x) {j : Nat} (hj : j < width) :
    (xs.flatMap f)[width * n + j]? = (f x)[j]? := by
  induction xs generalizing n with
  | nil => simp at hx
  | cons y ys ih =>
    rw [List.flatMap_cons]
    cases n with
    | zero =>
      obtain rfl : y = x := by simpa using hx
      rw [Nat.mul_zero, Nat.zero_add, List.getElem?_append_left (by rwa [hwidth])]
    | succ n =>
      have skip : width * (n + 1) + j = (f y).length + (width * n + j) := by rw [hwidth, Nat.mul_succ]; omega
      rw [skip, List.getElem?_append_right (by omega), Nat.add_sub_cancel_left]
      exact ih hx

/-- Pixel `start + n` reads as the layout of color `n`. -/
theorem memRead_writePixels_pixel {n j : Nat} (hc : cs[n]? = some c) (hj : j < (st.strip k).conf.cpp) :
    memRead ((st.writePixels k start cs).strip k).buf (st.pixelAddress k (start + n) + j) =
      (st.colorBytes k c)[j]? := by
  obtain ⟨hn, -⟩ := List.getElem?_eq_some_iff.1 hc
  have address (i : Nat) : st.pixelAddress k (start + i) = st.pixelAddress k start + (st.strip k).conf.cpp * i :=
    Nat.mul_add ..
  have inside : (st.strip k).conf.cpp * (n + 1) ≤ (st.strip k).conf.cpp * cs.length := Nat.mul_le_mul_left _ hn
  rw [Nat.mul_succ] at inside
  rw [memRead_writePixels, address, address, if_pos (by omega), Nat.add_assoc, Nat.add_sub_cancel_left]
  exact getElem?_flatMap_of_width (colorBytes_length st k) hc hj

/-- Every address outside the range reads as before. -/
theorem memRead_writePixels_outside {a : Nat}
    (out : a < st.pixelAddress k start ∨ st.pixelAddress k (start + cs.length) ≤ a) :
    memRead ((st.writePixels k start cs).strip k).buf a = memRead (st.strip k).buf a := by
  rw [memRead_writePixels, if_neg (by omega)]

/-! ## A completed pixel write -/

/-- A pixel writer ended with `Ok`: its colors stand from pixel `start` of strip `k` on, and it drew nothing. -/
structure WritesPixels (st t : State) (k start : Nat) (cs : List Color) : Prop where
  ends : Ends st t .ok
  noDraw : NoDraw st t
  sym : t.sym = st.sym
  strips : t.strips = (st.writePixels k start cs).strips

/-- What `finish` after the pixel write answers. -/
theorem finish_writePixels (st : State) (k start : Nat) (cs : List Color) :
    ∃ t, State.finish (st.writePixels k start cs) .ok = .next t ∧ WritesPixels st t k start cs := by
  obtain ⟨ends, sym, strips⟩ := ends_finish (st := st) (u := st.writePixels k start cs) (r := .ok)
    (by rw [writePixels_strips]) rfl
  exact ⟨_, rfl, ends, by rw [writePixels_strips]; exact ⟨rfl, rfl⟩, by rw [sym, writePixels_strips], strips⟩

/-- No strip but the written one changes, and of that one the buffer only. -/
theorem WritesPixels.strip (h : WritesPixels st t k start cs) (nonempty : cs ≠ []) (j : Nat) :
    t.strip j =
      if j = k then { st.strip k with buf := ((st.writePixels k start cs).strip k).buf } else st.strip j := by
  obtain ⟨m, eq⟩ := writePixels_eq st k start cs nonempty
  rw [strip_congr h.strips, eq, strip_setStrip_same, strip_setStrip]

theorem WritesPixels.strip_same (h : WritesPixels st t k start cs) (nonempty : cs ≠ []) :
    t.strip k = { st.strip k with buf := ((st.writePixels k start cs).strip k).buf } := by
  rw [h.strip nonempty, if_pos rfl]

theorem WritesPixels.sameOtherStrips (h : WritesPixels st t k start cs) (nonempty : cs ≠ []) :
    SameOtherStrips st t k := fun j other => by
  rw [h.strip nonempty, if_neg other]

/-! ## The writers inside their bounds (R114 to R116) -/

/-- SET_PIXEL writes its one pixel. -/
theorem exec_setPixel_writes {i : Word32} (present : (st.strip s.toNat).present = true)
    (inside : i.toNat < (st.strip s.toNat).conf.pixels) (idle : (st.strip s.toNat).busy = false) :
    ∃ t, exec (.setPixel s i c) st = .next t ∧ WritesPixels st t s.toNat i.toNat [c] := by
  have run : exec (.setPixel s i c) st = State.finish (st.writePixels s.toNat i.toNat [c]) .ok := by
    simp [exec, execSetPixel, present, idle, Nat.not_le.2 inside]
  rw [run]
  exact finish_writePixels ..

/-- The common body of SET_PIXELS and FILL writes its colors. -/
theorem writeRange_writes {len : Nat} (present : (st.strip k).present = true) (nonempty : len ≠ 0)
    (inside : start + len ≤ (st.strip k).conf.pixels) (idle : (st.strip k).busy = false) :
    ∃ t, st.writeRange k start len cs = .next t ∧ WritesPixels st t k start cs := by
  have run : st.writeRange k start len cs = State.finish (st.writePixels k start cs) .ok := by
    simp [State.writeRange, State.rangeError, present, idle, nonempty, Nat.not_lt.2 inside]
  rw [run]
  exact finish_writePixels ..

theorem exec_setPixels_writes {start : Word32} (present : (st.strip s.toNat).present = true) (nonempty : cs ≠ [])
    (inside : start.toNat + cs.length ≤ (st.strip s.toNat).conf.pixels) (idle : (st.strip s.toNat).busy = false) :
    ∃ t, exec (.setPixels s start cs) st = .next t ∧ WritesPixels st t s.toNat start.toNat cs :=
  writeRange_writes present (mt List.length_eq_zero_iff.1 nonempty) inside idle

theorem exec_fill_writes {start len : Word32} (present : (st.strip s.toNat).present = true) (nonempty : len.toNat ≠ 0)
    (inside : start.toNat + len.toNat ≤ (st.strip s.toNat).conf.pixels) (idle : (st.strip s.toNat).busy = false) :
    ∃ t, exec (.fill s start len c) st = .next t ∧
      WritesPixels st t s.toNat start.toNat (List.replicate len.toNat c) :=
  writeRange_writes present nonempty inside idle

/-! ## The obligations -/

/-- Settles O32: the range of the write is the one pixel. -/
theorem setPixelWritesOnePixel : Obligations.SetPixelWritesOnePixel := by
  intro s i c st present inside idle
  obtain ⟨t, run, h⟩ := exec_setPixel_writes (c := c) present inside idle
  have nonempty : [c] ≠ [] := List.cons_ne_nil _ _
  refine ⟨t, _, run, h.ends.hostEnds, h.noDraw, h.sym, h.sameOtherStrips nonempty, h.strip_same nonempty,
    fun j hj => memRead_writePixels_pixel (n := 0) rfl hj, fun a out => memRead_writePixels_outside ?_⟩
  have next : st.pixelAddress s.toNat (i.toNat + 1) =
    st.pixelAddress s.toNat i.toNat + (st.strip s.toNat).conf.cpp := Nat.mul_succ ..
  rwa [List.length_singleton, next]

/-- Settles O33: the write of the whole list. -/
theorem setPixelsWritesTheRange : Obligations.SetPixelsWritesTheRange := by
  intro s start colors st present nonempty inside idle
  obtain ⟨t, run, h⟩ := exec_setPixels_writes present nonempty inside idle
  exact ⟨t, _, run, h.ends.hostEnds, h.noDraw, h.sym, h.sameOtherStrips nonempty, h.strip_same nonempty,
    fun n c hc j hj => memRead_writePixels_pixel hc hj, fun a out => memRead_writePixels_outside out⟩

/-- Settles O34: the write of as many copies of the color as the range has pixels. -/
theorem fillWritesTheRange : Obligations.FillWritesTheRange := by
  intro s start len c st present nonempty inside idle
  obtain ⟨t, run, h⟩ := exec_fill_writes (c := c) present nonempty inside idle
  have copies : List.replicate len.toNat c ≠ [] := by simpa using nonempty
  refine ⟨t, _, run, h.ends.hostEnds, h.noDraw, h.sym, h.sameOtherStrips copies, h.strip_same copies,
    fun n hn j hj => memRead_writePixels_pixel (by simp [hn]) hj, fun a out => memRead_writePixels_outside ?_⟩
  rwa [List.length_replicate]

end Sys2Proof.Machine
end

section
/-! PROOF. SET_PIXELS and FILL over the whole strip leave the buffer that SET_PIXEL of every index in order leaves
(spec/41_pixel_buffer.md R118). -/

namespace Sys2Proof.Machine

variable {st t : State} {k start : Nat} {s : Byte} {cs : List Color} {i : Instr}

/-- The strips after a pixel write depend on the parameters and the strips alone. -/
theorem writePixels_strips_congr (cfg : t.cfg = st.cfg) (strips : t.strips = st.strips) :
    (t.writePixels k start cs).strips = (st.writePixels k start cs).strips := by
  induction cs generalizing st t start with
  | nil => exact strips
  | cons c cs ih =>
    have strip := strip_congr strips k
    have address : t.pixelAddress k start = st.pixelAddress k start := by simp only [State.pixelAddress, strip]
    have bytes : t.colorBytes k c = st.colorBytes k c := by simp only [State.colorBytes, cfg, strip]
    rw [State.writePixels, State.writePixels]
    exact ih cfg (by rw [strip, address, bytes, setStrip_strips, setStrip_strips, strips])

/-- SET_PIXEL of one index after another writes what one write of all the colors writes. -/
theorem execAll_setPixel (present : (st.strip s.toNat).present = true) (idle : (st.strip s.toNat).busy = false)
    (inside : start + cs.length ≤ (st.strip s.toNat).conf.pixels) (fits : start + cs.length ≤ 4294967296) :
    ∃ t, execAll (cs.mapIdx fun n c => .setPixel s (BitVec.ofNat 32 (start + n)) c) st = .next t ∧
      t.strips = (st.writePixels s.toNat start cs).strips ∧
      t.hostResp = st.hostResp ++ List.replicate cs.length .ok := by
  induction cs generalizing st start with
  | nil => exact ⟨st, rfl, rfl, (List.append_nil _).symm⟩
  | cons c cs ih =>
    rw [List.length_cons] at inside fits
    have index : (BitVec.ofNat 32 start).toNat = start := by
      rw [BitVec.toNat_ofNat, Nat.mod_eq_of_lt (by omega)]
    obtain ⟨t, run, first⟩ := exec_setPixel_writes (i := BitVec.ofNat 32 start) (c := c) present (by omega) idle
    rw [index] at first
    have strip := first.strip_same (List.cons_ne_nil _ _)
    obtain ⟨u, runs, strips, resp⟩ := ih (st := t) (start := start + 1) (by rwa [strip]) (by rwa [strip])
      (by simp only [strip]; omega) (by omega)
    refine ⟨u, ?run, ?strips, ?resp⟩
    case run =>
      simpa only [List.mapIdx_cons, Nat.add_zero, execAll, run, Nat.add_assoc, Nat.add_comm 1] using runs
    case strips =>
      have cfg : t.cfg = st.cfg := by rw [first.ends.eq]
      exact strips.trans (writePixels_strips_congr cfg first.strips)
    case resp =>
      rw [resp, first.ends.eq, List.append_assoc, List.length_cons, List.replicate_succ]
      rfl

/-- A command that writes a color to every pixel leaves what SET_PIXEL of every index leaves, and each ends with
`Ok`. -/
theorem wholeStrip_agrees (run : ∃ t, exec i st = .next t ∧ WritesPixels st t s.toNat 0 cs)
    (present : (st.strip s.toNat).present = true) (idle : (st.strip s.toNat).busy = false)
    (whole : cs.length = (st.strip s.toNat).conf.pixels) (fits : cs.length < 4294967296) :
    ∃ t u, exec i st = .next t ∧ execAll (cs.mapIdx fun n c => .setPixel s (BitVec.ofNat 32 n) c) st = .next u ∧
      (t.strip s.toNat).buf = (u.strip s.toNat).buf ∧ t.hostResp = st.hostResp ++ [.ok] ∧
      u.hostResp = st.hostResp ++ List.replicate cs.length .ok := by
  obtain ⟨t, run, h⟩ := run
  obtain ⟨u, runs, strips, resp⟩ := execAll_setPixel (start := 0) (cs := cs) present idle (by omega) (by omega)
  simp only [Nat.zero_add] at runs
  exact ⟨t, u, run, runs, by rw [strip_congr (h.strips.trans strips.symm)], by rw [h.ends.eq], resp⟩

/-- Copies of one element, mapped with their indices. -/
theorem mapIdx_replicate {α β : Type} (n : Nat) (x : α) (f : Nat → α → β) :
    (List.replicate n x).mapIdx f = (List.range n).map (f · x) :=
  List.ext_getElem (by simp) (by simp)

/-- Settles O35: both commands write the colors of the whole strip, FILL as many copies of its color. -/
theorem wholeStripWritersAgree : Obligations.WholeStripWritersAgree := by
  intro s colors c st present idle whole nonempty fits
  refine ⟨?setPixels, ?fill⟩
  case setPixels =>
    have run := exec_setPixels_writes (start := 0) present nonempty (by simp [whole]) idle
    exact wholeStrip_agrees run present idle whole fits
  case fill =>
    have len : (BitVec.ofNat 32 colors.length).toNat = colors.length := by
      rw [BitVec.toNat_ofNat, Nat.mod_eq_of_lt (by omega)]
    have run := exec_fill_writes (start := 0) (len := BitVec.ofNat 32 colors.length) (c := c) present
      (by rw [len]; exact mt List.length_eq_zero_iff.1 nonempty) (by rw [len, whole]; simp) idle
    rw [len] at run
    have agree := wholeStrip_agrees run present idle (by rwa [List.length_replicate])
      (by rwa [List.length_replicate])
    rwa [mapIdx_replicate, List.length_replicate] at agree

end Sys2Proof.Machine
end

section
/-! PROOF. The bounds errors of the pixel writers (spec/41_pixel_buffer.md R114 to R116, spec/60_exceptions.md
R197). -/

namespace Sys2Proof.Machine

variable {st u : State} {k start len : Nat} {e : ErrorKind}

/-- A failing command, after draws only, changes nothing else. -/
theorem fail_onlyFails (draws : OnlyDraws st u) (e : ErrorKind) :
    ∃ t, u.fail e = .next t ∧ OnlyFails st t e ∧ NoDraw u t := by
  obtain ⟨ends, same⟩ := ends_fail draws (e := e) rfl
  exact ⟨_, rfl, ⟨ends.hostEnds, same⟩, rfl, rfl⟩

/-! ## The error of a range (R115, R116) -/

theorem rangeError_outOfRange (nonempty : len ≠ 0) (beyond : (st.strip k).conf.pixels < start + len) :
    st.rangeError k start len = (some .outOfRange, st) := by
  rw [State.rangeError, if_pos beyond, if_neg nonempty]

theorem rangeError_empty (within : start ≤ (st.strip k).conf.pixels) :
    st.rangeError k start 0 = (some .invalidArgument, st) := by
  rw [State.rangeError, Nat.add_zero, if_neg (Nat.not_lt.2 within), if_pos rfl]

/-- An empty range that starts beyond the strip has the error that is drawn (log 4). -/
theorem rangeError_drawn {n : Nat} {ns : List Nat} (beyond : (st.strip k).conf.pixels < start)
    (script : st.script = n :: ns) :
    st.rangeError k start 0 =
      (some (if n % 2 = 1 then .outOfRange else .invalidArgument), { st with script := ns }) := by
  rw [State.rangeError, Nat.add_zero, if_pos beyond, if_pos rfl, drawBit_script script, apply_ite some]
  simp only [beq_iff_eq]

/-- A range with an error ends the command in that error, and nothing is written. -/
theorem writeRange_fails {cs : List Color} (present : (st.strip k).present = true)
    (error : st.rangeError k start len = (some e, u)) (draws : OnlyDraws st u) :
    ∃ t, st.writeRange k start len cs = .next t ∧ OnlyFails st t e ∧ NoDraw u t := by
  have run : st.writeRange k start len cs = u.fail e := by simp [State.writeRange, present, error]
  rw [run]
  exact fail_onlyFails draws e

/-- SET_PIXELS and FILL of a range have one body. -/
theorem exec_range {s : Byte} {start len : Word32} {c : Color} {colors : List Color} {i : Instr}
    (length : colors.length = len.toNat) (range : i = .setPixels s start colors ∨ i = .fill s start len c)
    (st : State) : ∃ cs, exec i st = st.writeRange s.toNat start.toNat len.toNat cs := by
  obtain rfl | rfl := range
  · exact ⟨colors, by rw [← length]; rfl⟩
  · exact ⟨_, rfl⟩

/-- Settles O36: each of the four errors is the command's first failing check, before the check for a busy strip. -/
theorem pixelBoundsErrors : Obligations.PixelBoundsErrors := by
  refine ⟨fun s i c st present beyond => ?index, fun s start len c colors st present length i range => ?range⟩
  case index =>
    have run : exec (.setPixel s i c) st = st.fail .outOfRange := by simp [exec, execSetPixel, present, beyond]
    rw [run]
    exact fail_onlyFails (.refl st) _
  case range =>
    obtain ⟨cs, run⟩ := exec_range length range st
    rw [run]
    refine ⟨fun nonempty beyond => ?beyond, fun empty within => ?empty, fun empty beyond n ns script => ?drawn⟩
    case beyond => exact writeRange_fails present (rangeError_outOfRange nonempty beyond) (.refl st)
    case empty =>
      rw [empty]
      exact writeRange_fails present (rangeError_empty within) (.refl st)
    case drawn =>
      rw [empty]
      obtain ⟨t, run, fails, rest, -⟩ := writeRange_fails present (rangeError_drawn beyond script) ⟨rfl⟩
      exact ⟨t, run, fails, rest⟩

end Sys2Proof.Machine
end

section
/-! PROOF. What ENCODE and ENC_RESET answer on their strip (spec/42_strip_encoder.md R131 to R143), and that ENC_RESET
and FLUSH start a session with the whole stream to come (R149). -/

namespace Sys2Proof.Machine

variable {st : State} {s : Byte} {x : Strip} {n free slotCap : Nat}

/-! ## The start and the end of a session (R139, R148) -/

theorem bitPosition_of_isInitial {e : Encoder} (initial : e.isInitial) : bitPosition e = 0 := by
  rw [Encoder.isInitial] at initial
  rw [initial]
  rfl

/-- With the encoder in its initial state the whole stream is still to come. -/
theorem pending_of_isInitial (notDone : x.encDone = false) (initial : x.enc.isInitial) : x.pending = x.stream := by
  have phase : x.enc.phase = .sendData := congrArg Encoder.phase initial
  simp [Strip.pending, notDone, phase, bitPosition_of_isInitial initial]

/-- In the data phase the rest of the data bits and the reset symbol are still to come. -/
theorem pending_length_sendData (notDone : x.encDone = false) (addresses : x.buf.map Prod.fst = List.range n)
    (phase : x.enc.phase = .sendData) : x.pending.length = 8 * n + 1 - bitPosition x.enc := by
  have bytes : x.buf.bytes.length = n := by simpa [Memory.bytes] using congrArg List.length addresses
  simp [Strip.pending, notDone, phase, Strip.stream, bytes]

theorem pending_sendReset (notDone : x.encDone = false) (phase : x.enc.phase = .sendReset) :
    x.pending = [x.conf.syms.reset] := by simp [Strip.pending, notDone, phase]

/-- An ENCODE that leaves no symbol to come leaves phase and reset cursor at their start, and the data cursor too
unless the data phase was over before the call. -/
theorem encoderAfter_of_complete (notDone : x.encDone = false) (addresses : x.buf.map Prod.fst = List.range n)
    (within : bitPosition x.enc ≤ 8 * n) (complete : x.pending.length ≤ free) :
    (encoderAfter (8 * n) x.enc free).phase = .sendData ∧ (encoderAfter (8 * n) x.enc free).rcount = 0 ∧
      bitPosition (encoderAfter (8 * n) x.enc free) = if x.enc.phase = .sendData then 0 else bitPosition x.enc := by
  cases phase : x.enc.phase with
  | sendData =>
    rw [pending_length_sendData notDone addresses phase] at complete
    have beyond : ¬ bitPosition x.enc + free < 8 * n ∧ ¬ bitPosition x.enc + free = 8 * n := by omega
    have after : encoderAfter (8 * n) x.enc free = { setBitPosition x.enc 0 with rcount := 0 } := by
      simp [encoderAfter, phase, beyond]
    rw [after]
    exact ⟨phase, rfl, bitPosition_setBitPosition x.enc 0⟩
  | sendReset =>
    rw [pending_sendReset notDone phase, List.length_singleton] at complete
    simp [encoderAfter, phase, Nat.one_le_iff_ne_zero.1 complete, bitPosition]

/-! ## ENCODE (R140) -/

/-- An encoder invocation in a session writes its strip and its response on the channel port, and nothing else. -/
theorem invokeEncode_of_session {k : Nat} (own : st.strip k = x) (present : x.present = true) (busy : x.busy = true)
    (notDone : x.encDone = false) (fits : free + x.slot.length ≤ st.cfg.slotCap)
    (addresses : x.buf.map Prod.fst = List.range n) (within : bitPosition x.enc ≤ 8 * n) :
    st.invokeEncode k free = .next
      { st.setStrip k
          { x with
            slot := x.slot ++ x.pending.take free
            enc := encoderAfter (8 * n) x.enc free
            encDone := decide (x.pending.length ≤ free) } with
        chanResp := st.chanResp ++
          [.encode
            { complete := decide (x.pending.length ≤ free), full := decide (free ≤ x.pending.length) }
            (x.pending.take free)] } := by
  simp only [State.invokeEncode, own, encodeStrip_eq present busy notDone fits addresses within, noteStatus_eq, notDone,
    Bool.or_false]

/-- Settles O38: what ENCODE emits is the strip's pending symbols, as many as fit. -/
theorem encodeEmitsTheNextSymbols : Obligations.EncodeEmitsTheNextSymbols := by
  intro s space st present busy notDone fits addresses within
  refine ⟨_, _, invokeEncode_of_session rfl present busy notDone fits addresses within,
    ⟨rfl, rfl, rfl, rfl, rfl, rfl, rfl⟩, ⟨rfl, rfl⟩, rfl, rfl, rfl, rfl,
    fun j other => strip_setStrip_other st _ other, rfl, decide_eq_true_iff, decide_eq_true_iff,
    strip_setStrip_same st .., ?pending, fun complete => ?complete⟩
  all_goals rw [strip_withChanResp, strip_setStrip_same]
  case pending => exact pending_encoderAfter notDone addresses within space.toNat _
  case complete =>
    obtain ⟨phase, rcount, position⟩ :=
      encoderAfter_of_complete notDone addresses within (of_decide_eq_true complete)
    exact ⟨phase, rcount, fun inData => by rw [position, if_pos inData]⟩

theorem encodeStrip_outside (outside : x.present = false ∨ x.busy = false ∨ x.encDone = true ∨
    slotCap < free + x.slot.length) : encodeStrip slotCap x free = .outside := by
  rw [encodeStrip, if_neg]
  simp only [Bool.and_eq_true, Bool.not_eq_true', decide_eq_true_eq]
  rintro ⟨⟨⟨present, busy⟩, notDone⟩, fits⟩
  simp [present, busy, notDone, Nat.not_lt.2 fits] at outside

/-- Settles O39: each alternative is a failed part of ENCODE's precondition. -/
theorem encodeOutsideASessionIsRefused : Obligations.EncodeOutsideASessionIsRefused := by
  intro s space st outside
  simp only [exec, execEncode, State.invokeEncode, encodeStrip_outside outside]
  rfl

/-! ## ENC_RESET and FLUSH (R143, R149, R167) -/

theorem exec_encReset_of_idle (present : (st.strip s.toNat).present = true) (idle : (st.strip s.toNat).busy = false) :
    exec (.encReset s) st =
      State.finish
        (st.setStrip s.toNat
          { st.strip s.toNat with enc := { phase := .sendData, dbyte := 0, dbit := 0, rcount := 0 } }) .ok := by
  obtain ⟨absent, -⟩ | ⟨-, busy, -⟩ | ⟨-, -, run⟩ := execEncReset_cases s st
  · simp [present] at absent
  · simp [idle] at busy
  · exact run

/-- A FLUSH of an idle strip whose channel has reported no fault and refuses nothing starts a session. -/
theorem exec_flush_of_ready (present : (st.strip s.toNat).present = true) (idle : (st.strip s.toNat).busy = false)
    (noError : (st.strip s.toNat).chErr = false) (accepts : st.cfg.chan = .never) :
    exec (.flush s) st = State.finish (st.setStrip s.toNat (startSession (st.strip s.toNat))) .ok := by
  simp [exec, execFlush, State.waitDone, present, idle, noError, accepts]

/-- A session that starts with the encoder in its initial state is tracked, and its whole stream is to come. -/
theorem startSession_of_isInitial (present : x.present = true) (initial : x.enc.isInitial) :
    (startSession x).Tracks ∧ (startSession x).pending = x.stream := by
  have whole : (startSession x).pending = x.stream := pending_of_isInitial (x := startSession x) rfl initial
  refine ⟨⟨present, rfl, whole, fun _ => initial, fun phase => ?_, congrArg Encoder.rcount initial⟩, whole⟩
  have start : x.enc.phase = .sendData := congrArg Encoder.phase initial
  exact absurd (start.symm.trans phase) (by decide)

/-- Settles O41: the write of the initial registers into the one strip. -/
theorem encResetRestoresTheInitialState : Obligations.EncResetRestoresTheInitialState := by
  intro s st present idle
  rw [exec_encReset_of_idle present idle]
  obtain ⟨ends, sym, -⟩ := ends_finish (st := st) (u := st.setStrip s.toNat _) (r := .ok) rfl rfl
  exact ⟨_, rfl, ends.hostEnds, ⟨rfl, rfl⟩, sym, fun j other => strip_setStrip_other st _ other,
    strip_setStrip_same st ..⟩

/-- Settles O42: FLUSH finds the strip as ENC_RESET left it, the encoder in its initial state. -/
theorem resetThenFlushSendsTheWholeStream : Obligations.ResetThenFlushSendsTheWholeStream := by
  intro s st present idle noError accepts
  obtain ⟨t, reset, ⟨⟨cfg, -⟩, -⟩, -, -, -, same⟩ := encResetRestoresTheInitialState s st present idle
  have flush := exec_flush_of_ready (s := s) (st := t) (by rwa [same]) (by rwa [same]) (by rwa [same])
    (by rwa [cfg])
  refine ⟨t, _, reset, flush, ?_⟩
  rw [strip_ended, strip_setStrip_same, same]
  exact startSession_of_isInitial present rfl

end Sys2Proof.Machine
end

section
/-! PROOF. The session law: whatever free spaces a session is offered, it emits exactly the stream of its buffer
(spec/42_strip_encoder.md R146). -/

namespace Sys2Proof.Machine

variable {x : Strip} {n free slotCap : Nat} {frees : List Nat} {pending : List PulseSymbol}

/-! ## A session that began in the initial state -/

/-- Between two invocations of a session: `enc_done` is not set, and the cursors are where a session that began in the
initial state can have brought them; in `SendReset` the data cursor is back at its start (R133). -/
structure Strip.FromStart (x : Strip) : Prop where
  present : x.present = true
  busy : x.busy = true
  notDone : x.encDone = false
  addresses : x.buf.map Prod.fst = List.range x.conf.size
  cursor : bitPosition x.enc < 8 * x.conf.size ∨ bitPosition x.enc = 0
  rcount : x.enc.rcount = 0
  dataOver : x.enc.phase = .sendReset → bitPosition x.enc = 0

theorem Strip.FromStart.within (h : x.FromStart) : bitPosition x.enc ≤ 8 * x.conf.size := by
  have := h.cursor
  omega

/-- The strip after an invocation with `free` places and a drained slot. -/
def Strip.encoded (x : Strip) (free : Nat) : Strip :=
  { x with slot := x.pending.take free, enc := encoderAfter (8 * x.conf.size) x.enc free }

theorem Strip.FromStart.encodeStrip_eq (h : x.FromStart) (fits : free ≤ slotCap) :
    encodeStrip slotCap { x with slot := [] } free =
      .ok (x.pending.take free)
        { complete := decide (x.pending.length ≤ free), full := decide (free ≤ x.pending.length) }
        (x.encoded free) :=
  Machine.encodeStrip_eq (x := { x with slot := [] }) h.present h.busy h.notDone fits h.addresses h.within

theorem encoderAfter_dataOver {e : Encoder} (dataOver : e.phase = .sendReset → bitPosition e = 0)
    (phase : (encoderAfter n e free).phase = .sendReset) : bitPosition (encoderAfter n e free) = 0 := by
  unfold encoderAfter at phase ⊢
  split at phase
  next before =>
    split at phase
    next noPlace =>
      rw [if_pos noPlace]
      exact dataOver before
    next => cases phase
  next before =>
    have inData : e.phase ≠ .sendReset := by simp [before]
    split at phase
    next => exact absurd phase inData
    next beyond =>
      split at phase
      next last =>
        rw [if_neg beyond, if_pos last]
        exact bitPosition_setBitPosition e 0
      next => exact absurd phase inData

/-- An invocation leaves `enc_done` to the channel agent (R35) and the cursors where such a session can be. -/
theorem Strip.FromStart.encoded (h : x.FromStart) (free : Nat) : (x.encoded free).FromStart where
  present := h.present
  busy := h.busy
  notDone := h.notDone
  addresses := h.addresses
  cursor := encoderAfter_cursor free h.cursor
  rcount := encoderAfter_rcount free h.rcount
  dataOver := encoderAfter_dataOver h.dataOver

/-- What the invocation emitted is no longer to come. -/
theorem Strip.FromStart.pending_encoded (h : x.FromStart) (more : free < x.pending.length) :
    (x.encoded free).pending = x.pending.drop free := by
  have rest := pending_encoderAfter h.notDone h.addresses h.within free (x.pending.take free)
  rwa [decide_eq_false (Nat.not_le.2 more), ← h.notDone] at rest

/-- An invocation that leaves no symbol to come leaves the encoder in its initial state. -/
theorem Strip.FromStart.encoded_isInitial (h : x.FromStart) (complete : x.pending.length ≤ free) :
    (x.encoded free).enc.isInitial := by
  obtain ⟨phase, rcount, position⟩ := encoderAfter_of_complete h.notDone h.addresses h.within complete
  refine encoder_ext phase (position.trans ?_) rcount
  cases before : x.enc.phase with
  | sendData => rfl
  | sendReset => exact h.dataOver before

/-! ## Repeated invocations -/

theorem encodeRun_cons_complete (h : x.FromStart) (fits : free ≤ slotCap) (complete : x.pending.length ≤ free) :
    encodeRun slotCap x (free :: frees) =
      { out := x.pending
        statuses := [{ complete := true, full := decide (free ≤ x.pending.length) }]
        after := x.encoded free
        completed := true } := by
  simp only [encodeRun, h.encodeStrip_eq fits, complete, decide_true, if_true, List.take_of_length_le]

theorem encodeRun_cons_more (h : x.FromStart) (fits : free ≤ slotCap) (more : free < x.pending.length) :
    encodeRun slotCap x (free :: frees) =
      { encodeRun slotCap (x.encoded free) frees with
        out := x.pending.take free ++ (encodeRun slotCap (x.encoded free) frees).out
        statuses := dataStopStatus :: (encodeRun slotCap (x.encoded free) frees).statuses } := by
  simp [encodeRun, h.encodeStrip_eq fits, Nat.not_le.2 more, Nat.le_of_lt more, dataStopStatus]

/-- What repeated invocations come to that were offered the places `frees`, with the symbols `pending` to come. -/
structure EncodeRun.Emits (r : EncodeRun) (pending : List PulseSymbol) (frees : List Nat) : Prop where
  out_prefix : r.out <+: pending
  completed : r.completed = true → r.out = pending ∧ r.after.enc.isInitial
  unfinished : r.completed = false → ∀ e ∈ r.statuses, e = dataStopStatus
  earlier : ∀ e ∈ r.statuses.dropLast, e = dataStopStatus
  enough : pending.length ≤ (frees.filter fun f => decide (1 ≤ f)).length → r.completed = true

/-- An invocation that stops with `FULL`, before the others. -/
theorem EncodeRun.Emits.cons {r : EncodeRun} (h : r.Emits (pending.drop free) frees) (more : free < pending.length) :
    EncodeRun.Emits { r with out := pending.take free ++ r.out, statuses := dataStopStatus :: r.statuses }
      pending (free :: frees) where
  out_prefix := by
    conv_rhs => rw [← List.take_append_drop free pending]
    exact (List.prefix_append_right_inj _).2 h.out_prefix
  completed done := by
    obtain ⟨out, initial⟩ := h.completed done
    exact ⟨by rw [out, List.take_append_drop], initial⟩
  unfinished running := List.forall_mem_cons.2 ⟨rfl, h.unfinished running⟩
  earlier := by
    cases statuses : r.statuses with
    | nil => simp
    | cons e es =>
      rw [List.dropLast_cons_cons, ← statuses]
      exact List.forall_mem_cons.2 ⟨rfl, h.earlier⟩
  enough offers := by
    refine h.enough ?_
    rw [List.length_drop]
    by_cases offered : 1 ≤ free
    · rw [List.filter_cons_of_pos (by simpa using offered), List.length_cons] at offers
      omega
    · rw [List.filter_cons_of_neg (by simpa using offered)] at offers
      omega

/-- By induction on the offers: each invocation takes what it emits off the symbols to come. -/
theorem Strip.FromStart.encodeRun_emits (h : x.FromStart) (fits : ∀ f ∈ frees, f ≤ slotCap) :
    (encodeRun slotCap x frees).Emits x.pending frees := by
  induction frees generalizing x with
  | nil =>
    have toCome := pending_length_pos h.notDone h.addresses h.within
    exact ⟨List.nil_prefix, nofun, fun _ => nofun, nofun, fun offers => absurd (toCome.trans offers) (by simp)⟩
  | cons free frees ih =>
    obtain ⟨first, others⟩ := List.forall_mem_cons.1 fits
    by_cases complete : x.pending.length ≤ free
    · rw [encodeRun_cons_complete h first complete]
      exact ⟨List.prefix_rfl, fun _ => ⟨rfl, h.encoded_isInitial complete⟩, nofun, nofun, fun _ => rfl⟩
    · have more : free < x.pending.length := Nat.not_le.1 complete
      rw [encodeRun_cons_more h first more]
      have rest := ih (h.encoded free) others
      rw [h.pending_encoded more] at rest
      exact rest.cons more

/-- Settles O40: in the initial state the symbols to come are the whole stream. -/
theorem sessionEmitsExactlyTheStream : Obligations.SessionEmitsExactlyTheStream := by
  intro slotCap x frees present busy notDone addresses initial fits
  have start : x.FromStart := {
    present, busy, notDone, addresses
    cursor := .inr (bitPosition_of_isInitial initial)
    rcount := congrArg Encoder.rcount initial
    dataOver := fun _ => bitPosition_of_isInitial initial }
  have whole : x.pending = stream x.conf.syms x.buf.bytes := pending_of_isInitial notDone initial
  have length : x.pending.length = 8 * x.conf.size + 1 := by
    rw [pending_length_sendData notDone addresses (congrArg Encoder.phase initial), bitPosition_of_isInitial initial]
    rfl
  have run := start.encodeRun_emits fits
  refine ⟨fun done => whole ▸ run.completed done, fun running => ⟨whole ▸ run.out_prefix, fun e he => ?_⟩,
    fun e he => ?_, fun offers => run.enough (length ▸ offers)⟩
  · rw [run.unfinished running e he]
    rfl
  · rw [run.earlier e he]
    exact ⟨rfl, rfl⟩

end Sys2Proof.Machine
end

section
/-! PROOF. The transmission law: a session that starts with the encoder in its initial state and ends by CHAN_DONE logs
exactly the stream of its buffer (spec/43_strip_lifecycle.md R178). -/

namespace Sys2Proof.Machine

variable {c : Config} {sym : Nat → Option SymbolSet} {x y : Strip} {free : Nat}

/-! ## One encoder invocation in a session (R140, R172) -/

theorem Strip.PresentOk.within (ok : x.PresentOk c sym) : bitPosition x.enc ≤ 8 * x.conf.size := by
  have := ok.cursor
  omega

/-- The strip after an invocation that was offered `free` places, the status noted. -/
def Strip.invoked (x : Strip) (free : Nat) : Strip :=
  { x with
    slot := x.slot ++ x.pending.take free
    enc := encoderAfter (8 * x.conf.size) x.enc free
    encDone := decide (x.pending.length ≤ free) }

/-- An invocation that answers was one in a session, and leaves the strip as `invoked` says. -/
theorem Strip.PresentOk.noteStatus_eq_invoked (ok : x.PresentOk c sym) {out : List PulseSymbol} {status : EncStatus}
    (answer : encodeStrip c.slotCap x free = .ok out status y) :
    x.encDone = false ∧ noteStatus y status = x.invoked free := by
  obtain ⟨⟨present, busy, notDone, fits⟩, -⟩ := encodeStrip_frame answer
  rw [encodeStrip_eq present busy notDone fits ok.addresses ok.within] at answer
  cases answer
  rw [noteStatus_eq, notDone, Bool.or_false]
  exact ⟨rfl, rfl⟩

theorem Strip.PresentOk.pending_invoked (ok : x.PresentOk c sym) (notDone : x.encDone = false) (free : Nat) :
    (x.invoked free).pending = x.pending.drop free :=
  pending_encoderAfter notDone ok.addresses ok.within free _

/-! ## What a step makes of a tracked session -/

/-- The strip's session is still tracked, or was logged as done with its whole stream and the encoder initial again, or
was logged as failed with a beginning of its stream. -/
def Strip.KeepsSession (x y : Strip) : Prop :=
  (y.Tracks ∧ y.stream = x.stream ∧ y.txlog = x.txlog) ∨
  (y.txlog = x.txlog ++ [{ symbols := x.stream, outcome := .done }] ∧ y.busy = false ∧ y.enc.isInitial) ∨
  (∃ w, w <+: x.stream ∧ y.txlog = x.txlog ++ [{ symbols := w, outcome := .failed }] ∧ y.busy = false ∧
    y.chErr = true)

/-- Between two invocations a tracked session is one that began in the initial state. -/
theorem Strip.Tracks.fromStart (tracks : x.Tracks) (ok : x.PresentOk c sym) (notDone : x.encDone = false) :
    x.FromStart := by
  obtain ⟨present, busy, -, -, dataOver, rcount⟩ := tracks
  exact {
    present, busy, notDone, rcount
    addresses := ok.addresses
    cursor := ok.cursor
    dataOver := fun phase => by
      rw [dataOver phase]
      rfl }

/-- An invocation moves symbols from those to come to the slot. -/
theorem Strip.Tracks.invoked (tracks : x.Tracks) (ok : x.PresentOk c sym) (notDone : x.encDone = false) (free : Nat) :
    (x.invoked free).Tracks := by
  have start := tracks.fromStart ok notDone
  obtain ⟨present, busy, whole, -, -, rcount⟩ := tracks
  have rcountAfter := encoderAfter_rcount (n := 8 * x.conf.size) free rcount
  refine ⟨present, busy, ?whole, fun complete => start.encoded_isInitial (of_decide_eq_true complete),
    fun phase => encoder_ext phase (start.encoded free |>.dataOver phase) rcountAfter, rcountAfter⟩
  rw [ok.pending_invoked notDone]
  calc x.wire ++ (x.slot ++ x.pending.take free) ++ x.pending.drop free
      = x.wire ++ x.slot ++ (x.pending.take free ++ x.pending.drop free) := by simp only [List.append_assoc]
    _ = x.stream := by rw [List.take_append_drop, whole]

/-- A drain moves a symbol from the slot to the wire. -/
theorem Strip.Tracks.drained (tracks : x.Tracks) : (drainStrip x).Tracks := by
  unfold drainStrip
  split
  next => exact tracks
  next slot =>
    obtain ⟨present, busy, whole, rest⟩ := tracks
    refine ⟨present, busy, Eq.trans ?_ whole, rest⟩
    simp [slot, Strip.pending, Strip.stream]

/-- Everything a step can make of a strip keeps a tracked session or ends it; what other commands do to a strip they do
to an idle one only. -/
theorem Strip.Tracks.change (tracks : x.Tracks) (ok : x.PresentOk c sym) (change : StripChange c sym x y) :
    x.KeepsSession y := by
  have ⟨present, busy, whole, initial, _⟩ := tracks
  cases change with
  | creates _ _ absent => simp [present] at absent
  | writes _ _ idle | clears _ idle | starts _ idle | releases _ _ idle | resets _ idle => simp [busy] at idle
  | encodes free _ _ _ answer =>
    obtain ⟨notDone, eq⟩ := ok.noteStatus_eq_invoked answer
    rw [eq]
    exact .inl ⟨tracks.invoked ok notDone free, rfl, rfl⟩
  | drains =>
    refine .inl ⟨tracks.drained, ?_⟩
    unfold drainStrip
    split <;> exact ⟨rfl, rfl⟩
  | finishes enabled =>
    obtain ⟨done, empty⟩ : x.encDone = true ∧ x.slot = [] := by
      simpa [canFinish, inFlight, present, busy] using enabled
    rw [empty, pending_of_encDone done, List.append_nil, List.append_nil] at whole
    exact .inr (.inl ⟨by rw [← whole]; rfl, rfl, initial done⟩)
  | fails =>
    refine .inr (.inr ⟨x.wire, ?_, rfl, rfl, rfl⟩)
    rw [← whole, List.append_assoc]
    exact List.prefix_append _ _

/-- A FLUSH that returns `Ok` has started a session on its strip. -/
theorem strip_of_flush_ok {s : Byte} {st t : State} (run : exec (.flush s) st = .next t)
    (ok : t.hostResp = st.hostResp ++ [.ok]) : t.strip s.toNat = startSession (st.strip s.toNat) := by
  simp only [exec] at run
  obtain ⟨-, eq⟩ | ⟨-, -, u, draws, eq⟩ | ⟨-, -, -, u, draws, eq⟩ | ⟨-, -, -, eq⟩ | ⟨-, -, -, -, eq⟩ |
    ⟨-, -, -, -, eq⟩ := execFlush_cases s st <;> rw [eq] at run <;> cases run
  · simp at ok
  · simp [draws.hostResp] at ok
  · simp [draws.hostResp] at ok
  · simp at ok
  · simp [(ask_onlyDraws st st.cfg.chan).hostResp] at ok
  · rw [strip_ended, strip_setStrip_same]

/-- Settles O60: a FLUSH starts with the whole stream to come, and every step moves symbols from those to come to the
slot and from there to the wire, or ends the session. -/
theorem transmissionSendsExactlyTheBuffer : Obligations.TransmissionSendsExactlyTheBuffer := by
  refine ⟨fun s st t present initial run ok => ?starts, fun st t k inv tracks run => ?keeps⟩
  case starts =>
    rw [strip_of_flush_ok run ok]
    exact ⟨(startSession_of_isInitial present initial).1, rfl⟩
  case keeps =>
    exact (step_stripsChange run).strip_rel
      (p := fun x y => x.Tracks → x.PresentOk st.cfg st.symbols → x.KeepsSession y)
      (fun _ tracks _ => .inl ⟨tracks, rfl, rfl⟩) (fun _ _ change tracks ok => tracks.change ok change) k tracks
      (inv.present k tracks.1)

end Sys2Proof.Machine
end

section
/-! PROOF. When each step of a channel agent is enabled and what it does (spec/43_strip_lifecycle.md R170 to R175). -/

namespace Sys2Proof.Machine

variable {st : State} {k : Nat} {m : Move}

/-! ## Which channel steps are enabled (R170) -/

/-- A channel step meets its condition only while its strip is in flight. -/
theorem Move.Enabled.inFlight (h : m.Enabled st) (channel : m.channelStrip = some k) :
    (st.strip k).present = true ∧ (st.strip k).busy = true := by
  cases m with
  | host | expire | port => cases channel
  | drain | encode | done | fail =>
    cases channel
    simp only [Move.Enabled, canDrain, canEncode, canFinish, canFail, Machine.inFlight, Bool.and_eq_true] at h
    simp only [h, and_self]

theorem mem_stripMoves_of_enabled (channel : m.channelStrip = some k) (h : m.Enabled st) : m ∈ st.stripMoves k := by
  cases m with
  | host | expire | port => cases channel
  | drain | encode | done | fail =>
    cases channel
    simp only [Move.Enabled] at h
    simp [State.stripMoves, h]

/-- A strip that is present has been written, so it is listed. -/
theorem mem_keys_of_present (present : (st.strip k).present = true) : k ∈ st.strips.map Prod.fst := by
  rw [← tableGet_isSome_iff]
  cases entry : tableGet st.strips k with
  | none => simp [State.strip, entry, Strip.powerOn] at present
  | some x => rfl

/-- A channel step is among the enabled ones exactly when its strip meets its condition. -/
theorem mem_moves_iff_enabled (channel : m.channelStrip = some k) : m ∈ st.moves ↔ m.Enabled st := by
  refine ⟨enabled_of_mem_moves, fun h => ?_⟩
  obtain ⟨entry, listed, rfl⟩ := List.mem_map.1 (mem_keys_of_present (h.inFlight channel).1)
  exact List.mem_append_right _ (List.mem_flatMap.2 ⟨entry, listed, mem_stripMoves_of_enabled channel h⟩)

theorem drain_mem_moves_iff : .drain k ∈ st.moves ↔
    (st.strip k).present = true ∧ (st.strip k).busy = true ∧ (st.strip k).slot ≠ [] :=
  (mem_moves_iff_enabled rfl).trans (by simp [Move.Enabled, canDrain, inFlight, and_assoc])

theorem encode_mem_moves_iff : .encode k ∈ st.moves ↔
    (st.strip k).present = true ∧ (st.strip k).busy = true ∧ (st.strip k).encDone = false :=
  (mem_moves_iff_enabled rfl).trans (by simp [Move.Enabled, canEncode, inFlight, and_assoc])

theorem done_mem_moves_iff : .done k ∈ st.moves ↔
    (st.strip k).present = true ∧ (st.strip k).busy = true ∧ (st.strip k).encDone = true ∧ (st.strip k).slot = [] :=
  (mem_moves_iff_enabled rfl).trans (by simp [Move.Enabled, canFinish, inFlight, and_assoc])

theorem fail_mem_moves_iff : .fail k ∈ st.moves ↔
    (st.strip k).present = true ∧ (st.strip k).busy = true ∧ st.cfg.chan = .external :=
  (mem_moves_iff_enabled rfl).trans (by simp [Move.Enabled, canFail, inFlight, and_assoc])

/-! ## What each of them does (R171 to R175) -/

/-- Settles O56: the head of the slot goes to the end of the wire. -/
theorem drainMovesTheOldestSymbolToTheWire : Obligations.DrainMovesTheOldestSymbolToTheWire := by
  refine fun st k => ⟨drain_mem_moves_iff, fun p rest slot => ?_⟩
  refine ⟨_, rfl, rfl, fun j other => strip_setStrip_other st _ other, ?_⟩
  simp [drainStrip, slot]

/-- Settles O57: CHAN_ENCODE is an invocation in a session, with all the free slot space. -/
theorem channelEncodeFillsTheSlot : Obligations.ChannelEncodeFillsTheSlot := by
  refine ⟨fun _ _ => encode_mem_moves_iff, fun st k inv enabled => ?_⟩
  obtain ⟨present, busy, notDone⟩ := encode_mem_moves_iff.1 enabled
  have ok := inv.present k present
  have fits := (Nat.sub_add_cancel ok.slotFits).le
  refine ⟨_, invokeEncode_of_session rfl present busy notDone fits ok.addresses ok.within, rfl,
    fun j other => strip_setStrip_other st _ other, strip_setStrip_same st .., ?pending, ?phase⟩
  all_goals rw [strip_withChanResp, strip_setStrip_same]
  case pending => exact ok.pending_invoked notDone _
  case phase =>
    exact fun complete => (encoderAfter_of_complete notDone ok.addresses ok.within (of_decide_eq_true complete)).1

/-- Settles O58: the session's wire goes to the log. -/
theorem doneLogsTheSession : Obligations.DoneLogsTheSession := fun st _ =>
  ⟨done_mem_moves_iff, _, rfl, rfl, fun _ other => strip_setStrip_other st _ other, strip_setStrip_same st ..⟩

/-- A strip written after draws: the frame of both together. -/
theorem OnlyDraws.setStrip_eq {u : State} (draws : OnlyDraws st u) (k : Nat) (x : Strip) :
    u.setStrip k x =
      { st with strips := (u.setStrip k x).strips, script := (u.setStrip k x).script
                draws := (u.setStrip k x).draws } := by
  rw [draws.eq]
  rfl

/-- Settles O59: the position is drawn below the buffer's end or set to 0. -/
theorem failedSessionLeavesADrawnPosition : Obligations.FailedSessionLeavesADrawnPosition := by
  refine ⟨fun _ _ => fail_mem_moves_iff, fun st k => ?_⟩
  have draws := (drawBit_onlyDraws st).trans (draw_onlyDraws _)
  refine ⟨_, (failStrip (st.strip k) (if st.drawBit.1 then .sendReset else .sendData)
      (drawnPosition (st.strip k) st.drawBit.2.draw.1)).enc, rfl, ?frame, fun j other => ?others,
    failStrip_cursor _ _ _, rfl, strip_setStrip_same _ _ _, fun n pos ns script => ⟨?phase, fun inside => ?position⟩⟩
  case frame => exact draws.setStrip_eq k _
  case others => rw [strip_setStrip_other _ _ other, draws.strip]
  case phase => simp [drawBit_script script, failStrip]
  case position => simp [drawBit_script script, State.draw, failStrip, drawnPosition, inside]

end Sys2Proof.Machine
end

section
/-! PROOF. Every run is weakly fair to the fair steps of the channel agents (spec/43_strip_lifecycle.md R176): such a
step that is passed over comes nearer to being taken, so it is not passed over for ever. -/

namespace Sys2Proof.Machine

variable {st t : State} {m : Move}

/-- The run from `st` never takes the step `m`, which stays enabled. -/
def State.Starves (st : State) (m : Move) : Prop :=
  ∀ n, (∀ u, (st.after n).nextMove ≠ some (m, u)) ∧ m ∈ (st.after n).moves ∧ ∃ t, step (st.after n) = .next t

theorem not_weaklyFair_iff : ¬ st.WeaklyFair m ↔ st.Starves m := by
  simp [State.WeaklyFair, State.Starves]

/-- A step that passes over the enabled fair step `m`: while the agenda lasts it grows shorter; behind it `m` waits on,
nearer than it was. -/
theorem step_waits (run : step st = .next t) (fair : m.isFair = true) (enabled : m ∈ st.moves)
    (untaken : ∀ u, st.nextMove ≠ some (m, u)) :
    t.agenda = st.agenda.tail ∧
      (st.agenda = [] →
        m ∈ t.waiting.map Prod.fst ∧
          (m ∈ st.waiting.map Prod.fst → waitRank m t.waiting < waitRank m st.waiting)) := by
  obtain ⟨-, c, u, next, -, -, moved⟩ := step_cases run
  have other : c ≠ m := by
    rintro rfl
    exact untaken u next
  obtain ⟨agenda, waiting⟩ := runMove_schedule moved
  rw [agenda, waiting]
  exact nextMove_waits next enabled fair other

/-- A run that starves `m` goes on with a step that passes it over, and starves it from there on. -/
theorem State.Starves.step (h : st.Starves m) (fair : m.isFair = true) :
    ∃ t : State, t.Starves m ∧ t.agenda = st.agenda.tail ∧
      (st.agenda = [] →
        m ∈ t.waiting.map Prod.fst ∧
          (m ∈ st.waiting.map Prod.fst → waitRank m t.waiting < waitRank m st.waiting)) := by
  obtain ⟨untaken, enabled, t, run⟩ := h 0
  have first : st.after 1 = t := after_succ_of_next run
  refine ⟨t, fun n => ?_, step_waits run fair enabled untaken⟩
  rw [← first, ← after_add]
  exact h (1 + n)

/-- Behind the agenda a waiting step comes nearer with every choice. -/
theorem not_starves_of_waiting (fair : m.isFair = true) (agenda : st.agenda = [])
    (waits : m ∈ st.waiting.map Prod.fst) : ¬ st.Starves m := by
  induction rank : waitRank m st.waiting using Nat.strong_induction_on generalizing st with
  | h r ih =>
    intro h
    obtain ⟨t, starves, tail, nearer⟩ := h.step fair
    obtain ⟨waits', lt⟩ := nearer agenda
    exact ih _ (rank ▸ lt waits) (by rw [tail, agenda]; rfl) waits' rfl starves

/-- The agenda is used up, and then the step waits. -/
theorem not_starves (fair : m.isFair = true) : ¬ st.Starves m := by
  induction agenda : st.agenda generalizing st with
  | nil =>
    intro h
    obtain ⟨t, starves, tail, nearer⟩ := h.step fair
    exact not_starves_of_waiting fair (by rw [tail, agenda]; rfl) (nearer agenda).1 starves
  | cons x rest ih =>
    intro h
    obtain ⟨t, starves, tail, -⟩ := h.step fair
    exact ih (by rw [tail, agenda]; rfl) starves

/-- Every run is weakly fair to every fair step. -/
theorem weaklyFair_of_isFair (st : State) (fair : m.isFair = true) : st.WeaklyFair m :=
  not_not.1 (mt not_weaklyFair_iff.1 (not_starves fair))

end Sys2Proof.Machine
end

section
/-! PROOF. A state that meets the invariant is finished or has a step, and every session in flight ends
(spec/43_strip_lifecycle.md R176, R180, spec/42_strip_encoder.md R148). -/

namespace Sys2Proof.Machine

variable {st t u : State} {i : Instr} {m : Move} {k free : Nat} {c : Config} {sym : Nat → Option SymbolSet}
  {x y z : Strip}

/-! ## No step reads an address that does not exist (R39, R51) -/

/-- Choosing a step keeps the invariant. -/
theorem OnlySchedule.inv (h : OnlySchedule st u) (inv : st.Inv) : u.Inv := by
  rw [h]
  exact ⟨inv.config, inv.table, inv.tableRising, inv.stripsRising, inv.present, inv.absent, inv.emitted, inv.held⟩

theorem encodeStrip_ne_missing (ok : x.present = true → x.PresentOk c sym) (free a : Nat) :
    encodeStrip c.slotCap x free ≠ .missing a := by
  by_cases outside : x.present = false ∨ x.busy = false ∨ x.encDone = true ∨ c.slotCap < free + x.slot.length
  · rw [encodeStrip_outside outside]
    nofun
  · simp only [not_or, Bool.not_eq_false, Bool.not_eq_true, Nat.not_lt] at outside
    obtain ⟨present, busy, notDone, fits⟩ := outside
    rw [encodeStrip_eq present busy notDone fits (ok present).addresses (ok present).within]
    nofun

theorem invokeEncode_next (ok : (st.strip k).present = true → (st.strip k).PresentOk st.cfg sym) (free : Nat) :
    ∃ t, st.invokeEncode k free = .next t := by
  obtain eq | ⟨a, missing, -⟩ | ⟨_, _, _, -, eq⟩ := invokeEncode_cases st k free
  · exact ⟨_, eq⟩
  · exact absurd missing (encodeStrip_ne_missing ok free a)
  · exact ⟨_, eq⟩

theorem writeRange_next (st : State) (k start len : Nat) (colors : List Color) :
    ∃ t, st.writeRange k start len colors = .next t := by
  obtain ⟨-, eq⟩ | ⟨-, -, _, -, eq⟩ | ⟨-, -, _, -, eq⟩ | ⟨-, -, -, -, eq⟩ | ⟨-, -, -, -, eq⟩ :=
    writeRange_cases st k start len colors <;> exact ⟨_, eq⟩

/-- Every command answers a next state. -/
theorem exec_next (ok : ∀ k, (st.strip k).present = true → (st.strip k).PresentOk st.cfg sym) (i : Instr) :
    ∃ t, exec i st = .next t := by
  cases i with
  | compile v => obtain ⟨-, eq⟩ | ⟨_, -, -, eq⟩ | ⟨_, -, -, eq⟩ := execCompile_cases v st <;> exact ⟨_, eq⟩
  | init s v length white =>
    obtain ⟨-, eq⟩ | ⟨-, -, eq⟩ | ⟨-, -, -, -, eq⟩ | ⟨-, -, -, _, -, ⟨_, _, -, -, -, eq⟩ | ⟨_, -, -, eq⟩⟩ :=
      execInit_cases s v length white st <;> exact ⟨_, eq⟩
  | setPixel s index color =>
    obtain ⟨-, eq⟩ | ⟨-, -, eq⟩ | ⟨-, -, -, eq⟩ | ⟨-, -, -, eq⟩ := execSetPixel_cases s index color st <;>
      exact ⟨_, eq⟩
  | setPixels s start cs => exact writeRange_next st ..
  | fill s start len color => exact writeRange_next st ..
  | flush s =>
    obtain ⟨-, eq⟩ | ⟨-, -, _, -, eq⟩ | ⟨-, -, -, _, -, eq⟩ | ⟨-, -, -, eq⟩ | ⟨-, -, -, -, eq⟩ | ⟨-, -, -, -, eq⟩ :=
      execFlush_cases s st <;> exact ⟨_, eq⟩
  | busy s => exact ⟨_, rfl⟩
  | wait s timeout =>
    obtain ⟨-, eq⟩ | ⟨-, -, _, -, eq⟩ | ⟨-, -, -, _, -, eq⟩ | ⟨-, -, -, eq⟩ | ⟨-, -, -, eq⟩ :=
      execWait_cases s timeout st <;> exact ⟨_, eq⟩
  | free s => obtain ⟨-, eq⟩ | ⟨-, -, eq⟩ | ⟨-, -, eq⟩ := execFree_cases s st <;> exact ⟨_, eq⟩
  | encReset s => obtain ⟨-, eq⟩ | ⟨-, -, eq⟩ | ⟨-, -, eq⟩ := execEncReset_cases s st <;> exact ⟨_, eq⟩
  | encode s space => exact invokeEncode_next (ok _) _

/-- Every agent's step answers a next state. -/
theorem runMove_next (inv : st.Inv) (m : Move) : ∃ t, st.runMove m = .next t := by
  cases m with
  | host =>
    simp only [State.runMove, State.hostStep]
    split
    · exact exec_next inv.present _
    · exact ⟨_, rfl⟩
  | port =>
    simp only [State.runMove, State.portStep]
    split
    · rename_i rest _
      exact exec_next (st := { st with chanPort := rest }) inv.present _
    · exact ⟨_, rfl⟩
  | encode k => exact invokeEncode_next (inv.present k) _
  | expire | drain | done | fail => exact ⟨_, rfl⟩

/-! ## A finished run is one in which no step is enabled (R180) -/

/-- The channel step that brings the session of strip `k` on: the oldest symbol is drained, else the session ends or
the slot is filled. -/
def Strip.nextStep (x : Strip) (k : Nat) : Move :=
  if x.slot ≠ [] then .drain k else if x.encDone then .done k else .encode k

theorem nextStep_isFair (x : Strip) (k : Nat) : (x.nextStep k).isFair = true := by
  unfold Strip.nextStep
  split
  · rfl
  · split <;> rfl

theorem nextStep_mem_moves (present : (st.strip k).present = true) (busy : (st.strip k).busy = true) :
    (st.strip k).nextStep k ∈ st.moves := by
  unfold Strip.nextStep
  split
  next filled => exact drain_mem_moves_iff.2 ⟨present, busy, filled⟩
  next empty =>
    split
    next done => exact done_mem_moves_iff.2 ⟨present, busy, done, not_not.1 empty⟩
    next notDone => exact encode_mem_moves_iff.2 ⟨present, busy, by simpa using notDone⟩

theorem stripMoves_of_not_inFlight (idle : inFlight (st.strip k) = false) : st.stripMoves k = [] := by
  simp [State.stripMoves, canDrain, canEncode, canFinish, canFail, idle]

theorem hostMoves_eq_nil_iff : st.hostMoves = [] ↔ st.hostBytes = [] ∧ st.isHeld = false := by
  unfold State.hostMoves
  cases st.isHeld <;> simp

theorem moves_eq_nil_iff :
    st.moves = [] ↔
      st.hostBytes = [] ∧ st.isHeld = false ∧ st.chanPort = [] ∧ ∀ k, inFlight (st.strip k) = false := by
  constructor
  · intro disabled
    have idle : ∀ k, inFlight (st.strip k) = false := fun k => by
      by_contra flight
      obtain ⟨present, busy⟩ : (st.strip k).present = true ∧ (st.strip k).busy = true := by
        simpa [inFlight] using flight
      have mem := nextStep_mem_moves present busy
      rw [disabled] at mem
      cases mem
    simp only [State.moves, List.append_eq_nil_iff, hostMoves_eq_nil_iff] at disabled
    obtain ⟨⟨⟨bytes, held⟩, port⟩, -⟩ := disabled
    exact ⟨bytes, held, by simpa using port, idle⟩
  · rintro ⟨bytes, held, port, idle⟩
    have strips : st.strips.flatMap (fun e => st.stripMoves e.1) = [] :=
      List.flatMap_eq_nil_iff.2 fun e _ => stripMoves_of_not_inFlight (idle e.1)
    simp [State.moves, hostMoves_eq_nil_iff.2 ⟨bytes, held⟩, port, strips]

theorem isFinished_iff (running : st.isStopped = false) : st.isFinished ↔ st.moves = [] := by
  rw [moves_eq_nil_iff]
  exact and_iff_right running

theorem nextMove_eq_none (disabled : st.moves = []) : st.nextMove = none := by
  unfold State.nextMove
  rw [disabled]
  split <;> rfl

theorem nextMove_isSome (enabled : st.moves ≠ []) : ∃ m u, st.nextMove = some (m, u) := by
  unfold State.nextMove
  split
  · exact chooseMove_isSome st enabled
  · split
    · exact ⟨_, _, rfl⟩
    · exact chooseMove_isSome _ enabled

theorem step_finished (running : st.isStopped = false) (disabled : st.moves = []) :
    step st = .fault .finished := by
  obtain ⟨noFault, noRefusal⟩ : st.fault = none ∧ st.refused = none := by simpa [State.isStopped] using running
  simp [step, State.stepOnce, noFault, noRefusal, nextMove_eq_none disabled]

/-- Where a step is enabled, some step is taken. -/
theorem exists_step (inv : st.Inv) (running : st.isStopped = false) (enabled : st.moves ≠ []) :
    ∃ t, step st = .next t := by
  obtain ⟨m, u, next⟩ := nextMove_isSome enabled
  rw [step_eq_runMove running next]
  exact runMove_next ((nextMove_spec next).2.inv inv) m

/-! ## What a step makes of a session in flight (R148) -/

/-- A measure of what the channel agent has still to do: two steps for each symbol to come, one for each in the
slot. -/
def Strip.toSend (x : Strip) : Nat := 2 * x.pending.length + x.slot.length

/-- The session has ended or is nearer to its end. -/
def Strip.Advances (x y : Strip) : Prop := y.busy = false ∨ y.toSend < x.toSend

/-- The session is where it was. -/
structure Strip.Stays (x y : Strip) : Prop where
  busy : y.busy = x.busy
  toSend : y.toSend = x.toSend
  slot : y.slot = x.slot
  encDone : y.encDone = x.encDone

theorem Strip.Stays.refl (x : Strip) : x.Stays x := ⟨rfl, rfl, rfl, rfl⟩

theorem Strip.Stays.trans (h : x.Stays y) (g : y.Stays z) : x.Stays z :=
  ⟨g.busy.trans h.busy, g.toSend.trans h.toSend, g.slot.trans h.slot, g.encDone.trans h.encDone⟩

theorem Strip.Stays.advances (h : x.Stays y) (g : y.Advances z) : x.Advances z := by
  unfold Strip.Advances
  rwa [← h.toSend]

theorem Strip.Stays.nextStep (h : x.Stays y) (k : Nat) : y.nextStep k = x.nextStep k := by
  simp only [Strip.nextStep, h.slot, h.encDone]

/-- An invocation that is offered a place brings the session on. -/
theorem Strip.PresentOk.invoked_advances (ok : x.PresentOk c sym) (notDone : x.encDone = false) (place : free ≠ 0) :
    x.Advances (x.invoked free) := by
  have toCome := pending_length_pos notDone ok.addresses ok.within
  have slot : (x.invoked free).slot = x.slot ++ x.pending.take free := rfl
  right
  rw [Strip.toSend, Strip.toSend, ok.pending_invoked notDone, slot, List.length_append, List.length_take,
    List.length_drop]
  omega

/-- An invocation without a place leaves the session where it was. -/
theorem Strip.PresentOk.invoked_stays (ok : x.PresentOk c sym) (notDone : x.encDone = false) :
    x.Stays (x.invoked 0) := by
  have toCome := pending_length_pos notDone ok.addresses ok.within
  have slot : (x.invoked 0).slot = x.slot := List.append_nil _
  have encDone : (x.invoked 0).encDone = false := decide_eq_false (by omega)
  exact ⟨rfl, by rw [Strip.toSend, ok.pending_invoked notDone, slot]; rfl, slot, encDone.trans notDone.symm⟩

theorem drainStrip_advances (filled : x.slot ≠ []) : x.Advances (drainStrip x) := by
  obtain ⟨p, rest, slot⟩ := List.exists_cons_of_ne_nil filled
  right
  simp [Strip.toSend, Strip.pending, Strip.stream, drainStrip, slot]

/-- Everything a step can make of a session in flight brings it on or leaves it where it was. -/
theorem Strip.PresentOk.advances_or_stays (ok : x.PresentOk c sym) (busy : x.busy = true)
    (change : StripChange c sym x y) : x.Advances y ∨ x.Stays y := by
  cases change with
  | creates | finishes | fails => exact .inl (.inl rfl)
  | writes _ _ idle | clears _ idle | starts _ idle | releases _ _ idle | resets _ idle => simp [busy] at idle
  | drains enabled => exact .inl (drainStrip_advances (by simpa [canDrain] using (Bool.and_eq_true_iff.1 enabled).2))
  | encodes free _ _ _ answer =>
    obtain ⟨notDone, eq⟩ := ok.noteStatus_eq_invoked answer
    rw [eq]
    by_cases place : free = 0
    · subst place
      exact .inr (ok.invoked_stays notDone)
    · exact .inl (ok.invoked_advances notDone place)

/-! ## Every session ends (R176) -/

/-- A strip in flight is present (R38). -/
theorem State.Inv.present_of_busy (inv : st.Inv) (busy : (st.strip k).busy = true) : (st.strip k).present = true := by
  by_contra absent
  have idle := (inv.absent k (by simpa using absent)).busy
  simp [busy] at idle

theorem State.Inv.after (inv : st.Inv) (n : Nat) : (st.after n).Inv := by
  induction n with
  | zero => exact inv
  | succ n ih =>
    simp only [State.after]
    split
    · exact everyStepKeepsTheInvariant _ _ ih ‹_›
    · exact ih
    · exact ih

/-- A step brings a session in flight on or leaves it where it was. -/
theorem step_advances_or_stays (inv : st.Inv) (busy : (st.strip k).busy = true) (run : step st = .next t) :
    (st.strip k).Advances (t.strip k) ∨ (st.strip k).Stays (t.strip k) :=
  (step_stripsChange run).strip_rel
    (p := fun x y => x.PresentOk st.cfg st.symbols → x.busy = true → x.Advances y ∨ x.Stays y)
    (fun x _ _ => .inr (.refl x)) (fun _ _ change ok busy => ok.advances_or_stays busy change) k
    (inv.present k (inv.present_of_busy busy)) busy

theorem slotCap_pos (wf : c.wf = true) : 0 < c.slotCap := by
  simp only [Config.wf, Bool.and_eq_true, decide_eq_true_eq] at wf
  tauto

/-- The step that is next in a session brings it on. -/
theorem runMove_nextStep_advances (inv : st.Inv) (busy : (st.strip k).busy = true)
    (run : st.runMove ((st.strip k).nextStep k) = .next t) : (st.strip k).Advances (t.strip k) := by
  have present := inv.present_of_busy busy
  have ok := inv.present k present
  have enabled := nextStep_mem_moves present busy
  unfold Strip.nextStep at run enabled
  split at run
  next filled =>
    cases run
    rw [strip_setStrip_same]
    exact drainStrip_advances filled
  next empty =>
    rw [if_neg empty] at enabled
    split at run
    next =>
      cases run
      rw [strip_setStrip_same]
      exact .inl rfl
    next notDone =>
      rw [if_neg notDone] at enabled
      obtain ⟨_, encodes, -, -, strip, -⟩ := channelEncodeFillsTheSlot.2 st k inv enabled
      cases encodes.symm.trans run
      rw [strip]
      refine ok.invoked_advances (by simpa using notDone) ?_
      rw [not_not.1 empty]
      exact (slotCap_pos inv.config).ne'

/-- A step of the run that takes the step that is next in a session brings it on. -/
theorem step_nextStep_advances (inv : st.Inv) (busy : (st.strip k).busy = true)
    (next : st.nextMove = some ((st.strip k).nextStep k, u)) (run : step st = .next t) :
    (st.strip k).Advances (t.strip k) := by
  have chosen := (nextMove_spec next).2
  have same : u.strip k = st.strip k := by
    rw [chosen]
    rfl
  rw [step_eq_runMove (step_cases run).1 next] at run
  rw [← same] at busy run ⊢
  exact runMove_nextStep_advances (chosen.inv inv) busy run

/-- The run has stopped, or the session has ended or is nearer to its end. -/
def State.SessionMoves (st : State) (k : Nat) (t : State) : Prop :=
  t.isStopped = true ∨ (st.strip k).Advances (t.strip k)

/-- At every point of a run the session has been brought on before, or is still where it was. -/
theorem sessionMoves_or_stays (inv : st.Inv) (busy : (st.strip k).busy = true) (n : Nat) :
    (∃ j, st.SessionMoves k (st.after j)) ∨ (st.strip k).Stays ((st.after n).strip k) := by
  induction n with
  | zero => exact .inr (.refl _)
  | succ n ih =>
    refine ih.elim .inl fun stays => ?_
    cases run : step (st.after n) with
    | next t =>
      have after := after_succ_of_next run
      obtain advances | stays' := step_advances_or_stays (inv.after n) (stays.busy.trans busy) run
      · exact .inl ⟨n + 1, .inr (by rw [after]; exact stays.advances advances)⟩
      · exact .inr (by rw [after]; exact stays.trans stays')
    | fault | refused => exact .inr (by simpa [State.after, run] using stays)

/-- The step that is next in a session stays enabled until the session is brought on, so by fairness it is taken. -/
theorem exists_sessionMoves (inv : st.Inv) (busy : (st.strip k).busy = true) :
    ∃ j, st.SessionMoves k (st.after j) := by
  obtain ⟨n, fair⟩ := weaklyFair_of_isFair st (nextStep_isFair (st.strip k) k)
  refine (sessionMoves_or_stays inv busy n).elim id fun stays => ?_
  cases running : (st.after n).isStopped with
  | true => exact ⟨n, .inl running⟩
  | false =>
    have invN := inv.after n
    have busyN := stays.busy.trans busy
    have enabled := nextStep_mem_moves (invN.present_of_busy busyN) busyN
    obtain ⟨t, run⟩ := exists_step invN running (List.ne_nil_of_mem enabled)
    rw [stays.nextStep] at enabled
    obtain ⟨u, next⟩ | disabled | ended := fair
    · rw [← stays.nextStep] at next
      have advances := step_nextStep_advances invN busyN next run
      exact ⟨n + 1, .inr (by rw [after_succ_of_next run]; exact stays.advances advances)⟩
    · exact absurd enabled disabled
    · exact absurd run (ended t)

/-- By induction on what the channel agent has still to do. -/
theorem exists_sessionEnd (inv : st.Inv) (busy : (st.strip k).busy = true) :
    ∃ n, ((st.after n).strip k).busy = false ∨ (st.after n).isStopped = true := by
  induction left : (st.strip k).toSend using Nat.strong_induction_on generalizing st with
  | h l ih =>
    obtain ⟨j, stopped | ended | nearer⟩ := exists_sessionMoves inv busy
    · exact ⟨j, .inr stopped⟩
    · exact ⟨j, .inl ended⟩
    · cases busyJ : ((st.after j).strip k).busy with
      | false => exact ⟨j, .inl busyJ⟩
      | true =>
        obtain ⟨n, ends⟩ := ih _ (left ▸ nearer) (inv.after j) busyJ rfl
        exact ⟨j + n, by rwa [after_add]⟩

/-- Settles O10: a step is enabled unless the run is finished, and fairness brings every session to its end. -/
theorem noReachableStateIsStuck : Obligations.NoReachableStateIsStuck := by
  refine ⟨fun st inv running => ?_, fun st k inv busy => exists_sessionEnd inv busy⟩
  rw [isFinished_iff running]
  exact ⟨step_finished running, exists_step inv running⟩

end Sys2Proof.Machine
end

section
/-! PROOF. How a host command ends that draws and writes at most one strip (spec/10_state.md R22), and that only WAIT
and FLUSH hold (spec/43_strip_lifecycle.md R169). -/

namespace Sys2Proof.Machine

variable {st t u : State}

/-- A command that ends after draws, and writes nothing. -/
theorem finish_onlyDraws (draws : OnlyDraws st u) (r : Response) :
    ∃ t, u.finish r = .next t ∧ HostEnds st t r ∧ NoDraw u t ∧ t.sym = st.sym ∧ t.strips = st.strips := by
  obtain ⟨ends, sym, strips⟩ := ends_finish (st := st) (u := u) (r := r) (by rw [draws.eq]) rfl
  exact ⟨_, rfl, ends.hostEnds, ⟨rfl, rfl⟩, sym.trans draws.sym, strips.trans draws.strips⟩

/-- A command that ends after draws and the write of one strip. -/
theorem finish_setStrip (draws : OnlyDraws st u) (k : Nat) (x : Strip) (r : Response) :
    ∃ t, (u.setStrip k x).finish r = .next t ∧ HostEnds st t r ∧ NoDraw u t ∧ t.sym = st.sym ∧
      SameOtherStrips st t k ∧ t.strip k = x := by
  obtain ⟨ends, sym, -⟩ := ends_finish (st := st) (u := u.setStrip k x) (r := r) (by rw [draws.eq]; rfl) rfl
  refine ⟨_, rfl, ends.hostEnds, ⟨rfl, rfl⟩, sym.trans draws.sym, fun j other => ?_, strip_setStrip_same u k x⟩
  exact (strip_setStrip_other u x other).trans (draws.strip j)

/-- A command that has left the host holding is a WAIT or a FLUSH; every other command keeps the hold or ends it. -/
theorem isWaitOrFlush_of_holds {i : Instr} (run : exec i st = .next t) (free : st.holding = none)
    (holds : t.holding ≠ none) : (∃ s timeout, i = .wait s timeout) ∨ ∃ s, i = .flush s := by
  cases exec_cases run with
  | holds s instr => exact instr.imp (⟨s, ·⟩) (⟨s, ·⟩)
  | faults _ eq | refuses _ _ _ eq | encodes _ _ _ _ _ _ _ eq =>
    rw [eq] at holds
    exact absurd free holds
  | fails _ _ ends | compiles _ _ _ _ _ ends | creates _ _ _ _ _ _ _ _ _ _ _ ends | writes _ _ _ _ _ _ _ _ ends
  | answers _ _ _ ends | clears _ _ _ _ _ ends | starts _ _ _ _ _ ends | releases _ _ _ _ _ _ _ ends
  | resets _ _ _ _ ends =>
    rw [ends.eq] at holds
    exact absurd rfl holds

theorem expire_mem_moves (held : st.isHeld = true) : .expire ∈ st.moves := by
  simp [State.moves, State.hostMoves, held]

/-- Settles O16: while the host holds the bound may elapse, which ends the command in `Timeout`. -/
theorem onlyWaitAndFlushHold : Obligations.OnlyWaitAndFlushHold := by
  refine ⟨fun _ _ _ => isWaitOrFlush_of_holds, fun st running held => ⟨expire_mem_moves held, ?_⟩⟩
  have next : State.nextMove { st with agenda := .expire :: st.agenda } = some (.expire, st) :=
    nextMove_of_agenda_of_not_fair rfl (expire_mem_moves (st := { st with agenda := _ }) held) rfl
  rw [step_eq_runMove (st := { st with agenda := .expire :: st.agenda }) running next]
  exact fail_onlyFails (.refl st) .timeout

end Sys2Proof.Machine
end

section
/-! PROOF. What INIT draws and answers (spec/43_strip_lifecycle.md R161, R162). -/

namespace Sys2Proof.Machine

variable {st t : State} {s v : Byte} {length : Word32} {white : Bool} {p : TimingProfile} {syms : SymbolSet}
  {answers rest : List Nat}

/-! ## The calls of the oracles (R161) -/

/-- Calls of oracles that may refuse, each by the error it returns when it is refused: the first that is refused. -/
def State.askEach (st : State) : List ErrorKind → Option ErrorKind × State
  | [] => (none, st)
  | e :: es => if !st.drawBit.1 then (some e, st.drawBit.2) else st.drawBit.2.askEach es

/-- INIT draws for the calls of the oracles that may refuse, in their order. -/
theorem acquire_eq_askEach (st : State) : st.acquire = st.askEach (initCalls st.cfg) := by
  cases alloc : st.cfg.alloc <;> cases chan : st.cfg.chan <;>
    simp [State.acquire, initCalls, State.askEach, State.ask, alloc, chan]

/-- An odd answer accepts its call (log 4). -/
theorem askEach_cons_odd {n : Nat} (odd : n % 2 = 1) (script : st.script = n :: rest) (e : ErrorKind)
    (es : List ErrorKind) : st.askEach (e :: es) = State.askEach { st with script := rest } es := by
  simp [State.askEach, drawBit_script script, odd]

theorem askEach_of_accepted {calls : List ErrorKind} (count : answers.length = calls.length)
    (odd : ∀ a ∈ answers, a % 2 = 1) (script : st.script = answers ++ rest) :
    st.askEach calls = (none, { st with script := rest }) := by
  induction answers generalizing st calls with
  | nil =>
    obtain rfl := List.eq_nil_of_length_eq_zero count.symm
    rw [show rest = st.script from script.symm]
    rfl
  | cons a answers ih =>
    obtain ⟨first, others⟩ := List.forall_mem_cons.1 odd
    cases calls with
    | nil => cases count
    | cons e es =>
      rw [askEach_cons_odd first script]
      exact ih (Nat.succ.inj count) others rfl

/-- An even answer refuses its call (log 4). -/
theorem askEach_of_refused {calls : List ErrorKind} {n : Nat} {e : ErrorKind} (call : calls[answers.length]? = some e)
    (odd : ∀ a ∈ answers, a % 2 = 1) (even : n % 2 = 0) (script : st.script = answers ++ n :: rest) :
    st.askEach calls = (some e, { st with script := rest }) := by
  induction answers generalizing st calls with
  | nil =>
    cases calls with
    | nil => cases call
    | cons e' es =>
      cases call
      simp [State.askEach, drawBit_script script, even]
  | cons a answers ih =>
    obtain ⟨first, others⟩ := List.forall_mem_cons.1 odd
    cases calls with
    | nil => cases call
    | cons e' es =>
      rw [askEach_cons_odd first script]
      exact ih call others rfl

/-! ## The drawn bytes (R29) -/

theorem drawBytes_script {bytes : List Byte} (script : st.script = bytes.map BitVec.toNat ++ rest) :
    st.drawBytes bytes.length = (bytes, { st with script := rest }) := by
  induction bytes generalizing st with
  | nil =>
    rw [show rest = st.script from script.symm]
    rfl
  | cons b bytes ih =>
    have others := ih (st := { st with script := bytes.map BitVec.toNat ++ rest }) rfl
    simp only [List.length_cons, State.drawBytes, draw_script script]
    simp [others]

/-- `N` is `length` times 3 or 4 (R28). -/
theorem size_ofLength (v : Byte) (pixels : Nat) (white : Bool) (syms : SymbolSet) :
    StripConf.size ⟨v, pixels, white, syms⟩ = pixels * (if white then 4 else 3) := by
  cases white <;> rfl

/-! ## What INIT answers (R161, R162, R197) -/

section

variable {u w : State} (absent : (st.strip s.toNat).present = false) (nonzero : length.toNat ≠ 0)
  (known : tableGet st.cfg.variants v.toNat = some p) (compiled : st.symbols v.toNat = some syms)

include absent nonzero known compiled

/-- With good arguments a refused acquisition is INIT's error, and it writes nothing. -/
theorem exec_init_of_refused {e : ErrorKind} (acquired : st.acquire = (some e, u)) :
    ∃ t, exec (.init s v length white) st = .next t ∧ OnlyFails st t e ∧ NoDraw u t := by
  have draws : OnlyDraws st u := by
    rw [show u = st.acquire.2 by rw [acquired]]
    exact acquire_onlyDraws st
  have run : exec (.init s v length white) st = u.fail e := by
    simp [exec, execInit, Config.profile, absent, nonzero, known, compiled, acquired]
  rw [run]
  exact fail_onlyFails draws e

/-- With good arguments and every acquisition made, INIT creates the strip with the bytes drawn next, and writes
nothing else. -/
theorem exec_init_of_acquired {bytes : List Byte} (acquired : st.acquire = (none, u))
    (drawn : u.drawBytes (StripConf.size ⟨v, length.toNat, white, syms⟩) = (bytes, w)) :
    ∃ t, exec (.init s v length white) st = .next t ∧ HostEnds st t .ok ∧ NoDraw w t ∧ t.sym = st.sym ∧
      SameOtherStrips st t s.toNat ∧
      t.strip s.toNat = initStrip (st.strip s.toNat) ⟨v, length.toNat, white, syms⟩ bytes := by
  have draws : OnlyDraws st w := by
    have first := acquire_onlyDraws st
    have others := drawBytes_onlyDraws (StripConf.size ⟨v, length.toNat, white, syms⟩) u
    rw [acquired] at first
    rw [drawn] at others
    exact first.trans others
  have run : exec (.init s v length white) st =
      State.finish (w.setStrip s.toNat (initStrip (st.strip s.toNat) ⟨v, length.toNat, white, syms⟩ bytes)) .ok := by
    simp [exec, execInit, Config.profile, absent, nonzero, known, compiled, acquired, drawn]
  rw [run]
  exact finish_setStrip draws s.toNat _ .ok

end

/-- Settles O43: with every call accepted the bytes are drawn from the rest of the script. -/
theorem initCreatesTheStrip : Obligations.InitCreatesTheStrip := by
  intro s v length white p syms st absent nonzero known compiled answers rest count odd script
  have acquired := (acquire_eq_askEach st).trans (askEach_of_accepted count odd script)
  obtain ⟨t, run, ends, -, sym, others, own⟩ := exec_init_of_acquired absent nonzero known compiled acquired rfl
  exact ⟨t, _, run, ends, sym, others, (drawBytes_length _ _).trans (size_ofLength v _ white syms), own⟩

/-- Settles O44: the script's numbers answer the calls in their order, and after them they are the bytes. -/
theorem initDrawsAreFree : Obligations.InitDrawsAreFree := by
  intro s v length white p syms st absent nonzero known compiled answers odd
  refine ⟨fun bytes rest count size script => ?bytes, fun n rest e call even script => ?refused⟩
  case bytes =>
    rw [List.append_assoc] at script
    have acquired := (acquire_eq_askEach st).trans (askEach_of_accepted count odd script)
    have drawn := drawBytes_script (st := { st with script := bytes.map BitVec.toNat ++ rest }) rfl
    rw [size, ← size_ofLength v length.toNat white syms] at drawn
    obtain ⟨t, run, ends, ⟨restLeft, sameDraws⟩, -, -, own⟩ :=
      exec_init_of_acquired absent nonzero known compiled acquired drawn
    refine ⟨t, run, ends, ?_, ?_, restLeft, sameDraws⟩ <;> rw [own] <;> rfl
  case refused =>
    have acquired := (acquire_eq_askEach st).trans (askEach_of_refused call odd even script)
    obtain ⟨t, run, fails, restLeft, sameDraws⟩ := exec_init_of_refused absent nonzero known compiled acquired
    exact ⟨t, run, fails, restLeft, sameDraws⟩

/-- Settles O45: the checks come before the acquisitions and draw nothing. -/
theorem initChecksInOrder : Obligations.InitChecksInOrder := by
  intro s v length white st
  refine ⟨fun present => ?reinit, fun absent bad => ?arguments, fun absent nonzero p known notCompiled => ?notCompiled⟩
  case reinit =>
    simp only [exec, execInit, present, if_true]
    rfl
  case arguments =>
    have run : exec (.init s v length white) st = st.fail .invalidArgument := by
      by_cases zero : length.toNat = 0
      · simp [exec, execInit, absent, zero]
      · simp [exec, execInit, absent, zero, Config.profile, bad.resolve_left zero]
    rw [run]
    exact fail_onlyFails (.refl st) _
  case notCompiled =>
    have run : exec (.init s v length white) st = st.raise .notCompiled v.toNat := by
      simp [exec, execInit, absent, nonzero, Config.profile, known, notCompiled]
    exact run

/-- An INIT that returns an error has found its strip absent, and has written no strip. -/
theorem absent_of_init_fails {e : ErrorKind} (run : exec (.init s v length white) st = .next t)
    (response : t.hostResp = st.hostResp ++ [.err e]) :
    (st.strip s.toNat).present = false ∧ t.strips = st.strips := by
  simp only [exec] at run
  obtain ⟨-, eq⟩ | ⟨absent, -, eq⟩ | ⟨-, -, -, -, eq⟩ | ⟨absent, -, -, _, -, ⟨_, u, -, draws, -, eq⟩ |
    ⟨u, draws, -, eq⟩⟩ := execInit_cases s v length white st <;> rw [eq] at run
  · cases run
    simp at response
  · exact ⟨absent, (ends_fail (.refl st) run).2.2⟩
  · cases run
    simp at response
  · exact ⟨absent, (ends_fail draws run).2.2⟩
  · cases run
    simp [(draws.trans (drawBytes_onlyDraws _ u)).hostResp] at response

/-- Settles O46: the strip is absent as before, and an absent strip holds nothing (R38). -/
theorem failedInitHoldsNothing : Obligations.FailedInitHoldsNothing := by
  intro s v length white e st t inv run response
  obtain ⟨absent, strips⟩ := absent_of_init_fails run response
  obtain ⟨buf, busy, -, slot, -⟩ := inv.absent _ absent
  rw [strip_congr strips]
  exact ⟨strips, absent, buf, slot, busy⟩

end Sys2Proof.Machine
end

section
/-! PROOF. What BUSY, WAIT, FLUSH and FREE answer (spec/43_strip_lifecycle.md R163 to R168). -/

namespace Sys2Proof.Machine

variable {st u : State} {s : Byte} {k bound : Nat} {timeout : Word32}

/-! ## What a wait comes to (R164) -/

theorem waitDone_zero_of_busy (busy : (st.strip k).busy = true) : st.waitDone k 0 = (.timeout, st) := by
  simp [State.waitDone, busy]

section

variable {n : Nat} {ns : List Nat} (busy : (st.strip k).busy = true) (positive : bound ≠ 0)
  (script : st.script = n :: ns)

include busy positive script

/-- With a positive bound an odd draw ends the wait for a busy strip (log 4). -/
theorem waitDone_of_odd (odd : n % 2 = 1) : st.waitDone k bound = (.timeout, { st with script := ns }) := by
  simp [State.waitDone, busy, positive, drawBit_script script, odd]

/-- With a positive bound an even draw makes the host hold for a busy strip (log 4). -/
theorem waitDone_of_even (even : n % 2 = 0) :
    st.waitDone k bound = (.hold, { st with script := ns, holding := some k }) := by
  simp [State.waitDone, busy, positive, drawBit_script script, even]

end

theorem waitDone_of_error (idle : (st.strip k).busy = false) (error : (st.strip k).chErr = true) :
    st.waitDone k bound = (.channelFailure, st.setStrip k { st.strip k with chErr := false }) := by
  simp [State.waitDone, idle, error]

theorem waitDone_of_idle (idle : (st.strip k).busy = false) (noError : (st.strip k).chErr = false) :
    st.waitDone k bound = (.ok, st) := by
  simp [State.waitDone, idle, noError]

/-! ## BUSY and WAIT (R163, R165, R166) -/

/-- Settles O47: BUSY ends with its answer. -/
theorem busyAnswersInFlight : Obligations.BusyAnswersInFlight := by
  intro s st
  obtain ⟨t, run, ends, draws, sym, strips⟩ :=
    finish_onlyDraws (.refl st) (.busy ((st.strip s.toNat).present && (st.strip s.toNat).busy))
  exact ⟨t, _, run, ends, draws, sym, strips, Bool.and_eq_true_iff⟩

/-- A command on a present strip that reports a pending channel fault clears it and writes nothing else. -/
theorem fail_clearing_chErr (st : State) (k : Nat) :
    ∃ t, (st.setStrip k { st.strip k with chErr := false }).fail .channelFailure = .next t ∧
      HostEnds st t (.err .channelFailure) ∧ NoDraw st t ∧ t.sym = st.sym ∧ SameOtherStrips st t k ∧
      t.strip k = { st.strip k with chErr := false } :=
  finish_setStrip (.refl st) k _ _

/-- Settles O48: the wait is over at once. -/
theorem waitOnAnIdleStripEndsAtOnce : Obligations.WaitOnAnIdleStripEndsAtOnce := by
  refine fun s timeout st present idle => ⟨fun noError => ?_, fun error => ?_⟩
  · have run : exec (.wait s timeout) st = st.finish .ok := by
      simp [exec, execWait, present, waitDone_of_idle idle noError]
    rw [run]
    exact finish_onlyDraws (.refl st) .ok
  · have run : exec (.wait s timeout) st =
        (st.setStrip s.toNat { st.strip s.toNat with chErr := false }).fail .channelFailure := by
      simp [exec, execWait, present, waitDone_of_error idle error]
    rw [run]
    exact fail_clearing_chErr st s.toNat

/-- On a present strip WAIT without a bound ends at once: in `Timeout` exactly when the strip is busy. -/
theorem exec_wait_zero (present : (st.strip s.toNat).present = true) :
    ∃ t r, exec (.wait s 0) st = .next t ∧ HostEnds st t r ∧
      (r = .err .timeout ↔ (st.strip s.toNat).busy = true) := by
  cases busy : (st.strip s.toNat).busy with
  | true =>
    have run : exec (.wait s 0) st = st.finish (.err .timeout) := by
      simp [exec, execWait, present, waitDone_zero_of_busy busy, State.fail]
    rw [run]
    obtain ⟨t, next, ends, -⟩ := finish_onlyDraws (.refl st) (.err .timeout)
    exact ⟨t, _, next, ends, by simp⟩
  | false =>
    obtain ⟨whenOk, whenError⟩ := waitOnAnIdleStripEndsAtOnce s 0 st present busy
    cases error : (st.strip s.toNat).chErr with
    | false =>
      obtain ⟨t, next, ends, -⟩ := whenOk error
      exact ⟨t, _, next, ends, by simp⟩
    | true =>
      obtain ⟨t, next, ends, -⟩ := whenError error
      exact ⟨t, _, next, ends, by simp⟩

/-- Settles O49: both answers come to whether the strip is busy. -/
theorem pollingIsWaitingZero : Obligations.PollingIsWaitingZero := by
  intro s st present
  obtain ⟨t, r, waits, ⟨-, -, waitFree, waitResp, -⟩, timeout⟩ := exec_wait_zero present
  obtain ⟨u, answer, polls, ⟨-, -, pollFree, pollResp, -⟩, -, -, -, inFlight⟩ := busyAnswersInFlight s st
  refine ⟨t, u, waits, polls, waitFree, pollFree, ?_⟩
  rw [waitResp, pollResp]
  simp [timeout, inFlight, present]

/-- Settles O50: the draw is that of the wait. -/
theorem waitingOnABusyStripTimesOutOrHolds : Obligations.WaitingOnABusyStripTimesOutOrHolds := by
  intro s timeout st n ns present busy script i instr
  refine ⟨fun odd => ?times, fun even => ?holds⟩
  case times =>
    have run : exec i st = State.fail { st with script := ns } .timeout := by
      obtain ⟨rfl, positive⟩ | ⟨rfl, positive⟩ := instr
      · simp [exec, execWait, present, waitDone_of_odd busy positive script odd]
      · simp [exec, execFlush, present, waitDone_of_odd busy positive script odd]
    rw [run]
    exact fail_onlyFails ⟨rfl⟩ .timeout
  case holds =>
    obtain ⟨rfl, positive⟩ | ⟨rfl, positive⟩ := instr
    · simp [exec, execWait, present, waitDone_of_even busy positive script even]
    · simp [exec, execFlush, present, waitDone_of_even busy positive script even]

/-! ## FLUSH (R167) -/

/-- A FLUSH of an idle strip without a pending fault asks the channel, and starts a session when it accepts. -/
theorem exec_flush_of_idle (present : (st.strip s.toNat).present = true) (idle : (st.strip s.toNat).busy = false)
    (noError : (st.strip s.toNat).chErr = false) :
    exec (.flush s) st =
      if (st.ask st.cfg.chan).1 then
        State.finish ((st.ask st.cfg.chan).2.setStrip s.toNat (startSession (st.strip s.toNat))) .ok
      else (st.ask st.cfg.chan).2.fail .channelFailure := by
  simp only [exec, execFlush, present, waitDone_of_idle idle noError]
  cases (st.ask st.cfg.chan).1 <;> rfl

/-- An oracle that may refuse accepts by an odd draw (log 4). -/
theorem ask_external {n : Nat} {ns : List Nat} (script : st.script = n :: ns) :
    st.ask .external = (n % 2 == 1, { st with script := ns }) := drawBit_script script

/-- Settles O51: the session starts with the strip as it is but for `busy`, slot, `enc_done` and wire. -/
theorem flushStartsASession : Obligations.FlushStartsASession := by
  intro s st present idle noError accepts
  have accepted : (st.ask st.cfg.chan).1 = true := by
    cases chan : st.cfg.chan with
    | never => rfl
    | external =>
      obtain ⟨n, ns, script, odd⟩ := accepts.resolve_left (by simp [chan])
      simp [ask_external script, odd]
  rw [exec_flush_of_idle present idle noError, if_pos accepted]
  obtain ⟨t, run, ends, -, sym, others, own⟩ :=
    finish_setStrip (ask_onlyDraws st st.cfg.chan) s.toNat (startSession (st.strip s.toNat)) .ok
  exact ⟨t, run, ends, sym, others, own⟩

/-- Settles O52: a pending fault ends the wait, and a refusal comes before any write. -/
theorem failedFlushStartsNoSession : Obligations.FailedFlushStartsNoSession := by
  refine fun s st present idle => ⟨fun error => ?pending, fun noError chan n ns script even => ?refused⟩
  case pending =>
    have run : exec (.flush s) st =
        (st.setStrip s.toNat { st.strip s.toNat with chErr := false }).fail .channelFailure := by
      simp [exec, execFlush, present, waitDone_of_error idle error]
    rw [run]
    exact fail_clearing_chErr st s.toNat
  case refused =>
    have refused : (st.ask st.cfg.chan).1 = false := by simp [chan, ask_external script, even]
    rw [exec_flush_of_idle present idle noError, if_neg (by simp [refused])]
    obtain ⟨t, run, fails, -⟩ := fail_onlyFails (ask_onlyDraws st st.cfg.chan) .channelFailure
    exact ⟨t, run, fails⟩

/-! ## FREE (R168) -/

/-- Settles O53: the strip is written whatever the channel answers. -/
theorem freeReleasesTheStrip : Obligations.FreeReleasesTheStrip := by
  intro s st present idle
  have asked := ask_onlyDraws st st.cfg.chan
  obtain ⟨absent, -⟩ | ⟨-, busy, -⟩ | ⟨-, -, run⟩ := execFree_cases s st
  · simp [present] at absent
  · simp [idle] at busy
  · have draws : OnlyDraws st { (st.ask st.cfg.chan).2 with draws := (st.ask st.cfg.chan).2.draws + 1 } :=
      asked.trans ⟨rfl⟩
    obtain ⟨t, next, ends, -, sym, others, own⟩ := finish_setStrip draws s.toNat
      (freeStrip (st.strip s.toNat) (st.ask st.cfg.chan).2.draws)
      (if (st.ask st.cfg.chan).1 then .ok else .err .channelFailure)
    refine ⟨t, _, Config.freeStripConf (st.ask st.cfg.chan).2.draws, Config.freeEncoder (st.ask st.cfg.chan).2.draws,
      run.trans next, ends, sym, others, fun never => ?never, fun n ns external script => ?external, own.trans ?own⟩
    case never => simp [never]
    case external => simp [external, ask_external script]
    case own => simp [freeStrip, encDelete, idle]

end Sys2Proof.Machine
end

section
/-! PROOF. How a command raises a fault, is refused or returns an error (spec/60_exceptions.md R190 to R195), how the
machine stops, and that every enabled step may come next (R198). -/

namespace Sys2Proof.Machine

variable {st t u : State} {i : Instr} {m : Move} {e : DecodeError}

/-! ## Faults and refusals (R193, R195) -/

theorem Ends.fault {r : Response} (h : Ends st t r) : t.fault = st.fault := by rw [h.eq]

theorem Ends.refused {r : Response} (h : Ends st t r) : t.refused = st.refused := by rw [h.eq]

/-- A command that answers a next state raises its fault and does nothing else, or is an ENCODE that is refused and does
nothing else, or leaves both records as they are. -/
theorem exec_records (run : exec i st = .next t) :
    (∃ f, t = { st with fault := some f } ∧ f.pc = st.pc ∧ FaultFits i f) ∨
    (t = { st with refused := some { reason := .encodeOutsideSession, pc := st.pc } } ∧
      ∃ s space, i = .encode s space) ∨
    (t.fault = st.fault ∧ t.refused = st.refused) := by
  cases exec_cases run with
  | faults f eq pc fits => exact .inl ⟨f, eq, pc, fits⟩
  | refuses s space instr eq => exact .inr (.inl ⟨eq, s, space, instr⟩)
  | holds _ _ _ draws _ _ eq =>
    subst eq
    exact .inr (.inr ⟨draws.fault, draws.refused⟩)
  | encodes _ _ _ _ _ _ _ eq =>
    subst eq
    exact .inr (.inr ⟨rfl, rfl⟩)
  | fails _ _ ends | compiles _ _ _ _ _ ends | creates _ _ _ _ _ _ _ _ _ _ _ ends | writes _ _ _ _ _ _ _ _ ends
  | answers _ _ _ ends | clears _ _ _ _ _ ends | starts _ _ _ _ _ ends | releases _ _ _ _ _ _ _ ends
  | resets _ _ _ _ ends => exact .inr (.inr ⟨ends.fault, ends.refused⟩)

/-- Settles O17: a record that was not there before the command is the one it made, and no command makes both. -/
theorem faultsAndRefusalsArePrecise : Obligations.FaultsAndRefusalsArePrecise := by
  refine ⟨fun i st t f run before after => ?fault, fun i st t r run before after => ?refusal⟩
  case fault =>
    obtain ⟨g, eq, pc, fits⟩ | ⟨eq, -⟩ | ⟨same, -⟩ := exec_records run
    · subst eq
      cases after
      exact ⟨rfl, pc, fits⟩
    · subst eq
      simp [before] at after
    · simp [same, before] at after
  case refusal =>
    obtain ⟨_, eq, -⟩ | ⟨eq, instr⟩ | ⟨-, same⟩ := exec_records run
    · subst eq
      simp [before] at after
    · subst eq
      cases after
      exact ⟨rfl, rfl, instr⟩
    · simp [same, before] at after

/-! ## Error returns (R191, R192) -/

/-- A command that ended has returned one response. -/
theorem Ends.response_eq {r r' : Response} (h : Ends st t r) (response : t.hostResp = st.hostResp ++ [r']) :
    r = r' := by
  rw [h.eq] at response
  exact List.singleton_inj.1 (List.append_cancel_left response)

/-- Everything a command that returned an error can have done. -/
inductive ErrorCase (i : Instr) (st t : State) : ErrorKind → Prop
  /-- It wrote nothing. -/
  | fails (e : ErrorKind) (may : mayReturn i e = true) (only : OnlyFails st t e) : ErrorCase i st t e
  /-- WAIT or FLUSH reported a pending channel fault (R164). -/
  | clears (s : Byte) (instr : (∃ timeout, i = .wait s timeout) ∨ i = .flush s)
      (pending : (st.strip s.toNat).chErr = true) (ends : HostEnds st t (.err .channelFailure)) (sym : t.sym = st.sym)
      (strips : t.strips = tableSet st.strips s.toNat { st.strip s.toNat with chErr := false }) :
      ErrorCase i st t .channelFailure
  /-- FREE released its strip all the same (R168). -/
  | releases (s : Byte) (draw : Nat) (instr : i = .free s) (ends : HostEnds st t (.err .channelFailure))
      (sym : t.sym = st.sym) (strips : t.strips = tableSet st.strips s.toNat (freeStrip (st.strip s.toNat) draw)) :
      ErrorCase i st t .channelFailure

/-- What a command can have done when it returned an error. -/
theorem exec_error_cases {e : ErrorKind} (run : exec i st = .next t) (response : t.hostResp = st.hostResp ++ [.err e]) :
    ErrorCase i st t e := by
  cases exec_cases run with
  | faults _ eq | refuses _ _ _ eq | encodes _ _ _ _ _ _ _ eq =>
    subst eq
    simp at response
  | holds _ _ _ draws _ _ eq =>
    subst eq
    simp [draws.hostResp] at response
  | fails _ may ends sym strips =>
    cases ends.response_eq response
    exact .fails e may ⟨ends.hostEnds, sym, strips⟩
  | clears s instr _ _ pending ends sym strips =>
    cases ends.response_eq response
    exact .clears s instr pending ends.hostEnds sym strips
  | releases s _ draw instr returned _ _ ends sym strips =>
    obtain rfl | rfl := returned <;> cases ends.response_eq response
    exact .releases s draw instr ends.hostEnds sym strips
  | answers _ _ instr ends =>
    cases ends.response_eq response
    obtain ⟨-, _, wrong⟩ | ⟨-, wrong⟩ := instr <;> cases wrong
  | compiles _ _ _ _ _ ends | creates _ _ _ _ _ _ _ _ _ _ _ ends | writes _ _ _ _ _ _ _ _ ends
  | starts _ _ _ _ _ ends | resets _ _ _ _ ends => cases ends.response_eq response

/-- The write of one strip: the others are as before, and that one is what was written. -/
theorem strips_of_tableSet {k : Nat} {x : Strip} (strips : t.strips = tableSet st.strips k x) :
    SameOtherStrips st t k ∧ t.strip k = x :=
  ⟨fun j other => by rw [strip_of_tableSet strips, if_neg other], by rw [strip_of_tableSet strips, if_pos rfl]⟩

/-- Settles O18: the exceptions are the two commands that write their strip and yet return an error. -/
theorem errorReturnsArePrecise : Obligations.ErrorReturnsArePrecise := by
  intro i st t e _ run response
  cases exec_error_cases run response with
  | fails _ _ only => exact .inl only
  | clears s instr pending ends sym strips =>
    obtain ⟨others, own⟩ := strips_of_tableSet strips
    exact .inr ⟨rfl, ends, sym, s, others, .inl ⟨instr, pending, own⟩⟩
  | releases s draw instr ends sym strips =>
    obtain ⟨others, own⟩ := strips_of_tableSet strips
    refine .inr ⟨rfl, ends, sym, s, others, .inr ⟨instr, ?_⟩⟩
    rw [own]
    exact ⟨rfl, rfl, rfl, rfl, rfl, rfl, rfl, rfl⟩

/-- Settles O19: WAIT, FLUSH and FREE may all return `ChannelFailure`. -/
theorem errorKindsByCommand : Obligations.ErrorKindsByCommand := by
  intro i st t e _ run response
  cases exec_error_cases run response with
  | fails _ may _ => exact may
  | clears s instr => obtain ⟨_, rfl⟩ | rfl := instr <;> rfl
  | releases s _ instr =>
    subst instr
    rfl

/-! ## The stopped machine (R193, R195) -/

theorem step_of_fault {f : FaultRecord} (fault : st.fault = some f) : step st = .fault (.stopped f) := by
  simp [step, State.stepOnce, fault]

theorem step_of_refused {r : RefusalRecord} (noFault : st.fault = none) (refused : st.refused = some r) :
    step st = .refused (.stopped r) := by
  simp [step, State.stepOnce, noFault, refused]

/-- When the host is next and its input is refused, the step refuses it. -/
theorem step_host_refused (running : st.isStopped = false) (next : st.nextMove = some (.host, u))
    (fetched : decode .host st.cfg.maxStrips st.hostBytes = .error e) : step st = u.refuse (refusalOf e) := by
  have same : decode .host u.cfg.maxStrips u.hostBytes = .error e := by
    rw [(nextMove_spec next).2]
    exact fetched
  rw [step_eq_runMove running next]
  simp [State.runMove, State.hostStep, same]

/-- When the channel port is next and its input is refused, the step refuses it. -/
theorem step_port_refused (running : st.isStopped = false) (next : st.nextMove = some (.port, u))
    (fetched : decode .channel st.cfg.maxStrips st.chanPort = .error e) : step st = u.refuse (refusalOf e) := by
  have same : decode .channel u.cfg.maxStrips u.chanPort = .error e := by
    rw [(nextMove_spec next).2]
    exact fetched
  rw [step_eq_runMove running next]
  simp [State.runMove, State.portStep, same]

/-- The channel port refuses as ILLEGAL only, a host command as well (R80, log 12). -/
theorem decode_channel_refusesOnlyIllegal (maxStrips : Nat) (bytes : List Byte) :
    Decoded.RefusesOnlyIllegal (decode .channel maxStrips bytes) := by
  unfold decode
  split
  next e read => exact read ▸ decodeCommand_refusesOnlyIllegal
  next => split_ifs <;> simp

/-- Choosing the step that comes next leaves the pc. -/
theorem nextMove_pc (next : st.nextMove = some (m, u)) : u.pc = st.pc := by rw [(nextMove_spec next).2]

/-- Settles O13: a refused input is recorded in the state in which its agent was chosen. -/
theorem stoppedMachineTakesNoStep : Obligations.StoppedMachineTakesNoStep := by
  refine ⟨fun _ _ => step_of_fault, fun _ _ => step_of_refused, fun st u e running next fetched => ?host,
    fun st u e running next fetched => ?port⟩
  case host => rw [step_host_refused running next fetched, State.refuse, nextMove_pc next]
  case port =>
    cases decode_channel_refusesOnlyIllegal _ _ e fetched
    rw [step_port_refused running next fetched, State.refuse, nextMove_pc next]
    rfl

/-! ## Which step may come next (R176, R198) -/

/-- The enabled step at the head of the agenda is next. -/
theorem nextMove_of_agenda {rest : List Move} (agenda : st.agenda = m :: rest) (enabled : m ∈ st.moves) :
    st.nextMove = some (m, State.take { st with agenda := rest } m) := by
  simp [State.nextMove, agenda, enabled]

/-- The step that brings a session on is one of the three fair ones. -/
theorem nextStep_cases (x : Strip) (k : Nat) :
    x.nextStep k = .drain k ∨ x.nextStep k = .encode k ∨ x.nextStep k = .done k := by
  unfold Strip.nextStep
  split_ifs <;> simp

/-- Settles O14: an agenda names any enabled step, and beside CHAN_FAIL the step that brings the session on is
enabled. -/
theorem anyEnabledAgentMayStepNext : Obligations.AnyEnabledAgentMayStepNext := by
  refine ⟨fun st m running enabled => ?any, fun st u m next => (nextMove_spec next).1, fun st k => ?fair,
    fun st k failing => ?unforced⟩
  case any =>
    exact step_eq_runMove (st := { st with agenda := m :: st.agenda }) running (nextMove_of_agenda rfl enabled)
  case fair => exact ⟨weaklyFair_of_isFair st rfl, weaklyFair_of_isFair st rfl, weaklyFair_of_isFair st rfl⟩
  case unforced =>
    obtain ⟨present, busy, -⟩ := fail_mem_moves_iff.1 failing
    have enabled := nextStep_mem_moves present busy
    obtain eq | eq | eq := nextStep_cases (st.strip k) k <;> rw [eq] at enabled
    · exact .inl enabled
    · exact .inr (.inl enabled)
    · exact .inr (.inr enabled)

end Sys2Proof.Machine
end

section
/-! PROOF. The power-on state, and what a command answers on an absent and on a busy strip
(spec/70_reset_and_hazards.md R220, R222, R224 to R226). -/

namespace Sys2Proof.Machine

variable {st : State} {s : Byte} {k start len : Nat} {cs : List Color} {c : Color} {i : Instr}

/-! ## Power-on (R220) -/

theorem strip_reset (k : Nat) : State.reset.strip k = Strip.powerOn := rfl

/-- Settles O7: every strip is the power-on strip, whose flags are false and whose lists are empty. -/
theorem powerOnState : Obligations.PowerOnState := by
  refine ⟨fun _ => rfl, rfl, rfl, rfl, fun k => ?_⟩
  rw [strip_reset]
  exact ⟨rfl, rfl, rfl, rfl, rfl, rfl, rfl, rfl⟩

/-! ## An absent strip (R222) -/

/-- The first check of every command that needs a present strip is that the strip is present. -/
theorem exec_of_absent (absent : (st.strip s.toNat).present = false)
    (needsStrip : (∃ index c, i = .setPixel s index c) ∨ (∃ start colors, i = .setPixels s start colors) ∨
      (∃ start len c, i = .fill s start len c) ∨ i = .flush s ∨ (∃ timeout, i = .wait s timeout) ∨ i = .free s ∨
      i = .encReset s) : exec i st = st.fail .invalidArgument := by
  have firstCheck : (!(st.strip s.toNat).present) = true := by rw [absent, Bool.not_false]
  obtain ⟨_, _, rfl⟩ | ⟨_, _, rfl⟩ | ⟨_, _, _, rfl⟩ | rfl | ⟨_, rfl⟩ | rfl | rfl := needsStrip
  all_goals exact if_pos firstCheck

/-- Settles O55: the command fails in its first check, before any draw. -/
theorem absentStripIsAnInvalidArgument : Obligations.AbsentStripIsAnInvalidArgument := by
  intro s st absent i needsStrip
  rw [exec_of_absent absent needsStrip]
  exact fail_onlyFails (.refl st) .invalidArgument

/-! ## A busy strip (R224 to R226) -/

section

variable (present : (st.strip s.toNat).present = true) (busy : (st.strip s.toNat).busy = true)

include present busy

theorem exec_encReset_of_busy : exec (.encReset s) st = st.raise .encResetBusy s.toNat := by
  simp [exec, execEncReset, present, busy]

theorem exec_free_of_busy : exec (.free s) st = st.raise .freeBusy s.toNat := by
  simp [exec, execFree, present, busy]

theorem exec_setPixel_of_busy {index : Word32} (inside : index.toNat < (st.strip s.toNat).conf.pixels) :
    exec (.setPixel s index c) st = st.raise .bufWriteBusy s.toNat := by
  simp [exec, execSetPixel, present, busy, Nat.not_le.2 inside]

end

/-- A nonempty range inside the strip has no error. -/
theorem rangeError_none (nonempty : len ≠ 0) (inside : start + len ≤ (st.strip k).conf.pixels) :
    st.rangeError k start len = (none, st) := by
  rw [State.rangeError, if_neg (Nat.not_lt.2 inside), if_neg nonempty]

/-- A range that is empty or too long has an error, found after draws only. -/
theorem rangeError_some (bad : len = 0 ∨ (st.strip k).conf.pixels < start + len) :
    ∃ e u, OnlyDraws st u ∧ st.rangeError k start len = (some e, u) := by
  obtain ⟨inside, nonempty, -⟩ | ⟨-, u, draws, error⟩ | ⟨-, u, draws, error⟩ := rangeError_cases st k start len
  · omega
  · exact ⟨_, u, draws, error⟩
  · exact ⟨_, u, draws, error⟩

theorem writeRange_of_busy (present : (st.strip k).present = true) (busy : (st.strip k).busy = true)
    (nonempty : len ≠ 0) (inside : start + len ≤ (st.strip k).conf.pixels) :
    st.writeRange k start len cs = st.raise .bufWriteBusy k := by
  simp [State.writeRange, rangeError_none nonempty inside, present, busy]

/-- Settles O37: the check for a busy strip comes after the argument checks and before the write. -/
theorem writingWhileBusyFaults : Obligations.WritingWhileBusyFaults := by
  refine ⟨fun s index c st present busy => ⟨fun inside => ?pixelFaults, fun beyond => ?pixelFails⟩,
    fun s start len c colors st present busy length i range => ?range⟩
  case pixelFaults => exact exec_setPixel_of_busy present busy inside
  case pixelFails =>
    obtain ⟨t, run, fails, -⟩ := pixelBoundsErrors.1 s index c st present beyond
    exact ⟨t, .outOfRange, run, fails⟩
  case range =>
    obtain ⟨cs, run⟩ := exec_range length range st
    rw [run]
    refine ⟨fun ⟨nonempty, inside⟩ => writeRange_of_busy present busy nonempty inside, fun bad => ?_⟩
    obtain ⟨e, u, draws, error⟩ := rangeError_some bad
    obtain ⟨t, answers, fails, -⟩ := writeRange_fails present error draws
    exact ⟨t, e, answers, fails⟩

/-- Settles O54: both commands check for a busy strip before they write. -/
theorem resetAndFreeWhileBusyFault : Obligations.ResetAndFreeWhileBusyFault :=
  fun _ _ present busy => ⟨exec_encReset_of_busy present busy, exec_free_of_busy present busy⟩

end Sys2Proof.Machine
end
